-- ==== Sys2Proof/Word.lean ====
section
/-! DEFINITION. The processing word, the byte, and one lane of a word (spec/00_scope.md R6, R8, R10). -/

namespace Sys2Proof

/-- A processing word: 64 bits, bit 0 least significant, unsigned (R6 `XLEN`, R8).
Also the width of an address, of a byte length and of an accumulator (R6 `AW`, `ACCW`). -/
abbrev Word := BitVec 64

/-- The smallest addressable unit of the data memory (R60), and the width of one counter (R6 `CBW`). -/
abbrev Byte := BitVec 8

/-- `popbit(x, i)` of R10: lane `i` of `x` as the integer 0 or 1. -/
def lane (x : Word) (i : Nat) : Nat := (x.getLsbD i).toNat

end Sys2Proof
end

