-- ==== Sys2Proof/Config.lean ====
section
/-! DEFINITION. What is fixed for the machine (the width codes of R6, R35) and the parameters the spec leaves open
(spec/92_eei_decisions.md, "Named parameters left open"). -/

namespace Sys2Proof.Config

/-- `W = 8 << wsel`, the element width in bits (R10, R35): 8, 16, 32, 64. -/
def width (wsel : BitVec 2) : Nat := 8 <<< wsel.toNat

/-- `ES = 1 << wsel = W div 8`, the element size in bytes (R10, R35, R223 line 3): 1, 2, 4, 8. -/
def elemSize (wsel : BitVec 2) : Nat := 1 <<< wsel.toNat

/-- `ACC_RESET` (R22, R320, decision D13, U8): what accumulator `j` holds after the `n`-th assertion of reset (0 for
power-on). A free value without a body: "A model must not take it to be zero" (log 1). -/
opaque accReset : (n : Nat) → (j : Fin 64) → Word

/-- The value on byte lane `k` of the answer to the `n`-th read when that lane's byte enable is 0 (R66, U9): "any
value, possibly different at every read". A free value without a body (log 2). -/
opaque undrivenByte : (n k : Nat) → Byte

end Sys2Proof.Config
end

