-- ==== Sys2Proof/Machine/State.lean ====
section
/-! DEFINITION. The state of one block (spec/10_state.md R20), what the outside holds and gives it (spec/20_memory.md,
spec/43_host_commands.md R220), the reasons a step could stop, and the state after reset (R320). -/

namespace Sys2Proof.Machine

/-- `PH`, the phase register (R24). Its codes 6 and 7 are "never taken; no rule writes them" and are left out (U14). -/
inductive Phase where
  | idle | setup | head | chunk | resid | final
deriving DecidableEq, Repr

/-- `ERR`, the sticky fault code (R28, R280). The codes 5 to 15 are never written and are left out (U14). -/
inductive Err where
  | noFault | illcmd | align | range | bus
deriving DecidableEq, Repr

/-- What `raise` is given (R10, R280): the fault, and for BUS the address recorded in `FADDR`. -/
inductive Cause where
  | illcmd
  | align
  | range
  | bus (addr : Word)
deriving DecidableEq, Repr

/-- The four carry planes `PL1, PL2, PL4, PL8` (R37). -/
structure Planes where
  p1 : Word
  p2 : Word
  p4 : Word
  p8 : Word
deriving DecidableEq, Repr

/-- All four planes zero. -/
def Planes.zero : Planes := ⟨0#64, 0#64, 0#64, 0#64⟩

/-- One thing the outside does (R7: the host and the memory are agents of their own). The list `State.inputs` says what
it does and in which order; logs 3 and 4 say how an order of steps is written with it. -/
inductive Input where
  /-- The host presents a command; it waits at the port while `PH` is not IDLE (R220). -/
  | command (cmd : BitVec 32) (opnd : Word)
  /-- The outside does nothing during one step. -/
  | wait
  /-- The byte at `addr` becomes readable and holds `v` (R66 `readable`, `content`; R71 item 2). -/
  | store (addr : Word) (v : Byte)
  /-- The byte at `addr` becomes unreadable: a read that asks for it is answered with `mem_err` (R66, U1). -/
  | withdraw (addr : Word)
  /-- The memory stops (`true`) or resumes (`false`) answering reads (U18). -/
  | stall (on : Bool)
  /-- `rst` is driven high (`true`, asserted) or low (`false`, released), at any time, also in a RUN (R320). -/
  | rst (on : Bool)
deriving DecidableEq, Repr

/-- One read on the memory port: `mem_addr` and `mem_be` (R66). -/
abbrev Request := Word × BitVec 8

/-- Everything the spec gives the machine. The fields down to `faddr` are the block (R20: "Nothing else is state"); the
others are its inputs and outputs: memory (R66, R69), what the host and platform do (R7), and what the ports have shown. -/
structure State where
  /-- `ACC[0..63]`, the accumulator file (R21). -/
  acc : Vector Word 64
  /-- `ADDR`, byte address of the buffer (R23). -/
  addr : Word
  /-- `LEN`, byte length of the buffer (R23). -/
  len : Word
  /-- `PL1, PL2, PL4, PL8`, the carry state (R37). -/
  pl : Planes
  /-- `CB[0..63]`, the counter bank (R38). -/
  cb : Vector Byte 64
  /-- `EP`, chunks since the bank was last zero (R36). -/
  ep : BitVec 4
  /-- `PTR`, address of the next word (R25). -/
  ptr : Word
  /-- `REM`, remaining bytes (R32). -/
  rem : Word
  /-- `WSEL`, the width code (R35). -/
  wsel : BitVec 2
  /-- `PH`, the phase (R24). -/
  ph : Phase
  /-- `DONE` (R26). -/
  done : Bool
  /-- `SAT`, sticky (R27). -/
  sat : Bool
  /-- `ERR`, sticky, first fault wins (R28). -/
  err : Err
  /-- `FADDR`, address of the read that failed (R34). -/
  faddr : Word
  /-- The data memory (R60): the readable bytes, in canonical form. A byte not listed is unreadable. -/
  mem : List Host.Cell
  /-- The memory does not answer at present (U18). -/
  memStalled : Bool
  /-- The level of the reset input `rst`: it is asserted (R320). -/
  rst : Bool
  /-- What the outside does next, in order (R7, R220, R320). -/
  inputs : List Input
  /-- The responses `rsp` given so far, oldest first (R220). -/
  rsps : List Word
  /-- The reads issued on the memory port so far, oldest first (R66, R71). -/
  reads : List Request
  /-- How often `rst` has gone high since power-on (the argument of `Config.accReset`). -/
  resets : Nat
deriving DecidableEq, Repr

/-- The reasons a step stops the machine with a fault: NONE. The spec's four faults do not stop the machine; they are
recorded in `ERR` by a next state (R280, R287), and "The sequencer ... has exactly one enabled step in every non-IDLE
state" (R180). Nothing raises it; its emptiness is safe, for every step goes on. -/
inductive Fault where
deriving DecidableEq, Repr

/-- The reasons a step is refused. -/
inductive Refusal where
  /-- Raised by an arm of `exec` whose instruction has no meaning yet; safe. No arm of this model raises it. -/
  | notModelled (mnemonic : String)
deriving DecidableEq, Repr

/-- The accumulator file after the `n`-th assertion of reset: unspecified values, fixed and stable (R22, R320; log 1). -/
@[irreducible] def accAfterReset (n : Nat) : Vector Word 64 := Vector.ofFn (Config.accReset n)

/-- The state right after power-on reset (R20, R320): every register of the block at its reset value, `ACC` unspecified,
`rst` released (log 4). No byte is readable, nothing is presented, nothing has been answered or read. -/
def State.reset : State where
  acc := accAfterReset 0
  addr := 0#64
  len := 0#64
  pl := Planes.zero
  cb := Vector.replicate 64 0#8
  ep := 0#4
  ptr := 0#64
  rem := 0#64
  wsel := 0#2
  ph := .idle
  done := false
  sat := false
  err := .noFault
  faddr := 0#64
  mem := []
  memStalled := false
  rst := false
  inputs := []
  rsps := []
  reads := []
  resets := 0

end Sys2Proof.Machine
end

