-- ==== Sys2Proof/Machine/Flags.lean ====
section
/-! DEFINITION. The flags and codes: the codes of `PH` and `ERR`, the assembly of STATUS, the output pins, and the
saturation of a counter (spec/10_state.md R24, R28, R29, R31; spec/41_counter_bank.md R151). -/

namespace Sys2Proof.Machine

/-- The 3-bit code of `PH` (R24). -/
def Phase.code : Phase → BitVec 3
  | .idle => 0#3
  | .setup => 1#3
  | .head => 2#3
  | .chunk => 3#3
  | .resid => 4#3
  | .final => 5#3

/-- The phase of a code; 6 and 7 are no phase (R24). -/
def Phase.ofCode (c : BitVec 3) : Option Phase :=
  match c.toNat with
  | 0 => some .idle
  | 1 => some .setup
  | 2 => some .head
  | 3 => some .chunk
  | 4 => some .resid
  | 5 => some .final
  | _ => none

/-- The 4-bit code of `ERR` (R280). -/
def Err.code : Err → BitVec 4
  | .noFault => 0#4
  | .illcmd => 1#4
  | .align => 2#4
  | .range => 3#4
  | .bus => 4#4

/-- The code a cause is recorded under (R280). -/
def Cause.err : Cause → Err
  | .illcmd => .illcmd
  | .align => .align
  | .range => .range
  | .bus _ => .bus

/-- `STATUS` (R31): `DONE` in bit 0, `SAT` in bit 1, `ERR` in 7:4, `WSEL` in 9:8, every other bit zero. -/
def State.status (s : State) : Word :=
  (BitVec.ofBool s.done).setWidth 64 ||| (BitVec.ofBool s.sat).setWidth 64 <<< 1 ||| s.err.code.setWidth 64 <<< 4 |||
    s.wsel.setWidth 64 <<< 8

/-- The pin `busy = (PH != 0)` (R29). -/
def State.busyPin (s : State) : Bool := s.ph.code != 0#3

/-- The pin `done = DONE` (R29). -/
def State.donePin (s : State) : Bool := s.done

/-- The pin `fault = (ERR != 0) or (SAT == 1)` (R29). -/
def State.faultPin (s : State) : Bool := s.err.code != 0#4 || s.sat

/-- The pin `cmd_ready = (PH == 0)` (R29). -/
def State.cmdReady (s : State) : Bool := s.ph.code == 0#3

/-- `sat8(v) = min(v, 255)` (R10, R151). -/
def sat8 (v : Nat) : Byte := BitVec.ofNat 8 (min v 255)

/-- Does adding to the exact value `v` clip the counter, and so set `SAT` (R151)? -/
def clips (v : Nat) : Bool := decide (255 < v)

end Sys2Proof.Machine
end

