-- ==== Sys2Proof/Machine/Ops.lean ====
section
/-! DEFINITION. The named operations: the data memory and its read primitive (spec/20_memory.md R60 to R66), the
response of a command (R220), taking a fault as one shared operation and clearing its record (spec/60_exceptions.md R280
to R288), and reset (R320). -/

namespace Sys2Proof.Machine

/-! ### The data memory -/

/-- The content of the byte at `x`, if it is readable. An address that is not listed is unreadable (U1, R69; log 5), so
no entry can be equal to what an unlisted address reads as. -/
def Memory.read : List Host.Cell → Nat → Option Byte
  | [], _ => none
  | (a, v) :: m, x => if a = x then some v else Memory.read m x

/-- Makes the byte at `x` readable, holding `v`; keeps the addresses strictly rising. -/
def Memory.write : List Host.Cell → Nat → Byte → List Host.Cell
  | [], x, v => [(x, v)]
  | (a, u) :: m, x, v =>
    if x < a then (x, v) :: (a, u) :: m else if x = a then (x, v) :: m else (a, u) :: Memory.write m x v

/-- Makes the byte at `x` unreadable. -/
def Memory.withdraw : List Host.Cell → Nat → List Host.Cell
  | [], _ => []
  | (a, u) :: m, x => if a = x then m else (a, u) :: Memory.withdraw m x

/-- The canonical form: addresses strictly rising, each one of the addresses 0 to 2^64 - 1 (R60). -/
abbrev Memory.wf (m : List Host.Cell) : Prop :=
  m.Pairwise (fun c d => c.1 < d.1) ∧ ∀ c ∈ m, c.1 < 2 ^ 64

/-! ### The read primitive (R66) -/

/-- Byte lane `k` of the answer to the `n`-th read, from address `a` with enables `be`: the content of the byte at
`a + k`, none if it is unreadable; a lane that is not enabled carries any value and causes no error. -/
def busByte (m : List Host.Cell) (n a : Nat) (be : BitVec 8) (k : Nat) : Option Byte :=
  if be.getLsbD k then Memory.read m (a + k) else some (Config.undrivenByte n k)

/-- Byte `k` at its place in the little-endian word, bits `8k+7 : 8k` (R63). -/
def placed (b : Byte) (k : Nat) : Word := b.setWidth 64 <<< (8 * k)

/-- `MemReadBE(a, be)`, little-endian (R63, R66): bits `8k+7 : 8k` are byte lane `k`. None is `mem_err = 1`. -/
def memReadBE (m : List Host.Cell) (n a : Nat) (be : BitVec 8) : Option Word := do
  let b0 ← busByte m n a be 0
  let b1 ← busByte m n a be 1
  let b2 ← busByte m n a be 2
  let b3 ← busByte m n a be 3
  let b4 ← busByte m n a be 4
  let b5 ← busByte m n a be 5
  let b6 ← busByte m n a be 6
  let b7 ← busByte m n a be 7
  return placed b0 0 ||| placed b1 1 ||| placed b2 2 ||| placed b3 3 ||| placed b4 4 ||| placed b5 5 ||| placed b6 6 |||
    placed b7 7

/-- What the reads of one micro-operation come to. -/
inductive BlockAnswer where
  /-- All answered, with these words. -/
  | words (ws : List Word)
  /-- The read of `addr` was answered with `mem_err`; it was the `issued`-th, and the last one issued. -/
  | busError (addr : Word) (issued : Nat)
  /-- The memory does not answer (U18). -/
  | silent
deriving DecidableEq, Repr

/-- A word in front of the words that follow it; an error after it is one read later. -/
def BlockAnswer.after (d : Word) : BlockAnswer → BlockAnswer
  | .words ws => .words (d :: ws)
  | .busError a n => .busError a (n + 1)
  | .silent => .silent

/-- Issues the reads one at a time in the order given; the first error ends them (R71 item 1, R182, R185, R286). -/
def readBlock (m : List Host.Cell) : Nat → List Request → BlockAnswer
  | _, [] => .words []
  | n, (a, be) :: rest =>
    match memReadBE m n a.toNat be with
    | none => .busError a 1
    | some d => (readBlock m (n + 1) rest).after d

/-- The reads of one micro-operation, as the memory of the state answers them. -/
def State.readBlock (s : State) (reqs : List Request) : BlockAnswer :=
  if s.memStalled then .silent else Machine.readBlock s.mem s.reads.length reqs

/-- The reads `reqs` have been issued on the memory port (R66). -/
def State.issue (s : State) (reqs : List Request) : State := { s with reads := s.reads ++ reqs }

/-! ### The command port -/

/-- The response `rsp` of an accepted command (R220). -/
def State.respond (s : State) (v : Word) : State := { s with rsps := s.rsps ++ [v] }

/-! ### Faults -/

/-- `raise` (R10, R281 to R283, R287): `ERR` takes the code if it is 0 (R28: the first fault wins), and with it `FADDR`
the address for BUS (R34); BUS also clears `DONE` and returns `PH` to IDLE. There is no handler, no saved counter and no
mode: nothing else changes. -/
def State.raise (s : State) (c : Cause) : State :=
  match c with
  | .bus a =>
    { s with
      err := if s.err = .noFault then .bus else s.err
      faddr := if s.err = .noFault then a else s.faddr
      done := false
      ph := .idle }
  | .illcmd | .align | .range => { s with err := if s.err = .noFault then c.err else s.err }

/-- The end of a fault (R227, R288): the host clears the record; nothing is restored. -/
def State.clearRecord (s : State) : State := { s with err := .noFault, sat := false, faddr := 0#64 }

/-! ### Reset -/

/-- `rst` goes high (R320): the block takes its reset values and `ACC` fresh unspecified ones. Memory, what the outside
goes on to do and what the ports have shown are not the block's (R20) and stay (log 4). -/
def State.assertReset (s : State) : State :=
  { State.reset with
    acc := accAfterReset (s.resets + 1)
    mem := s.mem
    memStalled := s.memStalled
    rst := true
    inputs := s.inputs
    rsps := s.rsps
    reads := s.reads
    resets := s.resets + 1 }

/-- The outside drives `rst` (R320). Going high it resets the block; while it is high, and as it goes low, every register
stays at the value it took then. -/
def State.driveRst (s : State) (on : Bool) : State :=
  if on && !s.rst then s.assertReset else { s with rst := on }

end Sys2Proof.Machine
end

