-- ==== Sys2Proof/Machine/Operands.lean ====
section
/-! DEFINITION. The operands: the reads of a micro-operation and the head mask (spec/20_memory.md R66 to R68), the checks
RUN makes on `ADDR` and `LEN` (R223), and the registers RDSR selects (R30, R226). -/

namespace Sys2Proof.Machine

/-- `m = ADDR mod 8`, the misalignment (R65 item 2, R67). -/
def State.misalign (s : State) : Nat := s.addr.toNat % 8

/-- `L' = LEN + m`, the adjusted length, exact (R181 line 4). -/
def State.adjustedLen (s : State) : Nat := s.len.toNat + s.misalign

/-- `be0 = (0xFF << m) and 0xFF` (R67). -/
def headEnables (m : Nat) : BitVec 8 := 0xFF#8 <<< m

/-- `HM = (2^64 - 1) << (8*m)`, truncated to 64 bits (R67). -/
def headMask (m : Nat) : Word := BitVec.allOnes 64 <<< (8 * m)

/-- The 15 reads of `u.HEAD`: the first with `be0`, the others with all bytes enabled (R182 lines 2, 3). -/
def State.headRequests (s : State) : List Request :=
  (List.range 15).map fun j =>
    (s.ptr + BitVec.ofNat 64 (8 * j), if j = 0 then headEnables s.misalign else 0xFF#8)

/-- The 16 reads of `u.CHUNK` (R185 line 1). -/
def State.chunkRequests (s : State) : List Request :=
  (List.range 16).map fun j => (s.ptr + BitVec.ofNat 64 (8 * j), 0xFF#8)

/-- Word `j` of a block that was read. -/
def wordAt (ws : List Word) (j : Nat) : Word := ws.getD j 0#64

/-- Word `j` of the head block: the first ANDed with the head mask (R182 line 2). -/
def headWordAt (m : Nat) (ws : List Word) (j : Nat) : Word :=
  if j = 0 then wordAt ws 0 &&& headMask m else wordAt ws j

/-- Line 4 of RUN (R223): both `ADDR` and `LEN` are multiples of the element size. -/
def State.alignedFor (s : State) (wsel : BitVec 2) : Bool :=
  s.addr.toNat % Config.elemSize wsel == 0 && s.len.toNat % Config.elemSize wsel == 0

/-- Line 5 of RUN (R223): the exact 65-bit sum `ADDR + LEN` is below 2^64. -/
def State.inRange (s : State) : Bool := decide (s.addr.toNat + s.len.toNat < 2 ^ 64)

/-- `REMN = REM div ES` (R33). -/
def State.remn (s : State) : Word := BitVec.ofNat 64 (s.rem.toNat / Config.elemSize s.wsel)

/-- The register RDSR selects (R30, R226); none for the reserved selectors 7 to 15. -/
def State.register (s : State) (sel : BitVec 4) : Option Word :=
  match sel.toNat with
  | 0 => some s.status
  | 1 => some s.rem
  | 2 => some s.remn
  | 3 => some s.addr
  | 4 => some s.len
  | 5 => some s.faddr
  | 6 => some s.ptr
  | _ => none

end Sys2Proof.Machine
end

