-- ==== Sys2Proof/Syntax.lean ====
section
/-! DEFINITION. The instructions: one constructor per row of spec/opcode_table.json, the eight host commands of
spec/43_host_commands.md and the seven micro-operations of spec/42_sequencer_steps.md. -/

namespace Sys2Proof

/-- R90: the two levels of operation. A host command carries the operands that R91 and R92 give it. A micro-operation
has none: the phase register selects it (R96). -/
inductive Instr where
  /-- `NOP` (R221). -/
  | nop
  /-- `SETADDR opnd` (R222). -/
  | setaddr (opnd : Word)
  /-- `SETLEN opnd` (R222). -/
  | setlen (opnd : Word)
  /-- `RUN`, with the width code `wsel` (R223). -/
  | run (wsel : BitVec 2)
  /-- `ACCWR idx, opnd` (R224). -/
  | accwr (idx : Fin 64) (opnd : Word)
  /-- `ACCRD idx` (R225). -/
  | accrd (idx : Fin 64)
  /-- `RDSR sel` (R226). Selectors 7 to 15 are ill-formed (R94). -/
  | rdsr (sel : BitVec 4)
  /-- `ERRCLR` (R227). -/
  | errclr
  /-- `u.SETUP` (R181). -/
  | uSetup
  /-- `u.HEAD` (R182). -/
  | uHead
  /-- `u.EXIT` (R183). -/
  | uExit
  /-- `u.MFLUSH` (R184). -/
  | uMflush
  /-- `u.CHUNK` (R185). -/
  | uChunk
  /-- `u.RESID` (R186). -/
  | uResid
  /-- `u.FINAL` (R187). -/
  | uFinal
deriving DecidableEq, Repr

/-- The row's name in spec/opcode_table.json. -/
def Instr.mnemonic : Instr → String
  | .nop => "NOP"
  | .setaddr _ => "SETADDR"
  | .setlen _ => "SETLEN"
  | .run _ => "RUN"
  | .accwr _ _ => "ACCWR"
  | .accrd _ => "ACCRD"
  | .rdsr _ => "RDSR"
  | .errclr => "ERRCLR"
  | .uSetup => "u.SETUP"
  | .uHead => "u.HEAD"
  | .uExit => "u.EXIT"
  | .uMflush => "u.MFLUSH"
  | .uChunk => "u.CHUNK"
  | .uResid => "u.RESID"
  | .uFinal => "u.FINAL"

/-- Is the instruction one the host gives on the command port (R90 item 1), rather than a micro-operation (item 2)? -/
def Instr.isCommand : Instr → Bool
  | .nop | .setaddr _ | .setlen _ | .run _ | .accwr _ _ | .accrd _ | .rdsr _ | .errclr => true
  | .uSetup | .uHead | .uExit | .uMflush | .uChunk | .uResid | .uFinal => false

/-- Does the command use its operand `opnd` (R91)? The others ignore it, and a micro-operation has none. -/
def Instr.usesOperand : Instr → Bool
  | .setaddr _ | .setlen _ | .accwr _ _ => true
  | .nop | .run _ | .accrd _ | .rdsr _ | .errclr => false
  | .uSetup | .uHead | .uExit | .uMflush | .uChunk | .uResid | .uFinal => false

/-- The names of the registers RDSR reads, by selector (R30, R97); selectors 7 to 15 are reserved. -/
def registerName (sel : BitVec 4) : String :=
  match sel.toNat with
  | 0 => "STATUS"
  | 1 => "REM"
  | 2 => "REMN"
  | 3 => "ADDR"
  | 4 => "LEN"
  | 5 => "FADDR"
  | 6 => "PTR"
  | _ => "reserved"

/-- The text form of R97, numbers in decimal. A micro-operation has no assembler syntax; it shows as its name. -/
def Instr.asm : Instr → String
  | .setaddr opnd => "SETADDR " ++ toString opnd.toNat
  | .setlen opnd => "SETLEN " ++ toString opnd.toNat
  | .run wsel => "RUN." ++ toString (8 <<< wsel.toNat)
  | .accwr idx opnd => "ACCWR " ++ toString idx.val ++ ", " ++ toString opnd.toNat
  | .accrd idx => "ACCRD " ++ toString idx.val
  | .rdsr sel => "RDSR " ++ registerName sel
  | .nop => "NOP"
  | .errclr => "ERRCLR"
  | .uSetup => "u.SETUP"
  | .uHead => "u.HEAD"
  | .uExit => "u.EXIT"
  | .uMflush => "u.MFLUSH"
  | .uChunk => "u.CHUNK"
  | .uResid => "u.RESID"
  | .uFinal => "u.FINAL"

end Sys2Proof
end

