-- ==== Sys2Proof/Machine/Commands.lean ====
section
/-! DEFINITION. The meanings of the eight host commands (spec/43_host_commands.md R221 to R227). Each is the effect of an
accepted command; acceptance itself is Machine/Fetch.lean's (R220). -/

namespace Sys2Proof.Machine

/-- `NOP` (R221). -/
def execNop (s : State) : Host.Outcome State Fault Refusal := .next (s.respond 0#64)

/-- `SETADDR` (R222). -/
def execSetaddr (opnd : Word) (s : State) : Host.Outcome State Fault Refusal :=
  .next ({ s with addr := opnd }.respond 0#64)

/-- `SETLEN` (R222). -/
def execSetlen (opnd : Word) (s : State) : Host.Outcome State Fault Refusal :=
  .next ({ s with len := opnd }.respond 0#64)

/-- Lines 2 to 6 of RUN (R223), after `DONE <- 0`. -/
def launch (wsel : BitVec 2) (s : State) : State :=
  if s.err ≠ .noFault then s
  else if !s.alignedFor wsel then s.raise .align
  else if !s.inRange then s.raise .range
  else { s with wsel := wsel, ph := .setup }

/-- `RUN` (R223): line 1, then the lines of `launch`, of which the first that ends the command ends it. -/
def execRun (wsel : BitVec 2) (s : State) : Host.Outcome State Fault Refusal :=
  .next (launch wsel ({ s with done := false }.respond 0#64))

/-- `ACCWR` (R224). -/
def execAccwr (idx : Fin 64) (opnd : Word) (s : State) : Host.Outcome State Fault Refusal :=
  .next ({ s with acc := s.acc.set idx.val opnd }.respond 0#64)

/-- `ACCRD` (R225). -/
def execAccrd (idx : Fin 64) (s : State) : Host.Outcome State Fault Refusal := .next (s.respond s.acc[idx.val])

/-- What an illegal command does (R94, R281): the fault record, and `rsp = 0`. -/
def illegalCommand (s : State) : State := (s.raise .illcmd).respond 0#64

/-- `RDSR` (R226); a reserved selector is an illegal command (R94). -/
def execRdsr (sel : BitVec 4) (s : State) : Host.Outcome State Fault Refusal :=
  match s.register sel with
  | some v => .next (s.respond v)
  | none => .next (illegalCommand s)

/-- `ERRCLR` (R227). -/
def execErrclr (s : State) : Host.Outcome State Fault Refusal := .next (s.clearRecord.respond 0#64)

end Sys2Proof.Machine
end

