-- ==== Sys2Proof/Machine/Network.lean ====
section
/-! DEFINITION. The carry-save-adder network (spec/40_csa_network.md R120 to R128): pure functions of words. -/

namespace Sys2Proof.Machine

/-- `CSA(a, b, c) = (sum, carry)` (R120). -/
def csa (a b c : Word) : Word × Word := (a ^^^ b ^^^ c, a &&& b ||| a &&& c ||| b &&& c)

/-- `HEAD15(w)` (R122), by the canonical tree of R124: 11 CSAs. -/
@[irreducible] def head15 (w : Fin 15 → Word) : Planes :=
  let (a0, t0) := csa (w 0) (w 1) (w 2)
  let (a1, t1) := csa a0 (w 3) (w 4)
  let (a2, t2) := csa a1 (w 5) (w 6)
  let (a3, t3) := csa a2 (w 7) (w 8)
  let (a4, t4) := csa a3 (w 9) (w 10)
  let (a5, t5) := csa a4 (w 11) (w 12)
  let (p1, t6) := csa a5 (w 13) (w 14)
  let (b0, f0) := csa t0 t1 t2
  let (b1, f1) := csa b0 t3 t4
  let (p2, f2) := csa b1 t5 t6
  let (p4, p8) := csa f0 f1 f2
  ⟨p1, p2, p4, p8⟩

/-- `CHUNK16(p, w)` (R125), by the canonical tree of R127: 15 CSAs. The second part is `q16`, the plane that leaves the
network (R126). -/
@[irreducible] def chunk16 (p : Planes) (w : Fin 16 → Word) : Planes × Word :=
  let (a0, t0) := csa p.p1 (w 0) (w 1)
  let (a1, t1) := csa a0 (w 2) (w 3)
  let (a2, t2) := csa a1 (w 4) (w 5)
  let (a3, t3) := csa a2 (w 6) (w 7)
  let (a4, t4) := csa a3 (w 8) (w 9)
  let (a5, t5) := csa a4 (w 10) (w 11)
  let (a6, t6) := csa a5 (w 12) (w 13)
  let (q1, t7) := csa a6 (w 14) (w 15)
  let (b0, f0) := csa p.p2 t0 t1
  let (b1, f1) := csa b0 t2 t3
  let (b2, f2) := csa b1 t4 t5
  let (q2, f3) := csa b2 t6 t7
  let (c0, e0) := csa p.p4 f0 f1
  let (q4, e1) := csa c0 f2 f3
  let (q8, q16) := csa p.p8 e0 e1
  (⟨q1, q2, q4, q8⟩, q16)

/-- `plval(i)` (R37): the number lane `i` of the planes spells. -/
def Planes.value (p : Planes) (i : Nat) : Nat := lane p.p1 i + 2 * lane p.p2 i + 4 * lane p.p4 i + 8 * lane p.p8 i

end Sys2Proof.Machine
end

