-- ==== Sys2Proof/Machine/Bank.lean ====
section
/-! DEFINITION. The counter bank and its folding into the accumulators (spec/41_counter_bank.md R150 to R164). -/

namespace Sys2Proof.Machine

/-- What a counter addition reads and writes: `CB` and `SAT` (R151). -/
structure Bank where
  cb : Vector Byte 64
  sat : Bool
deriving DecidableEq, Repr

/-- `cbadd(i, d)`, the saturating add of one counter (R151). -/
def cbadd (i : Fin 64) (d : Nat) (b : Bank) : Bank :=
  { cb := b.cb.set i.val (sat8 (b.cb[i.val].toNat + d))
    sat := b.sat || clips (b.cb[i.val].toNat + d) }

/-- `for i in 0..63: cbadd(i, d i)`, in that order. -/
@[irreducible] def cbaddAll (d : Fin 64 → Nat) (b : Bank) : Bank :=
  (List.finRange 64).foldl (fun b i => cbadd i (d i) b) b

/-- The additions `d` made in the counter bank of the state. -/
def State.count (s : State) (d : Fin 64 → Nat) : State :=
  let b := cbaddAll d ⟨s.cb, s.sat⟩
  { s with cb := b.cb, sat := b.sat }

/-- `cbzero` (R152): every counter and `EP` zero; `SAT` is not cleared. -/
def State.cbzero (s : State) : State := { s with cb := Vector.replicate 64 0#8, ep := 0#4 }

/-- `cbemit(q16)` (R153): 16 for each set bit of the weight-16 plane. -/
def State.cbemit (s : State) (q16 : Word) : State := s.count fun i => 16 * lane q16 i.val

/-- The nibble view `NV[k]` (R154): bit `4j + r` is lane `16k + j` of the plane of weight `2^r`. -/
def nibbleView (p : Planes) (k : Nat) : Word :=
  BitVec.ofFnLE fun (b : Fin 64) =>
    let l := 16 * k + b.val / 4
    match b.val % 4 with
    | 0 => p.p1.getLsbD l
    | 1 => p.p2.getLsbD l
    | 2 => p.p4.getLsbD l
    | _ => p.p8.getLsbD l

/-- Nibble `j` of a view: bits `4j+3 : 4j` (R154). -/
def nibble (x : Word) (j : Nat) : Nat := (x.extractLsb' (4 * j) 4).toNat

/-- `cbresid` (R155): lane `16k + j` by nibble `j` of `NV[k]`, `k` outer and `j` inner, both ascending. -/
def State.cbresid (s : State) : State := s.count fun i => nibble (nibbleView s.pl (i.val / 16)) (i.val % 16)

/-- One line of the flush's loop: `ACC[i mod W] <- (ACC[i mod W] + CB[i]) mod 2^64` (R158). -/
def flushLane (w : Nat) (cb : Vector Byte 64) (acc : Vector Word 64) (i : Fin 64) : Vector Word 64 :=
  have h : i.val % w < 64 := Nat.lt_of_le_of_lt (Nat.mod_le _ _) i.isLt
  acc.set (i.val % w) (acc[i.val % w] + cb[i.val].setWidth 64)

/-- The 64 additions of the flush, one after another (R158). -/
@[irreducible] def foldBank (w : Nat) (cb : Vector Byte 64) (acc : Vector Word 64) : Vector Word 64 :=
  (List.finRange 64).foldl (flushLane w cb) acc

/-- `cbflush` (R158). -/
def State.cbflush (s : State) : State :=
  State.cbzero { s with acc := foldBank (Config.width s.wsel) s.cb s.acc }

end Sys2Proof.Machine
end

