-- ==== Sys2Proof/Machine/Sequencer.lean ====
section
/-! DEFINITION. The meanings of the seven micro-operations (spec/42_sequencer_steps.md R181 to R187). Each is the effect
of a selected micro-operation; the selection itself is Machine/Fetch.lean's (R96). -/

namespace Sys2Proof.Machine

/-- `u.SETUP` (R181). -/
def execUSetup (s : State) : Host.Outcome State Fault Refusal :=
  let s1 := State.cbzero { s with pl := Planes.zero, ptr := s.addr - BitVec.ofNat 64 s.misalign }
  if s.adjustedLen < 120 then .next { s1 with rem := s.len, done := true, ph := .idle }
  else .next { s1 with rem := BitVec.ofNat 64 s.adjustedLen, ph := .head }

/-- What a block read came to, for the step that made it: on words it goes on with `k`; a bus error is the whole effect
of the step (R283); a silent memory leaves the step untaken (U18). -/
def State.withBlock (s : State) (reqs : List Request) (k : List Word → State → State) : State :=
  match s.readBlock reqs with
  | .words ws => k ws (s.issue reqs)
  | .busError a n => (s.issue (reqs.take n)).raise (.bus a)
  | .silent => s

/-- Lines 4 and 5 of `u.HEAD` (R182), on the words read. -/
def headEffect (ws : List Word) (s : State) : State :=
  { s with
    pl := head15 fun j => headWordAt s.misalign ws j.val
    ptr := s.ptr + 120#64
    rem := s.rem - 120#64
    ph := .chunk }

/-- `u.HEAD` (R182). -/
def execUHead (s : State) : Host.Outcome State Fault Refusal := .next (s.withBlock s.headRequests headEffect)

/-- `u.EXIT` (R183). -/
def execUExit (s : State) : Host.Outcome State Fault Refusal := .next { s with ph := .resid }

/-- `u.MFLUSH` (R184). -/
def execUMflush (s : State) : Host.Outcome State Fault Refusal := .next s.cbflush

/-- Lines 2 to 6 of `u.CHUNK` (R185), on the words read. -/
def chunkEffect (ws : List Word) (s : State) : State :=
  let r := chunk16 s.pl fun j => wordAt ws j.val
  { State.cbemit s r.2 with
    pl := r.1
    ep := s.ep + 1#4
    ptr := s.ptr + 128#64
    rem := s.rem - 128#64 }

/-- `u.CHUNK` (R185). -/
def execUChunk (s : State) : Host.Outcome State Fault Refusal := .next (s.withBlock s.chunkRequests chunkEffect)

/-- `u.RESID` (R186). -/
def execUResid (s : State) : Host.Outcome State Fault Refusal :=
  .next { s.cbresid with pl := Planes.zero, ph := .final }

/-- `u.FINAL` (R187). -/
def execUFinal (s : State) : Host.Outcome State Fault Refusal := .next { s.cbflush with done := true, ph := .idle }

end Sys2Proof.Machine
end

