-- ==== Sys2Proof/Machine/Dispatch.lean ====
section
/-! DEFINITION. One arm per instruction, each one direct call of its meaning. -/

namespace Sys2Proof.Machine

def exec (i : Instr) (s : State) : Host.Outcome State Fault Refusal :=
  match i with
  | .nop => Sys2Proof.Machine.execNop s
  | .setaddr opnd => Sys2Proof.Machine.execSetaddr opnd s
  | .setlen opnd => Sys2Proof.Machine.execSetlen opnd s
  | .run wsel => Sys2Proof.Machine.execRun wsel s
  | .accwr idx opnd => Sys2Proof.Machine.execAccwr idx opnd s
  | .accrd idx => Sys2Proof.Machine.execAccrd idx s
  | .rdsr sel => Sys2Proof.Machine.execRdsr sel s
  | .errclr => Sys2Proof.Machine.execErrclr s
  | .uSetup => Sys2Proof.Machine.execUSetup s
  | .uHead => Sys2Proof.Machine.execUHead s
  | .uExit => Sys2Proof.Machine.execUExit s
  | .uMflush => Sys2Proof.Machine.execUMflush s
  | .uChunk => Sys2Proof.Machine.execUChunk s
  | .uResid => Sys2Proof.Machine.execUResid s
  | .uFinal => Sys2Proof.Machine.execUFinal s

end Sys2Proof.Machine
end

