-- ==== Sys2Proof/WellFormed.lean ====
section
/-! DEFINITION. Which instructions are well formed. The operand types already hold every bound but one (R95: all
values of `idx`, `wsel` and `opnd` are legal); the one check left is RDSR's selector (R92, R94). -/

namespace Sys2Proof

/-- R92, R94: RDSR selects one of the registers 0 to 6; 7 to 15 are illegal. -/
def selectorOk (sel : BitVec 4) : Bool := decide (sel.toNat ≤ 6)

/-- Every other operand is legal at every value of its type (R95). -/
def Instr.wf : Instr → Bool
  | .rdsr sel => selectorOk sel
  | .nop | .setaddr _ | .setlen _ | .run _ | .accwr _ _ | .accrd _ | .errclr => true
  | .uSetup | .uHead | .uExit | .uMflush | .uChunk | .uResid | .uFinal => true

end Sys2Proof
end

