-- ==== Sys2Proof/Decode.lean ====
section
/-! DEFINITION. The decoder (spec/30_encoding.md R91 to R96), total and rejecting by name; after it the encoder, the
match/mask table of R93, the pseudo-instructions of R98, and the reading of an opcode-table word. -/

namespace Sys2Proof

/-- Why a command word or a phase selects no instruction. -/
inductive Reject where
  /-- R94: `opc` is 0x08 to 0xFF. -/
  | opcode
  /-- R94: `rsv` is not zero. -/
  | reserved
  /-- R94: a must-be-zero bit of `arg` is 1. -/
  | argument
  /-- R94: RDSR with `sel` 7 to 15. -/
  | selector
  /-- R96: in IDLE the sequencer has no step. -/
  | idle
  /-- R96: the codes 6 and 7 of `PH`, which no rule writes. -/
  | noPhase
deriving DecidableEq, Repr

/-- What selects an instruction: a command word with its operand (R90 item 1), or the phase code with the two state
tests of CHUNK (R90 item 2, R96): `remLow` is `REM < 128`, `epFull` is `EP = 15`. -/
inductive Code where
  | cmd (word : BitVec 32) (opnd : Word)
  | uop (ph : BitVec 3) (remLow epFull : Bool)
deriving DecidableEq, Repr

/-! ### Fields (R91, R92) -/

/-- `opc`, bits 7:0 (R91). -/
def opcField (c : BitVec 32) : BitVec 8 := c.extractLsb' 0 8

/-- `arg`, bits 15:8 (R91). -/
def argField (c : BitVec 32) : BitVec 8 := c.extractLsb' 8 8

/-- `rsv`, bits 31:16 (R91). -/
def rsvField (c : BitVec 32) : BitVec 16 := c.extractLsb' 16 16

/-- A six-bit index as the number of an accumulator, 0..63 (R92). -/
def accIndex (b : BitVec 6) : Fin 64 := ⟨b.toNat, b.isLt⟩

/-! ### The decoder -/

/-- `arg[7:0]` zero (R92: NOP, SETADDR, SETLEN, ERRCLR). -/
def decodePlain (arg : BitVec 8) (i : Instr) : Except Reject Instr :=
  if arg = 0#8 then .ok i else .error .argument

/-- RUN: `arg[1:0] = wsel`, `arg[7:2]` zero (R92). -/
def decodeRun (arg : BitVec 8) : Except Reject Instr :=
  if arg.extractLsb' 2 6 = 0#6 then .ok (.run (arg.extractLsb' 0 2)) else .error .argument

/-- ACCWR, ACCRD: `arg[5:0] = idx`, `arg[7:6]` zero (R92). -/
def decodeIndexed (arg : BitVec 8) (i : Fin 64 → Instr) : Except Reject Instr :=
  if arg.extractLsb' 6 2 = 0#2 then .ok (i (accIndex (arg.extractLsb' 0 6))) else .error .argument

/-- RDSR: `arg[3:0] = sel`, `arg[7:4]` zero, `sel` 0..6 (R92, R94). -/
def decodeRdsr (arg : BitVec 8) : Except Reject Instr :=
  if arg.extractLsb' 4 4 = 0#4 then
    if selectorOk (arg.extractLsb' 0 4) then .ok (.rdsr (arg.extractLsb' 0 4)) else .error .selector
  else .error .argument

/-- The command decoder, total on all `2^32` words (R91 to R94). -/
def decodeCmd (c : BitVec 32) (opnd : Word) : Except Reject Instr :=
  if rsvField c ≠ 0#16 then .error .reserved
  else
    match (opcField c).toNat with
    | 0 => decodePlain (argField c) .nop
    | 1 => decodePlain (argField c) (.setaddr opnd)
    | 2 => decodePlain (argField c) (.setlen opnd)
    | 3 => decodeRun (argField c)
    | 4 => decodeIndexed (argField c) (fun idx => .accwr idx opnd)
    | 5 => decodeIndexed (argField c) .accrd
    | 6 => decodeRdsr (argField c)
    | 7 => decodePlain (argField c) .errclr
    | _ => .error .opcode

/-- The sequencer's selection (R96): by the code of `PH`, and for CHUNK by the two tests, the first that holds. -/
def decodeUop (ph : BitVec 3) (remLow epFull : Bool) : Except Reject Instr :=
  match ph.toNat with
  | 0 => .error .idle
  | 1 => .ok .uSetup
  | 2 => .ok .uHead
  | 3 => .ok (if remLow then .uExit else if epFull then .uMflush else .uChunk)
  | 4 => .ok .uResid
  | 5 => .ok .uFinal
  | _ => .error .noPhase

/-- The decoder of both levels (R90). -/
def decode : Code → Except Reject Instr
  | .cmd c opnd => decodeCmd c opnd
  | .uop ph remLow epFull => decodeUop ph remLow epFull

/-! ### The encoder -/

/-- A command word from `opc` in bits 7:0 and `arg` in bits 15:8, with `rsv` zero (R91). -/
def cmdWord (opc arg : BitVec 8) : BitVec 32 := opc.setWidth 32 ||| arg.setWidth 32 <<< 8

/-- The encoding of an instruction (R92, R93, R96, R97). The operand is 0 where the command ignores it (R97), and a
test that R96 does not make is given as `false`. -/
def encode : Instr → Code
  | .nop => .cmd (cmdWord 0x00#8 0#8) 0#64
  | .setaddr opnd => .cmd (cmdWord 0x01#8 0#8) opnd
  | .setlen opnd => .cmd (cmdWord 0x02#8 0#8) opnd
  | .run wsel => .cmd (cmdWord 0x03#8 (wsel.setWidth 8)) 0#64
  | .accwr idx opnd => .cmd (cmdWord 0x04#8 (BitVec.ofNat 8 idx.val)) opnd
  | .accrd idx => .cmd (cmdWord 0x05#8 (BitVec.ofNat 8 idx.val)) 0#64
  | .rdsr sel => .cmd (cmdWord 0x06#8 (sel.setWidth 8)) 0#64
  | .errclr => .cmd (cmdWord 0x07#8 0#8) 0#64
  | .uSetup => .uop 1#3 false false
  | .uHead => .uop 2#3 false false
  | .uExit => .uop 3#3 true false
  | .uMflush => .uop 3#3 false true
  | .uChunk => .uop 3#3 false false
  | .uResid => .uop 4#3 false false
  | .uFinal => .uop 5#3 false false

/-! ### The match/mask table of R93 and R96 -/

/-- One row of R93: the word `c` selects the row when `c and mask = pattern`. -/
structure Row where
  mnemonic : String
  pattern : BitVec 32
  mask : BitVec 32
deriving DecidableEq, Repr

/-- The eight CMD rows of R93. -/
def cmdTable : List Row :=
  [ ⟨"NOP", 0x00000000#32, 0xFFFFFFFF#32⟩,
    ⟨"SETADDR", 0x00000001#32, 0xFFFFFFFF#32⟩,
    ⟨"SETLEN", 0x00000002#32, 0xFFFFFFFF#32⟩,
    ⟨"RUN", 0x00000003#32, 0xFFFFFCFF#32⟩,
    ⟨"ACCWR", 0x00000004#32, 0xFFFFC0FF#32⟩,
    ⟨"ACCRD", 0x00000005#32, 0xFFFFC0FF#32⟩,
    ⟨"RDSR", 0x00000006#32, 0xFFFFF0FF#32⟩,
    ⟨"ERRCLR", 0x00000007#32, 0xFFFFFFFF#32⟩ ]

/-- R93: does the word select the row? -/
def Row.selects (r : Row) (c : BitVec 32) : Bool := c &&& r.mask == r.pattern

/-- The `match` of the seven UOP rows: the code of `PH` under the mask 0x7 (R96). -/
def uopTable : List (String × BitVec 3) :=
  [ ("u.SETUP", 1#3), ("u.HEAD", 2#3), ("u.EXIT", 3#3), ("u.MFLUSH", 3#3), ("u.CHUNK", 3#3), ("u.RESID", 4#3),
    ("u.FINAL", 5#3) ]

/-! ### Pseudo-instructions (R98) -/

/-- `ACCZ.w`: `ACCWR 0, 0` to `ACCWR w-1, 0`. -/
def acczExpansion (wsel : BitVec 2) : List Instr :=
  (List.finRange 64).filterMap (fun b => if b.val < Config.width wsel then some (.accwr b 0#64) else none)

/-- `COUNT.w addr, len`: SETADDR, SETLEN, RUN. -/
def countExpansion (wsel : BitVec 2) (addr len : Word) : List Instr :=
  [.setaddr addr, .setlen len, .run wsel]

/-! ### The opcode table's numbering -/

/-- The UOP byte of the table interface: bits 2:0 are `PH`; bit 3 set says `REM >= 128` and bit 4 `EP = 15`, the two
tests of R96, to which the table gives no bits. So the bare byte 3 is `u.EXIT`, as it is in a state whose `REM` is the
reset value 0 (log 13). -/
def uopOfByte (w : Nat) : Code := .uop (BitVec.ofNat 3 w) (!w.testBit 3) (w.testBit 4)

/-- A table word of 32 bits or more: the command word, then the operand (R91). -/
def cmdOfTableWord (w : Nat) : Code := .cmd (BitVec.ofNat 32 w) (BitVec.ofNat 64 (w >>> 32))

/-- A word as spec/opcode_table.json numbers it: fewer than 32 bits is a UOP row, 32 or more a CMD row. -/
def codeOfTableWord (nbits w : Nat) : Code := if nbits < 32 then uopOfByte w else cmdOfTableWord w

/-- The instruction the decoder reads from a table word. -/
def decodeTableWord (nbits w : Nat) : Option Instr := (decode (codeOfTableWord nbits w)).toOption

end Sys2Proof
end

