-- ==== Sys2Proof/Machine/Fetch.lean ====
section
/-! DEFINITION. What the next step is: whose turn it is, and which instruction it runs (spec/00_scope.md R7,
spec/30_encoding.md R96, spec/43_host_commands.md R220, spec/70_reset_and_hazards.md R320). -/

namespace Sys2Proof.Machine

/-- The step to take: run an instruction in a state, or a state already reached without one. -/
inductive Turn where
  | execute (i : Instr) (s : State)
  | settled (s : State)
deriving DecidableEq, Repr

/-- The sequencer's selection (R96): by `PH`, and for CHUNK by `REM < 128`, then by `EP = 15`. -/
def State.selectUop (s : State) : Except Reject Instr :=
  decodeUop s.ph.code (decide (s.rem.toNat < 128)) (s.ep == 15#4)

/-- A turn of the sequencer (R180): its one enabled step, or none in IDLE, where the block holds its state (R295), and
none while `rst` is high, which holds it (R320). -/
def State.sequencerTurn (s : State) : Turn :=
  if s.rst then .settled s
  else
    match s.selectUop with
    | .ok i => .execute i s
    | .error _ => .settled s

/-- A command accepted at the port (R220): decoded before any effect (R281); an illegal word raises ILLCMD (R94). -/
def State.portTurn (s : State) (c : BitVec 32) (opnd : Word) : Turn :=
  match decodeCmd c opnd with
  | .ok i => .execute i s
  | .error _ => .settled (illegalCommand s)

/-- Whose turn it is (R7, R220). A command is accepted when `cmd_ready = 1` and `rst` is low (log 4); while it waits, and
while the outside does nothing, the sequencer goes on. What the outside does to memory and `rst` is a step of its own
(R7, R320). -/
def State.turn (s : State) : Turn :=
  match s.inputs with
  | [] => s.sequencerTurn
  | .wait :: rest => State.sequencerTurn { s with inputs := rest }
  | .command c opnd :: rest =>
    if s.cmdReady && !s.rst then State.portTurn { s with inputs := rest } c opnd else s.sequencerTurn
  | .store a v :: rest => .settled { s with mem := Memory.write s.mem a.toNat v, inputs := rest }
  | .withdraw a :: rest => .settled { s with mem := Memory.withdraw s.mem a.toNat, inputs := rest }
  | .stall on :: rest => .settled { s with memStalled := on, inputs := rest }
  | .rst on :: rest => .settled (State.driveRst { s with inputs := rest } on)

/-- A command presented at the port before anything else the outside does, and the port ready for it (R220, R320). -/
def State.presenting (s : State) (c : BitVec 32) (opnd : Word) : State :=
  { s with ph := .idle, rst := false, inputs := .command c opnd :: s.inputs }

/-- A state in which the sequencer's next step is the one selected by the phase code `ph` and, for CHUNK, by the two
tests; `REM` and `EP` change only where they would answer a test otherwise (R96; log 13). -/
def State.selecting (s : State) (ph : BitVec 3) (remLow epFull : Bool) : State :=
  let chunk := ph == 3#3
  { s with
    ph := (Phase.ofCode ph).getD s.ph
    rst := false
    rem :=
      if chunk && remLow && decide (128 ≤ s.rem.toNat) then 0#64
      else if chunk && !remLow && decide (s.rem.toNat < 128) then 128#64
      else s.rem
    ep :=
      if chunk && !remLow && epFull then 15#4
      else if chunk && !remLow && s.ep == 15#4 then 0#4
      else s.ep
    inputs := .wait :: s.inputs }

/-- The state in which the next step runs the instruction of a code. -/
def State.withCode (s : State) : Code → State
  | .cmd c opnd => s.presenting c opnd
  | .uop ph remLow epFull => s.selecting ph remLow epFull

end Sys2Proof.Machine
end

