-- ==== Sys2Proof/Machine/Step.lean ====
section
/-! DEFINITION. One step of the machine, and the placing of a table word where the next step takes its instruction. -/

namespace Sys2Proof.Machine

/-- One step (R7): the instruction whose turn it is runs, or the outside or nothing has acted. -/
def step (s : State) : Host.Outcome State Fault Refusal :=
  match s.turn with
  | .execute i s' => exec i s'
  | .settled s' => .next s'

/-- `s` with the instruction of a table word where the next step takes its instruction: a command word at the command
port, a micro-operation's phase code in `PH`. -/
def State.withFetchWord (s : State) (nbits w : Nat) : State := s.withCode (codeOfTableWord nbits w)

end Sys2Proof.Machine
end

