-- ==== Sys2Proof/Safety.lean ====
section
/-! DEFINITION. The terms claims are made in: what a read is answered with, the lane sums of a block, the reference
function of spec/45_reference_and_properties.md, the invariant of every step (spec/10_state.md R40), and reachability. -/

namespace Sys2Proof.Machine

/-! ### Reads and lane sums -/

/-- The platform's `readable(addr, be)` (R66): every byte the read asks for is readable. -/
abbrev Readable (m : List Host.Cell) (r : Request) : Prop :=
  ∀ k, k < 8 → r.2.getLsbD k = true → (Memory.read m (r.1.toNat + k)).isSome = true

/-- Bit `i` of the little-endian word at `a` (R63): bit `i mod 8` of the byte at `a + i div 8`, as 0 or 1. -/
def memBit (m : List Host.Cell) (a i : Nat) : Nat :=
  (((Memory.read m (a + i / 8)).getD 0#8).getLsbD (i % 8)).toNat

/-- The address of word `j` of the block at `PTR` (R182, R185). -/
def State.wordAddr (s : State) (j : Nat) : Word := s.ptr + BitVec.ofNat 64 (8 * j)

/-- Bit `i` of word `j` of the head block after masking: the low `m` bytes of the first word are zero (R67). -/
def State.headBit (s : State) (j i : Nat) : Nat :=
  if j = 0 ∧ i < 8 * s.misalign then 0 else memBit s.mem (s.wordAddr j).toNat i

/-- How many of the 15 masked head words have bit `i` set (R122). -/
def State.headSum (s : State) (i : Nat) : Nat := ∑ j ∈ Finset.range 15, s.headBit j i

/-- How many of the 16 words of the chunk at `PTR` have bit `i` set (R125). -/
def State.chunkSum (s : State) (i : Nat) : Nat := ∑ j ∈ Finset.range 16, memBit s.mem (s.wordAddr j).toNat i

/-- The sum of `f` over the lanes folded into accumulator `b` at width `w`: those congruent to `b` modulo `w` (R158). -/
def foldedSum (w b : Nat) (f : Fin 64 → Nat) : Nat := ∑ i : Fin 64 with i.val % w = b, f i

/-- What accumulator `b` would hold if everything not yet folded into it were: `ACC[b]` and, over its lanes,
`CB[i] + plval(i)`, modulo 2^64 (R162, R163). -/
def State.tally (s : State) (b : Fin 64) : Word :=
  s.acc[b.val] + BitVec.ofNat 64
    (foldedSum (Config.width s.wsel) b.val fun i => s.cb[i.val].toNat + s.pl.value i.val)

/-! ### The reference function (R250) -/

/-- Bit `k` of a byte string taken as one little-endian bit string (R258). -/
def bitOf (B : List Byte) (k : Nat) : Nat := ((B.getD (k / 8) 0#8).getLsbD (k % 8)).toNat

/-- `ppc_W(B)[b]` (R250): the number of the `W`-bit little-endian elements of `B` whose bit `b` is 1. -/
def ppc (w : Nat) (B : List Byte) (b : Nat) : Nat := ∑ e ∈ Finset.range (8 * B.length / w), bitOf B (e * w + b)

/-- The input buffer's contents (R61): the bytes at `ADDR .. ADDR + LEN - 1`. -/
def State.buffer (s : State) : List Byte :=
  (List.range s.len.toNat).map fun k => (Memory.read s.mem (s.addr.toNat + k)).getD 0#8

/-- The bytes of the buffer are all readable (R253's premise). -/
abbrev State.bufferReadable (s : State) : Prop :=
  ∀ k, k < s.len.toNat → (Memory.read s.mem (s.addr.toNat + k)).isSome = true

/-! ### The arithmetic of a completed RUN (R68, R188, R189) -/

/-- `k`, the number of chunks a RUN with `L' >= 120` consumes (R68). -/
def chunksOf (adjusted : Nat) : Nat := (adjusted / 8 - 15) / 16

/-- `P`, the number of words a RUN reads (R68): none without work. -/
def wordsOf (adjusted : Nat) : Nat := if adjusted < 120 then 0 else 15 + 16 * chunksOf adjusted

/-- The number of sequencer steps of a completed RUN (R189). -/
def stepsOf (adjusted : Nat) : Nat :=
  if adjusted < 120 then 1 else 5 + chunksOf adjusted + (chunksOf adjusted - 1) / 15

/-- `REM` of a completed RUN (R188): `LEN` without work, else `L' - 8 P`. -/
def State.remainderOf (s : State) : Nat :=
  if s.adjustedLen < 120 then s.len.toNat else s.adjustedLen - 8 * wordsOf s.adjustedLen

/-- The reads of a completed RUN, in order (R68): `P` words from `A' = ADDR - m`, the first with `be0`. -/
def State.runReads (s : State) : List Request :=
  (List.range (wordsOf s.adjustedLen)).map fun j =>
    (BitVec.ofNat 64 (s.addr.toNat - s.misalign + 8 * j), if j = 0 then headEnables s.misalign else 0xFF#8)

/-- What RUN checks (R223 lines 2, 4, 5), in a block that is ready for a command (R220) and out of reset (R253). -/
structure State.Launchable (s : State) (wsel : BitVec 2) : Prop where
  ready : s.ph = .idle
  released : s.rst = false
  noFault : s.err = .noFault
  addrAligned : s.addr.toNat % Config.elemSize wsel = 0
  lenAligned : s.len.toNat % Config.elemSize wsel = 0
  inRange : s.addr.toNat + s.len.toNat < 2 ^ 64

/-- The outside does nothing but, perhaps, present a command, which waits while `PH` is not IDLE (R220). -/
abbrev State.undisturbed (s : State) : Prop := s.inputs = [] ∨ ∃ c opnd rest, s.inputs = .command c opnd :: rest

/-- Acts of the outside during a RUN that leave the bytes `a .. a + n - 1` alone and end no RUN (R71 item 2, R320, R330). -/
def Input.spares (a n : Nat) : Input → Bool
  | .wait | .stall _ => true
  | .rst on => !on
  | .store x _ | .withdraw x => decide (x.toNat < a ∨ a + n ≤ x.toNat)
  | .command _ _ => false

/-- Does the memory answer no reads after these acts (U18; log 6), if `stalled` says whether it did so before? -/
def stalledAfter (stalled : Bool) : List Input → Bool
  | [] => stalled
  | .stall on :: rest => stalledAfter on rest
  | _ :: rest => stalledAfter stalled rest

/-! ### Illegal command words (R94) -/

/-- R94, by the fields of R91 taken as numbers: `opc` 0x08 to 0xFF, `rsv` not zero, a must-be-zero bit of `arg` set
(R92), or RDSR with `sel` 7 to 15. -/
def IllegalWord (c : BitVec 32) : Prop :=
  let opc := c.toNat % 256
  let arg := c.toNat / 256 % 256
  let rsv := c.toNat / 65536
  8 ≤ opc ∨ rsv ≠ 0 ∨ ((opc ≤ 2 ∨ opc = 7) ∧ arg ≠ 0) ∨ (opc = 3 ∧ 4 ≤ arg) ∨
    ((opc = 4 ∨ opc = 5) ∧ 64 ≤ arg) ∨ (opc = 6 ∧ (16 ≤ arg ∨ 7 ≤ arg % 16))

/-- The whole effect of an ILLCMD fault (R94, R281): `ERR <- 1` if `ERR` was 0, and `rsp = 0`. -/
def State.afterIllcmd (s : State) : State :=
  { s with err := if s.err = .noFault then .illcmd else s.err, rsps := s.rsps ++ [0#64] }

/-- The whole effect of a BUS fault whose reads were `issued`, the last of them failing at `a` (R283; R28 and R34: the
record is written only if `ERR` was 0). -/
def State.afterBus (s : State) (a : Word) (issued : List Request) : State :=
  { s with
    err := if s.err = .noFault then .bus else s.err
    faddr := if s.err = .noFault then a else s.faddr
    done := false
    ph := .idle
    reads := s.reads ++ issued }

/-- The word, presented at the ready port out of reset, is accepted and raises ILLCMD (R281). -/
def RaisesIllcmd (c : BitVec 32) : Prop :=
  ∀ (s : State) (opnd : Word) (rest : List Input), s.ph = .idle → s.rst = false →
    s.inputs = .command c opnd :: rest → step s = .next (State.afterIllcmd { s with inputs := rest })

/-! ### The invariant of every step -/

/-- Every counter of the bank is zero. -/
abbrev State.bankClear (s : State) : Prop := s.cb = Vector.replicate 64 0#8 ∧ s.ep = 0#4

/-- R320's table, which holds while `rst` is asserted and at its release: every register but `ACC`, whose value is
unspecified, and the two pins the table names. -/
abbrev State.AtReset (s : State) : Prop :=
  s.addr = 0#64 ∧ s.len = 0#64 ∧ s.pl = Planes.zero ∧ (∀ i : Fin 64, s.cb[i.val] = 0#8) ∧ s.ep = 0#4 ∧
  s.ptr = 0#64 ∧ s.rem = 0#64 ∧ s.wsel = 0#2 ∧ s.ph = .idle ∧ s.cmdReady = true ∧ s.busyPin = false ∧
  s.done = false ∧ s.sat = false ∧ s.err = .noFault ∧ s.faddr = 0#64

/-- What every step keeps: the five lines of R40, R320's table while `rst` is high, R33's exactness of the remainder, the
canonical form of the memory, and what these need of the other phases. -/
structure State.Inv (s : State) : Prop where
  /-- The memory is in canonical form. -/
  memory : Memory.wf s.mem
  /-- R320: while `rst` is asserted the state is its table. -/
  held : s.rst = true → s.AtReset
  /-- R40 line 5. -/
  noSat : s.sat = false
  /-- R283: `ERR` is 0 and `DONE` is 0 during a RUN; R223: the checks of RUN hold during it. -/
  running : s.ph ≠ .idle →
    s.err = .noFault ∧ s.done = false ∧ s.alignedFor s.wsel = true ∧ s.inRange = true
  /-- R40 line 4. -/
  rested : s.ph = .idle → s.done = true → s.pl = Planes.zero ∧ s.bankClear
  /-- R33: the division of the remainder is exact. -/
  remainder : s.done = true → s.rem.toNat % Config.elemSize s.wsel = 0
  /-- R181, R182: the planes and the bank are zero before the head, and it has its 15 words. -/
  fresh : s.ph = .head →
    s.pl = Planes.zero ∧ s.bankClear ∧ 120 ≤ s.rem.toNat ∧ s.ptr.toNat = s.addr.toNat - s.misalign
  /-- R40 line 3. -/
  pointer : s.ph = .head ∨ s.ph = .chunk ∨ s.ph = .resid ∨ s.ph = .final →
    s.ptr.toNat % 8 = 0 ∧ s.ptr.toNat + s.rem.toNat = s.addr.toNat + s.len.toNat
  /-- R183, R188: fewer than 16 words remain after the loop. -/
  ending : s.ph = .resid ∨ s.ph = .final → s.rem.toNat < 128
  /-- R40 line 2, R160. -/
  headroom : s.ph = .chunk → ∀ i : Fin 64, s.cb[i.val].toNat % 16 = 0 ∧ s.cb[i.val].toNat ≤ 16 * s.ep.toNat
  /-- R161: the residual fold fits. -/
  residual : s.ph = .resid → ∀ i : Fin 64, s.cb[i.val].toNat ≤ 240
  /-- R186: the planes are cleared when they have been folded. -/
  folded : s.ph = .final → s.pl = Planes.zero

/-- R40's "reachable from reset": some number of steps from the reset state, whatever the outside does. -/
def Reachable (s : State) : Prop :=
  ∃ (ins : List Input) (n : Nat), Host.Core.run Sys2Proof.core n { State.reset with inputs := ins } = .next s

end Sys2Proof.Machine
end

