-- ==== Sys2Proof/Certificates/Slice0/Obligations.lean ====
section
/-! DEFINITION. The statements for the provers. `exec i s = .next t` with `t` given as `s` with named fields replaced
is at once the result, the completion and the frame: every other field, and with `mem` every byte of memory, is as
before. -/

open Sys2Proof Sys2Proof.Machine

/-! ### Encoding -/

/-- Words written out from the tables of R93, R96 and R97 decode to the instructions they stand for. -/
def Obligations.SpecWordsDecode : Prop :=
  decodeCmd 0x00000000#32 0x1234#64 = .ok .nop ∧
  decodeCmd 0x00000001#32 0x1002#64 = .ok (.setaddr 0x1002#64) ∧
  decodeCmd 0x00000002#32 0xF8#64 = .ok (.setlen 0xF8#64) ∧
  decodeCmd 0x00000003#32 0#64 = .ok (.run 0#2) ∧
  decodeCmd 0x00000303#32 0#64 = .ok (.run 3#2) ∧
  decodeCmd 0x00003F04#32 5#64 = .ok (.accwr 63 5#64) ∧
  decodeCmd 0x00000305#32 0#64 = .ok (.accrd 3) ∧
  decodeCmd 0x00000606#32 0#64 = .ok (.rdsr 6#4) ∧
  decodeCmd 0x00000007#32 0#64 = .ok .errclr ∧
  decodeCmd 0x00000403#32 0#64 = .error .argument ∧
  decodeCmd 0x00000706#32 0#64 = .error .selector ∧
  decodeCmd 0x00000008#32 0#64 = .error .opcode ∧
  decodeCmd 0x80000003#32 0#64 = .error .reserved ∧
  decodeUop 1#3 true false = .ok .uSetup ∧
  decodeUop 2#3 true false = .ok .uHead ∧
  decodeUop 3#3 true true = .ok .uExit ∧
  decodeUop 3#3 false true = .ok .uMflush ∧
  decodeUop 3#3 false false = .ok .uChunk ∧
  decodeUop 4#3 true false = .ok .uResid ∧
  decodeUop 5#3 true false = .ok .uFinal

/-- Decoding the encoding of any well-formed instruction, at every value of its operands, gives it back. -/
def Obligations.DecodeOfEncode : Prop :=
  ∀ i : Instr, i.wf = true → decode (encode i) = .ok i

/-- The other direction: a word that decodes is the word the encoder gives the instruction it decodes to, and that
instruction is a well-formed host command. The operand is given back too, and is 0 where the command ignores it (R91). So
no two words stand for one command. -/
def Obligations.EncodeOfDecode : Prop :=
  ∀ (c : BitVec 32) (opnd : Word) (i : Instr), decodeCmd c opnd = .ok i →
    i.wf = true ∧ i.isCommand = true ∧
      encode i = .cmd c (if i.usesOperand then opnd else 0#64)

/-- R93: the match/mask of each row selects exactly that command with its fields, and a word no row selects is
illegal. -/
def Obligations.MatchMaskTable : Prop :=
  ∀ (c : BitVec 32) (opnd : Word),
    (c &&& 0xFFFFFFFF#32 = 0x00000000#32 → decodeCmd c opnd = .ok .nop) ∧
    (c &&& 0xFFFFFFFF#32 = 0x00000001#32 → decodeCmd c opnd = .ok (.setaddr opnd)) ∧
    (c &&& 0xFFFFFFFF#32 = 0x00000002#32 → decodeCmd c opnd = .ok (.setlen opnd)) ∧
    (c &&& 0xFFFFFCFF#32 = 0x00000003#32 → decodeCmd c opnd = .ok (.run (c.extractLsb' 8 2))) ∧
    (c &&& 0xFFFFC0FF#32 = 0x00000004#32 → decodeCmd c opnd = .ok (.accwr (accIndex (c.extractLsb' 8 6)) opnd)) ∧
    (c &&& 0xFFFFC0FF#32 = 0x00000005#32 → decodeCmd c opnd = .ok (.accrd (accIndex (c.extractLsb' 8 6)))) ∧
    (c &&& 0xFFFFF0FF#32 = 0x00000006#32 → (c.extractLsb' 8 4).toNat ≤ 6 →
      decodeCmd c opnd = .ok (.rdsr (c.extractLsb' 8 4))) ∧
    (c &&& 0xFFFFF0FF#32 = 0x00000006#32 → 7 ≤ (c.extractLsb' 8 4).toNat → decodeCmd c opnd = .error .selector) ∧
    (c &&& 0xFFFFFFFF#32 = 0x00000007#32 → decodeCmd c opnd = .ok .errclr) ∧
    ((∀ r ∈ cmdTable, r.selects c = false) → ∃ e, decodeCmd c opnd = .error e)

/-- R94, R281: a word is rejected by the decoder exactly when one of R94's grounds holds, and such a word, accepted,
has the fault record and the response 0 as its whole effect. -/
def Obligations.IllegalWordsRaiseIllcmd : Prop :=
  (∀ (c : BitVec 32) (opnd : Word), IllegalWord c ↔ ∃ e, decodeCmd c opnd = .error e) ∧
  ∀ c : BitVec 32, IllegalWord c → RaisesIllcmd c

/-- R96: the sequencer's selection by `PH` and, for CHUNK, by `REM < 128` and then `EP = 15`; none in IDLE. -/
def Obligations.SequencerSelection : Prop :=
  ∀ s : State,
    (s.ph = .setup → s.selectUop = .ok .uSetup) ∧
    (s.ph = .head → s.selectUop = .ok .uHead) ∧
    (s.ph = .chunk → s.rem.toNat < 128 → s.selectUop = .ok .uExit) ∧
    (s.ph = .chunk → 128 ≤ s.rem.toNat → s.ep = 15#4 → s.selectUop = .ok .uMflush) ∧
    (s.ph = .chunk → 128 ≤ s.rem.toNat → s.ep ≠ 15#4 → s.selectUop = .ok .uChunk) ∧
    (s.ph = .resid → s.selectUop = .ok .uResid) ∧
    (s.ph = .final → s.selectUop = .ok .uFinal) ∧
    (s.ph = .idle → s.selectUop = .error .idle)

/-- A table word placed where the next step takes its instruction is what the next step runs. The byte form of a
micro-operation is the model's own (log 13). -/
def Obligations.PlacedWordRuns : Prop :=
  ∀ (s : State) (nbits w : Nat) (i : Instr), decodeTableWord nbits w = some i →
    step (s.withFetchWord nbits w) = exec i { s.withFetchWord nbits w with inputs := s.inputs }

/-! ### The step -/

/-- A step runs the decoded instruction while `rst` is low: an accepted command on the state without it, and, whenever the
sequencer selects a micro-operation and the outside leaves it the turn, that micro-operation. The list of the outside's
acts is the model's own (log 3). What a step is while `rst` is high says ResetValues. -/
def Obligations.StepRunsTheDecodedInstruction : Prop :=
  ∀ s : State, s.rst = false →
    (∀ c opnd rest i, s.ph = .idle → s.inputs = .command c opnd :: rest → decodeCmd c opnd = .ok i →
      step s = exec i { s with inputs := rest }) ∧
    (∀ i, s.selectUop = .ok i →
      (s.inputs = [] → step s = exec i s) ∧
      (∀ c opnd rest, s.inputs = .command c opnd :: rest → step s = exec i s) ∧
      (∀ rest, s.inputs = .wait :: rest → step s = exec i { s with inputs := rest }))

/-- The model's choice, not a rule's words: every state has a next state, and no step ends in a fault or a refusal. That
the spec's faults are next states is log 7. Where R180 gives the sequencer no step (IDLE), where U18 gives it none until
the memory answers and where R320 holds the state (`rst`), the model's step is the unchanged state, or what the outside
does next (logs 3, 4 and 6). -/
def Obligations.EveryStepGoesOn : Prop :=
  ∀ s : State, ∃ t : State, step s = .next t

/-- R220, R334: a command presented while the block is busy, out of reset, waits: the step is the sequencer's, the command
is still the next one afterwards, and it has had no response and no fault. -/
def Obligations.CommandWaitsWhileBusy : Prop :=
  ∀ (s : State) (c : BitVec 32) (opnd : Word) (rest : List Input), s.ph ≠ .idle → s.rst = false →
    s.inputs = .command c opnd :: rest →
      ∃ i t, s.selectUop = .ok i ∧ step s = .next t ∧ exec i s = .next t ∧ t.inputs = s.inputs ∧ t.rsps = s.rsps ∧
        (t.err ≠ s.err → t.err = .bus)

/-- R295, R320: in IDLE, with nothing presented, the block holds its state. -/
def Obligations.IdleHoldsItsState : Prop :=
  ∀ s : State, s.ph = .idle → s.inputs = [] → step s = .next s

/-- R320, the level `rst`. Driven high from low, at any time and also during a RUN, it takes every register with a stated
reset value to it, with no further read. While it is high, whatever the outside does, and at its release, no register
changes, also no accumulator, nothing is read or answered and no command is accepted, so R320's table goes on to hold; it
goes low only when the outside drives it low. The power-on state is R320's, released. Of `ACC` at the assertion nothing is
said: its value is unspecified. The model's choice, no rule's words (log 4): what stays of the outside at an assertion
(memory, inputs, what the ports have shown), that the accumulators taken at it stay through the release, that a command
presented while `rst` is high waits, and that `rst` is low in the power-on state. -/
def Obligations.ResetValues : Prop :=
  State.reset.AtReset ∧ State.reset.rst = false ∧
  (∀ (s : State) (rest : List Input), s.rst = false → s.inputs = .rst true :: rest →
    ∃ t, step s = .next t ∧ t.AtReset ∧ t.rst = true ∧ t.reads = s.reads ∧ t.mem = s.mem ∧ t.inputs = rest) ∧
  ∀ s : State, s.rst = true →
    ∃ t, step s = .next t ∧
      t = { s with rst := t.rst, mem := t.mem, memStalled := t.memStalled, inputs := t.inputs } ∧
      (s.AtReset → t.AtReset) ∧
      (t.rst = false ↔ ∃ rest, s.inputs = .rst false :: rest) ∧
      (∀ rest, s.inputs = .rst false :: rest → t = { s with rst := false, inputs := rest }) ∧
      ∀ c opnd rest, s.inputs = .command c opnd :: rest → t = s

/-- R66, R71 item 2: what the outside does to memory is what later reads find, byte by byte, and it changes no register of
the block and issues no read. The form in which the outside acts is the model's own (logs 3 and 5). -/
def Obligations.OutsideChangesMemoryOnly : Prop :=
  ∀ (s : State) (a : Word) (rest : List Input), Memory.wf s.mem →
    (∀ v, s.inputs = .store a v :: rest →
      ∃ t, step s = .next t ∧ t = { s with mem := t.mem, inputs := rest } ∧ Memory.wf t.mem ∧
        Memory.read t.mem a.toNat = some v ∧ ∀ x, x ≠ a.toNat → Memory.read t.mem x = Memory.read s.mem x) ∧
    (s.inputs = .withdraw a :: rest →
      ∃ t, step s = .next t ∧ t = { s with mem := t.mem, inputs := rest } ∧ Memory.wf t.mem ∧
        Memory.read t.mem a.toNat = none ∧ ∀ x, x ≠ a.toNat → Memory.read t.mem x = Memory.read s.mem x)

/-! ### Host commands -/

/-- R221: NOP answers 0 and changes nothing, its operand is ignored, and a set bit of `arg` or `rsv` raises ILLCMD. -/
def Obligations.NopChangesNothing : Prop :=
  (∀ s : State, exec .nop s = .next { s with rsps := s.rsps ++ [0#64] }) ∧
  (∀ opnd, decodeCmd 0x00000000#32 opnd = .ok .nop) ∧
  ∀ c : BitVec 32, c.toNat % 256 = 0 → c ≠ 0#32 → RaisesIllcmd c

/-- R222: SETADDR and SETLEN write their register, at every operand, and answer 0; nothing else changes. -/
def Obligations.SetaddrSetlenWriteTheirRegister : Prop :=
  (∀ (s : State) (opnd : Word),
    exec (.setaddr opnd) s = .next { s with addr := opnd, rsps := s.rsps ++ [0#64] } ∧
    exec (.setlen opnd) s = .next { s with len := opnd, rsps := s.rsps ++ [0#64] }) ∧
  (∀ opnd, decodeCmd 0x00000001#32 opnd = .ok (.setaddr opnd) ∧ decodeCmd 0x00000002#32 opnd = .ok (.setlen opnd)) ∧
  ∀ c : BitVec 32, c.toNat % 256 = 1 ∨ c.toNat % 256 = 2 → c.toNat / 256 ≠ 0 → RaisesIllcmd c

/-- R223, R220: a RUN whose checks hold starts: it answers 0, clears `DONE`, writes `WSEL` and enters SETUP; nothing else
changes. -/
def Obligations.RunStarts : Prop :=
  ∀ (s : State) (wsel : BitVec 2), s.Launchable wsel →
    exec (.run wsel) s = .next { s with done := false, wsel := wsel, ph := .setup, rsps := s.rsps ++ [0#64] }

/-- R223, R282, R286: the lines of RUN in their order. It always clears `DONE` and answers 0; a recorded fault ends it;
else a misaligned `ADDR` or `LEN` raises ALIGN; else a sum of 2^64 or more raises RANGE; else it starts. -/
def Obligations.RunChecksInOrder : Prop :=
  ∀ (s : State) (wsel : BitVec 2),
    let es := 2 ^ wsel.toNat
    let s1 : State := { s with done := false, rsps := s.rsps ++ [0#64] }
    let aligned := s.addr.toNat % es = 0 ∧ s.len.toNat % es = 0
    let fits := s.addr.toNat + s.len.toNat < 2 ^ 64
    (∀ opnd, decodeCmd (0x00000003#32 ||| (wsel.setWidth 32 <<< 8)) opnd = .ok (.run wsel)) ∧
    (s.err ≠ .noFault → exec (.run wsel) s = .next s1) ∧
    (s.err = .noFault → ¬aligned → exec (.run wsel) s = .next { s1 with err := .align }) ∧
    (s.err = .noFault → aligned → ¬fits → exec (.run wsel) s = .next { s1 with err := .range }) ∧
    (s.err = .noFault → aligned → fits → exec (.run wsel) s = .next { s1 with wsel := wsel, ph := .setup }) ∧
    ∀ c : BitVec 32, c.toNat % 256 = 3 → 4 ≤ c.toNat / 256 → RaisesIllcmd c

/-- R224: ACCWR writes the selected accumulator and no other, and answers 0. -/
def Obligations.AccwrWritesOneAccumulator : Prop :=
  (∀ (s : State) (idx : Fin 64) (opnd : Word),
    ∃ t, exec (.accwr idx opnd) s = .next t ∧ t.acc[idx.val] = opnd ∧
      (∀ j : Fin 64, j ≠ idx → t.acc[j.val] = s.acc[j.val]) ∧
      t = { s with acc := t.acc, rsps := s.rsps ++ [0#64] }) ∧
  (∀ (idx : Fin 64) opnd, decodeCmd (0x00000004#32 ||| BitVec.ofNat 32 (256 * idx.val)) opnd = .ok (.accwr idx opnd)) ∧
  ∀ c : BitVec 32, c.toNat % 256 = 4 → 64 ≤ c.toNat / 256 → RaisesIllcmd c

/-- R225: ACCRD answers the selected accumulator and changes no state. -/
def Obligations.AccrdReadsOneAccumulator : Prop :=
  (∀ (s : State) (idx : Fin 64), exec (.accrd idx) s = .next { s with rsps := s.rsps ++ [s.acc[idx.val]] }) ∧
  (∀ (idx : Fin 64) opnd, decodeCmd (0x00000005#32 ||| BitVec.ofNat 32 (256 * idx.val)) opnd = .ok (.accrd idx)) ∧
  ∀ c : BitVec 32, c.toNat % 256 = 5 → 64 ≤ c.toNat / 256 → RaisesIllcmd c

/-- R226: RDSR answers the selected register and changes no state; a reserved selector, set `arg[7:4]` or `rsv` raises
ILLCMD. That `exec` of the ill-formed term does so is the model's own (log 15). -/
def Obligations.RdsrReadsTheSelectedRegister : Prop :=
  (∀ s : State,
    exec (.rdsr 0#4) s = .next { s with rsps := s.rsps ++ [s.status] } ∧
    exec (.rdsr 1#4) s = .next { s with rsps := s.rsps ++ [s.rem] } ∧
    exec (.rdsr 2#4) s = .next { s with rsps := s.rsps ++ [BitVec.ofNat 64 (s.rem.toNat / 2 ^ s.wsel.toNat)] } ∧
    exec (.rdsr 3#4) s = .next { s with rsps := s.rsps ++ [s.addr] } ∧
    exec (.rdsr 4#4) s = .next { s with rsps := s.rsps ++ [s.len] } ∧
    exec (.rdsr 5#4) s = .next { s with rsps := s.rsps ++ [s.faddr] } ∧
    exec (.rdsr 6#4) s = .next { s with rsps := s.rsps ++ [s.ptr] } ∧
    ∀ sel : BitVec 4, 7 ≤ sel.toNat → exec (.rdsr sel) s = .next s.afterIllcmd) ∧
  (∀ (sel : BitVec 4) opnd, sel.toNat ≤ 6 →
    decodeCmd (0x00000006#32 ||| (sel.setWidth 32 <<< 8)) opnd = .ok (.rdsr sel)) ∧
  ∀ c : BitVec 32, c.toNat % 256 = 6 → 7 ≤ c.toNat / 256 → RaisesIllcmd c

/-- R31: the layout of STATUS, bit by bit, over every state. -/
def Obligations.StatusLayout : Prop :=
  ∀ s : State,
    s.status.getLsbD 0 = s.done ∧ s.status.getLsbD 1 = s.sat ∧ s.status.extractLsb' 2 2 = 0#2 ∧
    s.status.extractLsb' 4 4 = s.err.code ∧ s.status.extractLsb' 8 2 = s.wsel ∧ s.status.extractLsb' 10 54 = 0#54

/-- R29: the four output pins, each from the register it is derived from, over every state. -/
def Obligations.PinsFollowTheState : Prop :=
  ∀ s : State,
    (s.busyPin = true ↔ s.ph ≠ .idle) ∧ (s.donePin = true ↔ s.done = true) ∧
    (s.faultPin = true ↔ s.err ≠ .noFault ∨ s.sat = true) ∧ (s.cmdReady = true ↔ s.ph = .idle)

/-- R227: ERRCLR clears `ERR`, `SAT` and `FADDR`, answers 0 and changes nothing else; a set bit of `arg` or `rsv` raises
ILLCMD instead. -/
def Obligations.ErrclrClearsTheRecord : Prop :=
  (∀ s : State,
    exec .errclr s = .next { s with err := .noFault, sat := false, faddr := 0#64, rsps := s.rsps ++ [0#64] }) ∧
  (∀ opnd, decodeCmd 0x00000007#32 opnd = .ok .errclr) ∧
  ∀ c : BitVec 32, c.toNat % 256 = 7 → c.toNat / 256 ≠ 0 → RaisesIllcmd c

/-- R98: the pseudo-instruction `ACCZ.w`, presented at a ready port out of reset, is `w` steps that zero `ACC[0..w-1]`
and change no other accumulator and no other register. -/
def Obligations.AcczZeroesTheAccumulators : Prop :=
  ∀ (s : State) (wsel : BitVec 2) (rest : List Input), s.ph = .idle → s.rst = false →
    s.inputs = ((acczExpansion wsel).map fun i =>
      match encode i with
      | .cmd c opnd => .command c opnd
      | .uop _ _ _ => .wait) ++ rest →
    ∃ t, Host.Core.run Sys2Proof.core (Config.width wsel) s = .next t ∧
      (∀ j : Fin 64, t.acc[j.val] = if j.val < Config.width wsel then 0#64 else s.acc[j.val]) ∧
      t = { s with acc := t.acc, inputs := rest, rsps := s.rsps ++ List.replicate (Config.width wsel) 0#64 }

/-! ### Micro-operations -/

/-- R181: `u.SETUP` in both branches, no work and work. It issues no read and changes no accumulator. -/
def Obligations.SetupPreparesTheRun : Prop :=
  ∀ s : State,
    let m := s.addr.toNat % 8
    let s1 : State :=
      { s with
        pl := Planes.zero, cb := Vector.replicate 64 0#8, ep := 0#4, ptr := BitVec.ofNat 64 (s.addr.toNat - m) }
    (s.len.toNat + m < 120 → exec .uSetup s = .next { s1 with rem := s.len, done := true, ph := .idle }) ∧
    (120 ≤ s.len.toNat + m →
      exec .uSetup s = .next { s1 with rem := BitVec.ofNat 64 (s.len.toNat + m), ph := .head })

/-- R321: what an earlier or faulted RUN left in the planes, the counter bank, `EP`, `PTR` and `REM` has no effect on the
state in which a RUN begins its work. -/
def Obligations.SetupForgetsEarlierRuns : Prop :=
  ∀ (s : State) (pl : Planes) (cb : Vector Byte 64) (ep : BitVec 4) (ptr rem : Word),
    exec .uSetup { s with pl := pl, cb := cb, ep := ep, ptr := ptr, rem := rem } = exec .uSetup s

/-- R182: when all 15 reads are answered, `u.HEAD` leaves in the planes, lane by lane, the number of masked head words
with that bit set, and advances; nothing else changes. -/
def Obligations.HeadReducesFifteenWords : Prop :=
  ∀ s : State, s.memStalled = false → (∀ r ∈ s.headRequests, Readable s.mem r) →
    ∃ t, exec .uHead s = .next t ∧ (∀ i, i < 64 → t.pl.value i = s.headSum i) ∧
      t = { s with
        pl := t.pl, ptr := s.ptr + 120#64, rem := s.rem - 120#64, ph := .chunk, reads := s.reads ++ s.headRequests }

/-- R182, R283, R286: when the reads `pre` are answered and the read `r` after them is not, the BUS fault at `r`'s
address is the whole effect of `u.HEAD`, and no later read is issued. Outside a RUN's states, where `ERR` may be set, the
record is as R28 and R34 say (log 14). -/
def Obligations.HeadBusFault : Prop :=
  ∀ (s : State) (pre post : List Request) (r : Request), s.memStalled = false →
    s.headRequests = pre ++ r :: post → (∀ q ∈ pre, Readable s.mem q) → ¬Readable s.mem r →
      exec .uHead s = .next (s.afterBus r.1 (pre ++ [r]))

/-- R67: `u.HEAD` does not depend on the bytes below `ADDR` in the first word: with any other contents of them, readable
or not, it does the same. -/
def Obligations.HeadIgnoresForeignBytes : Prop :=
  ∀ (s t : State) (m : List Host.Cell),
    (∀ a, (a < s.ptr.toNat ∨ s.ptr.toNat + s.misalign ≤ a) → Memory.read m a = Memory.read s.mem a) →
    exec .uHead s = .next t → exec .uHead { s with mem := m } = .next { t with mem := m }

/-- R183: `u.EXIT` only moves `PH`. -/
def Obligations.ExitOnlyMovesThePhase : Prop :=
  ∀ s : State, exec .uExit s = .next { s with ph := .resid }

/-- R184, R158, R159: `u.MFLUSH` adds to `ACC[b]`, for `b` below `W`, its `64 div W` counters modulo 2^64, zeroes the
bank and `EP`, and changes nothing else. -/
def Obligations.MflushFoldsTheBank : Prop :=
  ∀ s : State,
    let W := 8 * 2 ^ s.wsel.toNat
    ∃ t, exec .uMflush s = .next t ∧
      (∀ b : Fin 64, t.acc[b.val] =
        if b.val < W then
          s.acc[b.val] + BitVec.ofNat 64 (∑ k ∈ Finset.range (64 / W), (s.cb[b.val + k * W]?.getD 0#8).toNat)
        else s.acc[b.val]) ∧
      t = { s with acc := t.acc, cb := Vector.replicate 64 0#8, ep := 0#4 }

/-- R185: when all 16 reads are answered, `u.CHUNK` leaves in each lane of the planes the carried value plus the chunk's
sum modulo 16, adds 16 to the lane's counter when that total reaches 16, saturating, and advances. -/
def Obligations.ChunkConsumesSixteenWords : Prop :=
  ∀ s : State, s.memStalled = false → (∀ r ∈ s.chunkRequests, Readable s.mem r) →
    let total (i : Nat) := s.pl.value i + s.chunkSum i
    ∃ t, exec .uChunk s = .next t ∧
      (∀ i, i < 64 → t.pl.value i = total i % 16) ∧
      (∀ i : Fin 64, t.cb[i.val].toNat = min (s.cb[i.val].toNat + 16 * (total i.val / 16)) 255) ∧
      (t.sat = true ↔ s.sat = true ∨ ∃ i : Fin 64, 255 < s.cb[i.val].toNat + 16 * (total i.val / 16)) ∧
      t = { s with
        pl := t.pl, cb := t.cb, sat := t.sat, ep := s.ep + 1#4, ptr := s.ptr + 128#64, rem := s.rem - 128#64,
        reads := s.reads ++ s.chunkRequests }

/-- R185, R283, R286: the BUS fault of `u.CHUNK`, as that of `u.HEAD`. -/
def Obligations.ChunkBusFault : Prop :=
  ∀ (s : State) (pre post : List Request) (r : Request), s.memStalled = false →
    s.chunkRequests = pre ++ r :: post → (∀ q ∈ pre, Readable s.mem q) → ¬Readable s.mem r →
      exec .uChunk s = .next (s.afterBus r.1 (pre ++ [r]))

/-- U18, R335: while the memory does not answer, the steps that read are not taken. The flag `memStalled`, and a step
that is not taken being the unchanged state, are the model's own (log 6). -/
def Obligations.SilentMemoryHoldsTheStep : Prop :=
  ∀ s : State, s.memStalled = true → exec .uHead s = .next s ∧ exec .uChunk s = .next s

/-- R186, R155, R156: `u.RESID` adds each lane's residual value to its counter, saturating, clears the planes and moves
to FINAL. -/
def Obligations.ResidFoldsThePlanes : Prop :=
  ∀ s : State, ∃ t, exec .uResid s = .next t ∧
    (∀ i : Fin 64, t.cb[i.val].toNat = min (s.cb[i.val].toNat + s.pl.value i.val) 255) ∧
    (t.sat = true ↔ s.sat = true ∨ ∃ i : Fin 64, 255 < s.cb[i.val].toNat + s.pl.value i.val) ∧
    t = { s with pl := Planes.zero, cb := t.cb, sat := t.sat, ph := .final }

/-- R187, R158, R159: `u.FINAL` flushes as `u.MFLUSH` does and ends the RUN with `DONE = 1`. -/
def Obligations.FinalFlushesAndEnds : Prop :=
  ∀ s : State,
    let W := 8 * 2 ^ s.wsel.toNat
    ∃ t, exec .uFinal s = .next t ∧
      (∀ b : Fin 64, t.acc[b.val] =
        if b.val < W then
          s.acc[b.val] + BitVec.ofNat 64 (∑ k ∈ Finset.range (64 / W), (s.cb[b.val + k * W]?.getD 0#8).toNat)
        else s.acc[b.val]) ∧
      t = { s with acc := t.acc, cb := Vector.replicate 64 0#8, ep := 0#4, done := true, ph := .idle }

/-! ### The datapath -/

/-- R121: the lane law of the CSA. -/
def Obligations.CsaLaneLaw : Prop :=
  ∀ (a b c : Word) (i : Nat), i < 64 →
    lane a i + lane b i + lane c i = lane (csa a b c).1 i + 2 * lane (csa a b c).2 i

/-- R122, R123, R124: the canonical head tree spells, in every lane, the number of its 15 words with that bit set, and no
other four planes do. -/
def Obligations.HeadTreeIsTheLaneSum : Prop :=
  ∀ (w : Fin 15 → Word) (p : Planes),
    (∀ i, i < 64 → p.value i = ∑ j : Fin 15, lane (w j) i) ↔ p = head15 w

/-- R125, R123, R127: the canonical chunk tree spells, in every lane, the carried value plus the number of its 16 words
with that bit set, and no other five planes do. -/
def Obligations.ChunkTreeIsTheLaneSum : Prop :=
  ∀ (p : Planes) (w : Fin 16 → Word) (q : Planes) (q16 : Word),
    (∀ i, i < 64 → q.value i + 16 * lane q16 i = p.value i + ∑ j : Fin 16, lane (w j) i) ↔ (q, q16) = chunk16 p w

/-- R151: the saturating add of one counter, and that it touches no other. -/
def Obligations.SaturatingCounterAdd : Prop :=
  ∀ (b : Bank) (i : Fin 64) (d : Nat),
    (cbadd i d b).cb[i.val].toNat = min (b.cb[i.val].toNat + d) 255 ∧
    (∀ j : Fin 64, j ≠ i → (cbadd i d b).cb[j.val] = b.cb[j.val]) ∧
    ((cbadd i d b).sat = true ↔ b.sat = true ∨ 255 < b.cb[i.val].toNat + d)

/-- R154: nibble `j` of view `k` is the residual value of lane `16k + j`. -/
def Obligations.NibbleViewHoldsTheLanes : Prop :=
  ∀ (p : Planes) (k j : Nat), k < 4 → j < 16 → nibble (nibbleView p k) j = p.value (16 * k + j)

/-- R156: the residual fold through the nibble view is the fold lane by lane. -/
def Obligations.ResidualFoldLaneByLane : Prop :=
  ∀ s : State, s.cbresid = s.count fun i =>
    lane s.pl.p1 i.val + 2 * lane s.pl.p2 i.val + 4 * lane s.pl.p4 i.val + 8 * lane s.pl.p8 i.val

/-- R63, R66: of a read that is answered, each enabled byte lane `k`, bits `8k+7 : 8k`, is the byte at the address plus
`k`. That it is answered with `mem_err` exactly when a byte it asks for is unreadable is the model's choice: R66 leaves
`readable(addr, be)` to the platform, and the model decides it byte by byte (log 5). -/
def Obligations.ReadPrimitiveIsLittleEndian : Prop :=
  ∀ (m : List Host.Cell) (n : Nat) (a : Word) (be : BitVec 8),
    (memReadBE m n a.toNat be = none ↔ ¬Readable m (a, be)) ∧
    ∀ d, memReadBE m n a.toNat be = some d → ∀ k, k < 8 → be.getLsbD k = true →
      Memory.read m (a.toNat + k) = some (d.extractLsb' (8 * k) 8)

/-- R67: the table of byte enables and head masks, and that masking leaves nothing of the low `m` bytes and all of the
others, whatever the memory answered. -/
def Obligations.HeadMaskTable : Prop :=
  ([0, 1, 2, 3, 4, 5, 6, 7].map fun m => (headEnables m, headMask m)) =
    [ (0xFF#8, 0xFFFFFFFFFFFFFFFF#64), (0xFE#8, 0xFFFFFFFFFFFFFF00#64), (0xFC#8, 0xFFFFFFFFFFFF0000#64),
      (0xF8#8, 0xFFFFFFFFFF000000#64), (0xF0#8, 0xFFFFFFFF00000000#64), (0xE0#8, 0xFFFFFF0000000000#64),
      (0xC0#8, 0xFFFF000000000000#64), (0x80#8, 0xFF00000000000000#64) ] ∧
  ∀ (m : Nat) (x : Word), m < 8 →
    (∀ k, k < m → (x &&& headMask m).extractLsb' (8 * k) 8 = 0#8) ∧
    ∀ k, m ≤ k → k < 8 → (x &&& headMask m).extractLsb' (8 * k) 8 = x.extractLsb' (8 * k) 8

/-- R64: in a word at a multiple of 8 that meets an element-aligned buffer, lane `i` is bit `i mod W` of an element: bit
`i` of the word at `ADDR - m + 8 j` is bit `8 (8 j - m) + i` of the buffer, and that index is `i` modulo `W`. -/
def Obligations.LanesAreElementBits : Prop :=
  ∀ (s : State) (wsel : BitVec 2) (j i : Nat), s.addr.toNat % Config.elemSize wsel = 0 → i < 64 →
    8 * s.misalign ≤ 64 * j + i → 64 * j + i < 8 * (s.misalign + s.len.toNat) →
      memBit s.mem (s.addr.toNat - s.misalign + 8 * j) i = bitOf s.buffer (64 * j + i - 8 * s.misalign) ∧
      (64 * j + i - 8 * s.misalign) % Config.width wsel = i % Config.width wsel

/-! ### Invariants -/

/-- The invariant holds in the power-on state. -/
def Obligations.InvariantAtReset : Prop := State.reset.Inv

/-- Every step keeps the invariant, from every state that meets it and whatever the outside does. -/
def Obligations.InvariantKept : Prop :=
  ∀ s t : State, s.Inv → step s = .next t → t.Inv

/-- R40: its five lines, in every state reachable from reset. -/
def Obligations.ReachableStateInvariants : Prop :=
  ∀ s : State, Reachable s →
    (∀ i, s.pl.value i ≤ 15) ∧
    (s.ph = .chunk → ∀ i : Fin 64, s.cb[i.val].toNat % 16 = 0 ∧ s.cb[i.val].toNat ≤ 16 * s.ep.toNat ∧
      16 * s.ep.toNat ≤ 240) ∧
    (s.ph = .head ∨ s.ph = .chunk ∨ s.ph = .resid ∨ s.ph = .final →
      s.ptr.toNat % 8 = 0 ∧ s.ptr.toNat + s.rem.toNat = s.addr.toNat + s.len.toNat) ∧
    (s.ph = .idle → s.done = true → s.pl = Planes.zero ∧ (∀ i : Fin 64, s.cb[i.val] = 0#8) ∧ s.ep = 0#4) ∧
    s.sat = false

/-- R33: in every reachable state with `DONE = 1` the remainder is a whole number of elements, and RDSR REMN answers that
number. -/
def Obligations.RemainderIsWholeElements : Prop :=
  ∀ s : State, Reachable s → s.done = true →
    s.rem.toNat % Config.elemSize s.wsel = 0 ∧
    ∃ v : Word, exec (.rdsr 2#4) s = .next { s with rsps := s.rsps ++ [v] } ∧
      v.toNat * Config.elemSize s.wsel = s.rem.toNat

/-! ### Rules of the whole machine -/

/-- R20, R62: the column "written by", for every instruction: which can change each register; and that no instruction
changes a byte of memory, `rst`, what the outside is about to do, or the reset count. Commands add one response and
issue no read; micro-operations give no response. -/
def Obligations.EachRegisterHasItsWriters : Prop :=
  ∀ (i : Instr) (s t : State), exec i s = .next t →
    (t.acc ≠ s.acc → (∃ j v, i = .accwr j v) ∨ i = .uMflush ∨ i = .uFinal) ∧
    (t.addr ≠ s.addr → ∃ v, i = .setaddr v) ∧
    (t.len ≠ s.len → ∃ v, i = .setlen v) ∧
    (t.pl ≠ s.pl → i = .uSetup ∨ i = .uHead ∨ i = .uChunk ∨ i = .uResid) ∧
    (t.cb ≠ s.cb → i = .uSetup ∨ i = .uChunk ∨ i = .uResid ∨ i = .uMflush ∨ i = .uFinal) ∧
    (t.ep ≠ s.ep → i = .uSetup ∨ i = .uChunk ∨ i = .uMflush ∨ i = .uFinal) ∧
    (t.ptr ≠ s.ptr → i = .uSetup ∨ i = .uHead ∨ i = .uChunk) ∧
    (t.rem ≠ s.rem → i = .uSetup ∨ i = .uHead ∨ i = .uChunk) ∧
    (t.wsel ≠ s.wsel → ∃ w, i = .run w) ∧
    (t.ph ≠ s.ph → (∃ w, i = .run w) ∨ (i.isCommand = false ∧ i ≠ .uMflush)) ∧
    (t.done ≠ s.done → (∃ w, i = .run w) ∨ i = .uSetup ∨ i = .uHead ∨ i = .uChunk ∨ i = .uFinal) ∧
    (t.sat ≠ s.sat → i = .uChunk ∨ i = .uResid ∨ i = .errclr) ∧
    (t.err ≠ s.err → (∃ w, i = .run w) ∨ i = .uHead ∨ i = .uChunk ∨ i = .errclr ∨ i.wf = false) ∧
    (t.faddr ≠ s.faddr → i = .uHead ∨ i = .uChunk ∨ i = .errclr) ∧
    (∀ a, Memory.read t.mem a = Memory.read s.mem a) ∧ t.mem = s.mem ∧ t.memStalled = s.memStalled ∧
    t.rst = s.rst ∧ t.inputs = s.inputs ∧ t.resets = s.resets ∧
    (i.isCommand = true → t.reads = s.reads ∧ ∃ v, t.rsps = s.rsps ++ [v]) ∧
    (i.isCommand = false → t.rsps = s.rsps ∧ (t.reads ≠ s.reads → i = .uHead ∨ i = .uChunk))

/-- R26: which steps set `DONE` and which clear it. It rises only by `u.FINAL` or the no-work exit of `u.SETUP`, and falls
only by an accepted RUN, a BUS fault or reset; in particular an ILLCMD fault leaves it. -/
def Obligations.DoneRisesAndFalls : Prop :=
  ∀ s t : State, step s = .next t →
    (s.done = false → t.done = true →
      t.ph = .idle ∧ (s.ph = .final ∨ (s.ph = .setup ∧ s.len.toNat + s.addr.toNat % 8 < 120))) ∧
    (s.done = true → t.done = false →
      (∃ c opnd rest w, s.ph = .idle ∧ s.rst = false ∧ s.inputs = .command c opnd :: rest ∧
        decodeCmd c opnd = .ok (.run w)) ∨
      (s.ph ≠ .idle ∧ t.ph = .idle ∧ t.err ≠ .noFault) ∨
      (s.rst = false ∧ ∃ rest, s.inputs = .rst true :: rest))

/-- R28: the first fault wins. While `ERR` is not 0, only ERRCLR and reset change it, or `FADDR`. -/
def Obligations.FirstFaultWins : Prop :=
  ∀ s t : State, step s = .next t → s.err ≠ .noFault → (t.err ≠ s.err ∨ t.faddr ≠ s.faddr) →
    t.err = .noFault ∧ t.faddr = 0#64 ∧
      ((∃ c opnd rest, s.ph = .idle ∧ s.rst = false ∧ s.inputs = .command c opnd :: rest ∧
          decodeCmd c opnd = .ok .errclr) ∨
        (s.rst = false ∧ ∃ rest, s.inputs = .rst true :: rest))

/-- R27, R28, R285: `SAT` and the `fault` pin fall only by an accepted ERRCLR or by reset. -/
def Obligations.FaultPinFallsOnErrclrOrReset : Prop :=
  ∀ s t : State, step s = .next t →
    (s.faultPin = true ∧ t.faultPin = false) ∨ (s.sat = true ∧ t.sat = false) →
      (∃ c opnd rest, s.ph = .idle ∧ s.rst = false ∧ s.inputs = .command c opnd :: rest ∧
          decodeCmd c opnd = .ok .errclr) ∨
        (s.rst = false ∧ ∃ rest, s.inputs = .rst true :: rest)

/-- R180: the transitions of `PH` in a RUN, with `rst` low, the outside doing nothing and the memory answering: the row
of the table the state is in, and the phase it leads to. -/
def Obligations.PhaseTransitions : Prop :=
  ∀ s t : State, s.inputs = [] → s.rst = false → s.memStalled = false → step s = .next t →
    (s.ph = .setup → s.adjustedLen < 120 → t.ph = .idle ∧ t.done = true) ∧
    (s.ph = .setup → 120 ≤ s.adjustedLen → t.ph = .head) ∧
    (s.ph = .head → (∀ r ∈ s.headRequests, Readable s.mem r) → t.ph = .chunk) ∧
    (s.ph = .head → (∃ r ∈ s.headRequests, ¬Readable s.mem r) →
      t.ph = .idle ∧ t.done = false ∧ (s.err = .noFault → t.err = .bus)) ∧
    (s.ph = .chunk → s.rem.toNat < 128 → t.ph = .resid) ∧
    (s.ph = .chunk → 128 ≤ s.rem.toNat → s.ep = 15#4 → t.ph = .chunk ∧ t.ep = 0#4 ∧ t.rem = s.rem) ∧
    (s.ph = .chunk → 128 ≤ s.rem.toNat → s.ep ≠ 15#4 → (∀ r ∈ s.chunkRequests, Readable s.mem r) →
      t.ph = .chunk ∧ t.rem.toNat = s.rem.toNat - 128) ∧
    (s.ph = .chunk → 128 ≤ s.rem.toNat → s.ep ≠ 15#4 → (∃ r ∈ s.chunkRequests, ¬Readable s.mem r) →
      t.ph = .idle ∧ t.done = false ∧ (s.err = .noFault → t.err = .bus)) ∧
    (s.ph = .resid → t.ph = .final) ∧
    (s.ph = .final → t.ph = .idle ∧ t.done = true)

/-- R162: exactness, step by step, from every state of the invariant. What an accumulator would hold if everything pending
were folded into it grows, modulo 2^64, by the number of set bits just read from its lanes. It stays as it is over every
other step of the sequencer, also one that ends in a BUS fault (R283) or is not taken because the memory does not answer
(log 6), and over the steps in which the outside changes the memory or stalls it (logs 3 and 5). -/
def Obligations.CountsAreExact : Prop :=
  ∀ s t : State, s.Inv → step s = .next t → ∀ b : Fin 64, b.val < Config.width s.wsel →
    (s.undisturbed ∨ (∃ rest, s.inputs = .wait :: rest) →
      (s.ph = .setup → t.tally b = s.acc[b.val]) ∧
      (s.ph = .head → s.memStalled = false → (∀ r ∈ s.headRequests, Readable s.mem r) →
        t.tally b = s.tally b + BitVec.ofNat 64 (foldedSum (Config.width s.wsel) b.val fun i => s.headSum i.val)) ∧
      (s.ph = .head → s.memStalled = true ∨ (∃ r ∈ s.headRequests, ¬Readable s.mem r) → t.tally b = s.tally b) ∧
      (s.ph = .chunk → 128 ≤ s.rem.toNat → s.ep ≠ 15#4 → s.memStalled = false →
        (∀ r ∈ s.chunkRequests, Readable s.mem r) →
          t.tally b = s.tally b + BitVec.ofNat 64 (foldedSum (Config.width s.wsel) b.val fun i => s.chunkSum i.val)) ∧
      (s.ph = .chunk → s.memStalled = true ∨ (∃ r ∈ s.chunkRequests, ¬Readable s.mem r) → t.tally b = s.tally b) ∧
      (s.ph = .chunk → s.rem.toNat < 128 ∨ s.ep = 15#4 → t.tally b = s.tally b) ∧
      (s.ph = .resid ∨ s.ph = .final → t.tally b = s.tally b)) ∧
    ((∃ a v rest, s.inputs = .store a v :: rest) ∨ (∃ a rest, s.inputs = .withdraw a :: rest) ∨
      (∃ on rest, s.inputs = .stall on :: rest) → t.tally b = s.tally b)

/-! ### A completed RUN -/

/-- R188, R253: the contract. A RUN whose checks hold, over a readable buffer and with the outside doing nothing (a
command may wait, R220), ends with `DONE = 1` and no fault; for `b` below `W`, `ACC[b]` has grown, modulo 2^64, by the
positional population count of the buffer less that of the last `REM` bytes; the other accumulators are unchanged; `REM`
is as R188 says and a whole number of elements. -/
def Obligations.CompletedRunCounts : Prop :=
  ∀ (s : State) (wsel : BitVec 2), s.Launchable wsel → s.sat = false → s.memStalled = false → s.undisturbed →
    s.bufferReadable →
    ∃ t0 t, exec (.run wsel) s = .next t0 ∧
      Host.Core.run Sys2Proof.core (stepsOf s.adjustedLen) t0 = .next t ∧
      t.ph = .idle ∧ t.done = true ∧ t.err = .noFault ∧ t.sat = false ∧
      t.rem.toNat = s.remainderOf ∧ t.rem.toNat % Config.elemSize wsel = 0 ∧
      (∀ b : Fin 64, t.acc[b.val] =
        if b.val < Config.width wsel then
          s.acc[b.val] + BitVec.ofNat 64 (ppc (Config.width wsel) s.buffer b.val)
            - BitVec.ofNat 64 (ppc (Config.width wsel) (s.buffer.drop (s.len.toNat - s.remainderOf)) b.val)
        else s.acc[b.val])

/-- R68, R189, R71 item 1: such a RUN, seen from the memory port and by its steps: it issues exactly the reads of R68, in
ascending order and each once, and ends after the steps of R189 with `PTR` at the end of what it read; it has written
none of `ADDR`, `LEN`, memory. -/
def Obligations.CompletedRunReads : Prop :=
  ∀ (s : State) (wsel : BitVec 2), s.Launchable wsel → s.memStalled = false → s.undisturbed → s.bufferReadable →
    ∃ t0 t, exec (.run wsel) s = .next t0 ∧
      Host.Core.run Sys2Proof.core (stepsOf s.adjustedLen) t0 = .next t ∧ t.ph = .idle ∧ t.done = true ∧
      (∀ n u, n < stepsOf s.adjustedLen → Host.Core.run Sys2Proof.core n t0 = .next u → u.ph ≠ .idle) ∧
      t.reads = s.reads ++ s.runReads ∧
      t.ptr.toNat = s.addr.toNat - s.misalign + 8 * wordsOf s.adjustedLen ∧
      t.addr = s.addr ∧ t.len = s.len ∧ t.mem = s.mem

/-- R257: a buffer of length zero, out of reset: one sequencer step, no read, `ACC` unchanged, `REM = 0`, `DONE = 1`. At
an address that is not element-aligned the RUN raises ALIGN and `ACC` is unchanged as well. -/
def Obligations.ZeroLengthIsNoWork : Prop :=
  ∀ (s : State) (wsel : BitVec 2), s.ph = .idle → s.rst = false → s.err = .noFault → s.len = 0#64 → s.inputs = [] →
    ∃ t0, exec (.run wsel) s = .next t0 ∧
      (s.addr.toNat % Config.elemSize wsel = 0 →
        ∃ t, step t0 = .next t ∧ t.ph = .idle ∧ t.done = true ∧ t.rem = 0#64 ∧ t.acc = s.acc ∧ t.reads = s.reads) ∧
      (s.addr.toNat % Config.elemSize wsel ≠ 0 → t0.err = .align ∧ t0.ph = .idle ∧ t0.acc = s.acc)

/-- R250: the reference function is additive over concatenation, when the first part is whole elements. -/
def Obligations.ReferenceIsAdditive : Prop :=
  ∀ (wsel : BitVec 2) (B1 B2 : List Byte) (b : Nat), b < Config.width wsel →
    B1.length % Config.elemSize wsel = 0 → B2.length % Config.elemSize wsel = 0 →
      ppc (Config.width wsel) (B1 ++ B2) b = ppc (Config.width wsel) B1 b + ppc (Config.width wsel) B2 b

/-- R253, R71 item 2, R330: the contract while the outside acts. Whatever it does during the RUN to bytes outside the
buffer, and however often the memory stops and resumes answering, as long as it answers in the end, the RUN ends as
R253 says, within as many further steps as the outside acts. The form of the acts is the model's own (logs 3, 5, 6). -/
def Obligations.CompletedRunAmongOtherActs : Prop :=
  ∀ (s : State) (wsel : BitVec 2) (acts rest : List Input), s.Launchable wsel → s.sat = false → s.bufferReadable →
    s.inputs = acts ++ rest → (∀ x ∈ acts, x.spares s.addr.toNat s.len.toNat = true) →
    stalledAfter s.memStalled acts = false → (rest = [] ∨ ∃ c opnd tail, rest = .command c opnd :: tail) →
    ∃ (t0 t : State) (n : Nat), exec (.run wsel) s = .next t0 ∧ n ≤ stepsOf s.adjustedLen + acts.length ∧
      Host.Core.run Sys2Proof.core n t0 = .next t ∧
      (∀ k u, k < n → Host.Core.run Sys2Proof.core k t0 = .next u → u.ph ≠ .idle) ∧
      t.ph = .idle ∧ t.done = true ∧ t.err = .noFault ∧ t.sat = false ∧
      t.rem.toNat = s.remainderOf ∧ t.rem.toNat % Config.elemSize wsel = 0 ∧
      (∀ b : Fin 64, t.acc[b.val] =
        if b.val < Config.width wsel then
          s.acc[b.val] + BitVec.ofNat 64 (ppc (Config.width wsel) s.buffer b.val)
            - BitVec.ofNat 64 (ppc (Config.width wsel) (s.buffer.drop (s.len.toNat - s.remainderOf)) b.val)
        else s.acc[b.val])
end

