-- ==== Sys2Proof/Laws/Bank.lean ====
section
/-! SUPPORT. What the loops over the 64 lanes come to: the saturating additions and the flush. -/

namespace Sys2Proof.Machine

theorem sat8_toNat (v : Nat) : (sat8 v).toNat = min v 255 := by
  simp only [sat8, BitVec.toNat_ofNat]
  omega

/-- An addition leaves every other counter. -/
theorem cbadd_cb_other {i j : Fin 64} (h : i ≠ j) (d : Nat) (b : Bank) : (cbadd j d b).cb[i.val] = b.cb[i.val] :=
  Vector.getElem_set_ne j.isLt i.isLt fun e => h (Fin.ext e.symm)

/-- Additions at lanes other than `i` leave counter `i`. -/
theorem cbadd_foldl_other (d : Fin 64 → Nat) (i : Fin 64) : ∀ (l : List (Fin 64)) (b : Bank), i ∉ l →
    (l.foldl (fun b j => cbadd j (d j) b) b).cb[i.val] = b.cb[i.val] := by
  intro l
  induction l with
  | nil => simp
  | cons j l ih =>
    intro b h
    rw [List.mem_cons, not_or] at h
    rw [List.foldl_cons, ih _ h.2]
    exact cbadd_cb_other h.1 _ _

/-- One addition at each lane of a list without repeats: every listed counter is added to once, saturating. -/
theorem cbadd_foldl_cb (d : Fin 64 → Nat) (i : Fin 64) : ∀ (l : List (Fin 64)) (b : Bank), l.Nodup → i ∈ l →
    (l.foldl (fun b j => cbadd j (d j) b) b).cb[i.val] = sat8 (b.cb[i.val].toNat + d i) := by
  intro l
  induction l with
  | nil => simp
  | cons j l ih =>
    intro b hn h
    obtain ⟨hj, hl⟩ := List.nodup_cons.1 hn
    rw [List.foldl_cons]
    by_cases e : i = j
    · subst e
      rw [cbadd_foldl_other d i l _ hj]
      exact Vector.getElem_set_self _
    · rw [ih _ hl (by simpa [e] using h)]
      rw [cbadd_cb_other e]

/-- `SAT` after the additions: as before, or set by one of them. -/
theorem cbadd_foldl_sat (d : Fin 64 → Nat) : ∀ (l : List (Fin 64)) (b : Bank), l.Nodup →
    ((l.foldl (fun b j => cbadd j (d j) b) b).sat = true ↔
      b.sat = true ∨ ∃ i ∈ l, 255 < b.cb[i.val].toNat + d i) := by
  intro l
  induction l with
  | nil => simp
  | cons j l ih =>
    intro b hn
    obtain ⟨hj, hl⟩ := List.nodup_cons.1 hn
    rw [List.foldl_cons, ih _ hl]
    have other : ∀ i ∈ l, (cbadd j (d j) b).cb[i.val] = b.cb[i.val] := fun i hi =>
      cbadd_cb_other (fun e : i = j => hj (e ▸ hi)) _ _
    simp only [cbadd, clips, Bool.or_eq_true, decide_eq_true_eq, List.exists_mem_cons_iff, or_assoc] at *
    refine or_congr_right (or_congr_right ?_)
    exact exists_congr fun i => and_congr_right fun hi => by rw [other i hi]

/-- The loop over all lanes, counter by counter. -/
theorem cbaddAll_cb (d : Fin 64 → Nat) (b : Bank) (i : Fin 64) :
    (cbaddAll d b).cb[i.val] = sat8 (b.cb[i.val].toNat + d i) := by
  unfold cbaddAll
  exact cbadd_foldl_cb d i _ b (List.nodup_finRange 64) (List.mem_finRange i)

/-- The loop over all lanes sets `SAT` when some addition clips. -/
theorem cbaddAll_sat (d : Fin 64 → Nat) (b : Bank) :
    (cbaddAll d b).sat = true ↔ b.sat = true ∨ ∃ i : Fin 64, 255 < b.cb[i.val].toNat + d i := by
  unfold cbaddAll
  simpa using cbadd_foldl_sat d _ b (List.nodup_finRange 64)

/-- One line of the flush changes only the accumulator of its lane. -/
theorem flushLane_getElem (w : Nat) (cb : Vector Byte 64) (acc : Vector Word 64) (i b : Fin 64) :
    (flushLane w cb acc i)[b.val] =
      acc[b.val] + if i.val % w = b.val then cb[i.val].setWidth 64 else 0#64 := by
  unfold flushLane
  split
  · rename_i h
    simp [h]
  · rename_i h
    rw [Vector.getElem_set_ne _ _ h]
    simp

/-- The flush over a list of lanes, accumulator by accumulator. -/
theorem flushLane_foldl_getElem (w : Nat) (cb : Vector Byte 64) (b : Fin 64) :
    ∀ (l : List (Fin 64)) (acc : Vector Word 64),
      (l.foldl (flushLane w cb) acc)[b.val] =
        acc[b.val] + (l.map fun i => if i.val % w = b.val then cb[i.val].setWidth 64 else 0#64).sum := by
  intro l
  induction l with
  | nil => simp
  | cons i l ih =>
    intro acc
    rw [List.foldl_cons, ih, flushLane_getElem, List.map_cons, List.sum_cons, BitVec.add_assoc]

/-- The whole flush, accumulator by accumulator: the counters of the lanes congruent to it are added. -/
theorem foldBank_getElem (w : Nat) (cb : Vector Byte 64) (acc : Vector Word 64) (b : Fin 64) :
    (foldBank w cb acc)[b.val] =
      acc[b.val] +
        ((List.finRange 64).map fun i => if i.val % w = b.val then cb[i.val].setWidth 64 else 0#64).sum := by
  unfold foldBank
  exact flushLane_foldl_getElem w cb b _ acc

end Sys2Proof.Machine
end

