-- ==== Sys2Proof/Laws/Memory.lean ====
section
/-! SUPPORT. The laws of the data memory: read after write and after withdrawal, and that every operation keeps the
canonical form. -/

namespace Sys2Proof.Machine

theorem Memory.read_write_same (m : List Host.Cell) (x : Nat) (v : Byte) :
    Memory.read (Memory.write m x v) x = some v := by
  induction m with
  | nil => simp [Memory.write, Memory.read]
  | cons c m ih =>
    obtain ⟨a, u⟩ := c
    simp only [Memory.write]
    split
    · simp [Memory.read]
    · split
      · simp [Memory.read]
      · have : a ≠ x := fun h => by simp_all
        simp [Memory.read, this, ih]

theorem Memory.read_write_other (m : List Host.Cell) {x y : Nat} (v : Byte) (h : y ≠ x) :
    Memory.read (Memory.write m x v) y = Memory.read m y := by
  induction m with
  | nil => simp [Memory.write, Memory.read, h.symm]
  | cons c m ih =>
    obtain ⟨a, u⟩ := c
    simp only [Memory.write]
    split
    · simp [Memory.read, h.symm]
    · split
      · rename_i hx
        subst hx
        simp [Memory.read, h.symm]
      · simp [Memory.read, ih]

theorem Memory.read_withdraw_other (m : List Host.Cell) {x y : Nat} (h : y ≠ x) :
    Memory.read (Memory.withdraw m x) y = Memory.read m y := by
  induction m with
  | nil => rfl
  | cons c m ih =>
    obtain ⟨a, u⟩ := c
    simp only [Memory.withdraw]
    split
    · rename_i hx
      subst hx
      simp [Memory.read, h.symm]
    · simp [Memory.read, ih]

/-- An address that is in no entry is unreadable. -/
theorem Memory.read_eq_none_of_forall {m : List Host.Cell} {x : Nat} (h : ∀ c ∈ m, c.1 ≠ x) :
    Memory.read m x = none := by
  induction m with
  | nil => rfl
  | cons c m ih =>
    obtain ⟨a, u⟩ := c
    simp only [List.mem_cons, forall_eq_or_imp] at h
    simp [Memory.read, h.1, ih h.2]

theorem Memory.read_withdraw_same {m : List Host.Cell} (hm : Memory.wf m) (x : Nat) :
    Memory.read (Memory.withdraw m x) x = none := by
  obtain ⟨hp, -⟩ := hm
  induction m with
  | nil => rfl
  | cons c m ih =>
    obtain ⟨a, u⟩ := c
    rw [List.pairwise_cons] at hp
    simp only [Memory.withdraw]
    split
    · rename_i hx
      subst hx
      exact Memory.read_eq_none_of_forall fun c hc => Nat.ne_of_gt (hp.1 c hc)
    · rename_i hx
      simp [Memory.read, hx, ih hp.2]

/-- Every entry after a write is the new one or an old one. -/
theorem Memory.mem_write {m : List Host.Cell} {x : Nat} {v : Byte} {c : Host.Cell} (h : c ∈ Memory.write m x v) :
    c = (x, v) ∨ c ∈ m := by
  induction m with
  | nil => simpa [Memory.write] using h
  | cons d m ih =>
    obtain ⟨a, u⟩ := d
    simp only [Memory.write] at h
    split at h
    · simpa using h
    · split at h
      · rcases List.mem_cons.1 h with h | h <;> simp [h]
      · rcases List.mem_cons.1 h with h | h
        · simp [h]
        · rcases ih h with h | h <;> simp [h]

theorem Memory.mem_withdraw {m : List Host.Cell} {x : Nat} {c : Host.Cell} (h : c ∈ Memory.withdraw m x) : c ∈ m := by
  induction m with
  | nil => simp [Memory.withdraw] at h
  | cons d m ih =>
    obtain ⟨a, u⟩ := d
    simp only [Memory.withdraw] at h
    split at h
    · exact List.mem_cons_of_mem _ h
    · rcases List.mem_cons.1 h with h | h
      · simp [h]
      · exact List.mem_cons_of_mem _ (ih h)

theorem Memory.wf_write {m : List Host.Cell} (hm : Memory.wf m) (a : Word) (v : Byte) :
    Memory.wf (Memory.write m a.toNat v) := by
  refine ⟨?_, fun c hc => (Memory.mem_write hc).elim (fun h => h ▸ a.isLt) (hm.2 c)⟩
  have hp := hm.1
  clear hm
  induction m with
  | nil => simp [Memory.write]
  | cons c m ih =>
    obtain ⟨b, u⟩ := c
    have hc := List.pairwise_cons.1 hp
    simp only [Memory.write]
    split
    · rename_i hx
      refine List.pairwise_cons.2 ⟨fun d hd => ?_, hp⟩
      rcases List.mem_cons.1 hd with rfl | hd
      · exact hx
      · exact Nat.lt_trans hx (hc.1 d hd)
    · split
      · rename_i hx
        subst hx
        exact List.pairwise_cons.2 hc
      · rename_i h1 h2
        refine List.pairwise_cons.2 ⟨fun d hd => ?_, ih hc.2⟩
        rcases Memory.mem_write hd with rfl | hd
        · show b < a.toNat
          omega
        · exact hc.1 d hd

theorem Memory.wf_withdraw {m : List Host.Cell} (hm : Memory.wf m) (x : Nat) : Memory.wf (Memory.withdraw m x) := by
  refine ⟨?_, fun c hc => hm.2 c (Memory.mem_withdraw hc)⟩
  have hp := hm.1
  clear hm
  induction m with
  | nil => simp [Memory.withdraw]
  | cons c m ih =>
    obtain ⟨b, u⟩ := c
    have hc := List.pairwise_cons.1 hp
    simp only [Memory.withdraw]
    split
    · exact hc.2
    · exact List.pairwise_cons.2 ⟨fun d hd => hc.1 d (Memory.mem_withdraw hd), ih hc.2⟩

end Sys2Proof.Machine
end

