-- ==== Sys2Proof/Laws/State.lean ====
section
/-! SUPPORT. One lemma per field per update of State: what each named update leaves in each field. -/

namespace Sys2Proof.Machine

variable (s : State)

/-! ### `respond` -/

@[simp] theorem State.respond_acc (v : Word) : (s.respond v).acc = s.acc := rfl
@[simp] theorem State.respond_addr (v : Word) : (s.respond v).addr = s.addr := rfl
@[simp] theorem State.respond_len (v : Word) : (s.respond v).len = s.len := rfl
@[simp] theorem State.respond_pl (v : Word) : (s.respond v).pl = s.pl := rfl
@[simp] theorem State.respond_cb (v : Word) : (s.respond v).cb = s.cb := rfl
@[simp] theorem State.respond_ep (v : Word) : (s.respond v).ep = s.ep := rfl
@[simp] theorem State.respond_ptr (v : Word) : (s.respond v).ptr = s.ptr := rfl
@[simp] theorem State.respond_rem (v : Word) : (s.respond v).rem = s.rem := rfl
@[simp] theorem State.respond_wsel (v : Word) : (s.respond v).wsel = s.wsel := rfl
@[simp] theorem State.respond_ph (v : Word) : (s.respond v).ph = s.ph := rfl
@[simp] theorem State.respond_done (v : Word) : (s.respond v).done = s.done := rfl
@[simp] theorem State.respond_sat (v : Word) : (s.respond v).sat = s.sat := rfl
@[simp] theorem State.respond_err (v : Word) : (s.respond v).err = s.err := rfl
@[simp] theorem State.respond_faddr (v : Word) : (s.respond v).faddr = s.faddr := rfl
@[simp] theorem State.respond_mem (v : Word) : (s.respond v).mem = s.mem := rfl
@[simp] theorem State.respond_memStalled (v : Word) : (s.respond v).memStalled = s.memStalled := rfl
@[simp] theorem State.respond_rst (v : Word) : (s.respond v).rst = s.rst := rfl
@[simp] theorem State.respond_inputs (v : Word) : (s.respond v).inputs = s.inputs := rfl
@[simp] theorem State.respond_rsps (v : Word) : (s.respond v).rsps = s.rsps ++ [v] := rfl
@[simp] theorem State.respond_reads (v : Word) : (s.respond v).reads = s.reads := rfl
@[simp] theorem State.respond_resets (v : Word) : (s.respond v).resets = s.resets := rfl

/-! ### `issue` -/

@[simp] theorem State.issue_acc (r : List Request) : (s.issue r).acc = s.acc := rfl
@[simp] theorem State.issue_addr (r : List Request) : (s.issue r).addr = s.addr := rfl
@[simp] theorem State.issue_len (r : List Request) : (s.issue r).len = s.len := rfl
@[simp] theorem State.issue_pl (r : List Request) : (s.issue r).pl = s.pl := rfl
@[simp] theorem State.issue_cb (r : List Request) : (s.issue r).cb = s.cb := rfl
@[simp] theorem State.issue_ep (r : List Request) : (s.issue r).ep = s.ep := rfl
@[simp] theorem State.issue_ptr (r : List Request) : (s.issue r).ptr = s.ptr := rfl
@[simp] theorem State.issue_rem (r : List Request) : (s.issue r).rem = s.rem := rfl
@[simp] theorem State.issue_wsel (r : List Request) : (s.issue r).wsel = s.wsel := rfl
@[simp] theorem State.issue_ph (r : List Request) : (s.issue r).ph = s.ph := rfl
@[simp] theorem State.issue_done (r : List Request) : (s.issue r).done = s.done := rfl
@[simp] theorem State.issue_sat (r : List Request) : (s.issue r).sat = s.sat := rfl
@[simp] theorem State.issue_err (r : List Request) : (s.issue r).err = s.err := rfl
@[simp] theorem State.issue_faddr (r : List Request) : (s.issue r).faddr = s.faddr := rfl
@[simp] theorem State.issue_mem (r : List Request) : (s.issue r).mem = s.mem := rfl
@[simp] theorem State.issue_memStalled (r : List Request) : (s.issue r).memStalled = s.memStalled := rfl
@[simp] theorem State.issue_rst (r : List Request) : (s.issue r).rst = s.rst := rfl
@[simp] theorem State.issue_inputs (r : List Request) : (s.issue r).inputs = s.inputs := rfl
@[simp] theorem State.issue_rsps (r : List Request) : (s.issue r).rsps = s.rsps := rfl
@[simp] theorem State.issue_reads (r : List Request) : (s.issue r).reads = s.reads ++ r := rfl
@[simp] theorem State.issue_resets (r : List Request) : (s.issue r).resets = s.resets := rfl

/-! ### `raise` of BUS -/

@[simp] theorem State.raise_bus_acc (a : Word) : (s.raise (.bus a)).acc = s.acc := rfl
@[simp] theorem State.raise_bus_addr (a : Word) : (s.raise (.bus a)).addr = s.addr := rfl
@[simp] theorem State.raise_bus_len (a : Word) : (s.raise (.bus a)).len = s.len := rfl
@[simp] theorem State.raise_bus_pl (a : Word) : (s.raise (.bus a)).pl = s.pl := rfl
@[simp] theorem State.raise_bus_cb (a : Word) : (s.raise (.bus a)).cb = s.cb := rfl
@[simp] theorem State.raise_bus_ep (a : Word) : (s.raise (.bus a)).ep = s.ep := rfl
@[simp] theorem State.raise_bus_ptr (a : Word) : (s.raise (.bus a)).ptr = s.ptr := rfl
@[simp] theorem State.raise_bus_rem (a : Word) : (s.raise (.bus a)).rem = s.rem := rfl
@[simp] theorem State.raise_bus_wsel (a : Word) : (s.raise (.bus a)).wsel = s.wsel := rfl
@[simp] theorem State.raise_bus_ph (a : Word) : (s.raise (.bus a)).ph = .idle := rfl
@[simp] theorem State.raise_bus_done (a : Word) : (s.raise (.bus a)).done = false := rfl
@[simp] theorem State.raise_bus_sat (a : Word) : (s.raise (.bus a)).sat = s.sat := rfl
@[simp] theorem State.raise_bus_err (a : Word) : (s.raise (.bus a)).err = if s.err = .noFault then .bus else s.err := rfl
@[simp] theorem State.raise_bus_faddr (a : Word) : (s.raise (.bus a)).faddr = if s.err = .noFault then a else s.faddr := rfl
@[simp] theorem State.raise_bus_mem (a : Word) : (s.raise (.bus a)).mem = s.mem := rfl
@[simp] theorem State.raise_bus_memStalled (a : Word) : (s.raise (.bus a)).memStalled = s.memStalled := rfl
@[simp] theorem State.raise_bus_rst (a : Word) : (s.raise (.bus a)).rst = s.rst := rfl
@[simp] theorem State.raise_bus_inputs (a : Word) : (s.raise (.bus a)).inputs = s.inputs := rfl
@[simp] theorem State.raise_bus_rsps (a : Word) : (s.raise (.bus a)).rsps = s.rsps := rfl
@[simp] theorem State.raise_bus_reads (a : Word) : (s.raise (.bus a)).reads = s.reads := rfl
@[simp] theorem State.raise_bus_resets (a : Word) : (s.raise (.bus a)).resets = s.resets := rfl

/-! ### `raise` of the other causes: only `ERR` -/

theorem State.raise_illcmd : s.raise .illcmd = { s with err := if s.err = .noFault then .illcmd else s.err } := rfl
theorem State.raise_align : s.raise .align = { s with err := if s.err = .noFault then .align else s.err } := rfl
theorem State.raise_range : s.raise .range = { s with err := if s.err = .noFault then .range else s.err } := rfl

/-! ### `clearRecord` -/

@[simp] theorem State.clearRecord_acc : (s.clearRecord).acc = s.acc := rfl
@[simp] theorem State.clearRecord_addr : (s.clearRecord).addr = s.addr := rfl
@[simp] theorem State.clearRecord_len : (s.clearRecord).len = s.len := rfl
@[simp] theorem State.clearRecord_pl : (s.clearRecord).pl = s.pl := rfl
@[simp] theorem State.clearRecord_cb : (s.clearRecord).cb = s.cb := rfl
@[simp] theorem State.clearRecord_ep : (s.clearRecord).ep = s.ep := rfl
@[simp] theorem State.clearRecord_ptr : (s.clearRecord).ptr = s.ptr := rfl
@[simp] theorem State.clearRecord_rem : (s.clearRecord).rem = s.rem := rfl
@[simp] theorem State.clearRecord_wsel : (s.clearRecord).wsel = s.wsel := rfl
@[simp] theorem State.clearRecord_ph : (s.clearRecord).ph = s.ph := rfl
@[simp] theorem State.clearRecord_done : (s.clearRecord).done = s.done := rfl
@[simp] theorem State.clearRecord_sat : (s.clearRecord).sat = false := rfl
@[simp] theorem State.clearRecord_err : (s.clearRecord).err = .noFault := rfl
@[simp] theorem State.clearRecord_faddr : (s.clearRecord).faddr = 0#64 := rfl
@[simp] theorem State.clearRecord_mem : (s.clearRecord).mem = s.mem := rfl
@[simp] theorem State.clearRecord_memStalled : (s.clearRecord).memStalled = s.memStalled := rfl
@[simp] theorem State.clearRecord_rst : (s.clearRecord).rst = s.rst := rfl
@[simp] theorem State.clearRecord_inputs : (s.clearRecord).inputs = s.inputs := rfl
@[simp] theorem State.clearRecord_rsps : (s.clearRecord).rsps = s.rsps := rfl
@[simp] theorem State.clearRecord_reads : (s.clearRecord).reads = s.reads := rfl
@[simp] theorem State.clearRecord_resets : (s.clearRecord).resets = s.resets := rfl

/-! ### `assertReset` -/

@[simp] theorem State.assertReset_acc : (s.assertReset).acc = accAfterReset (s.resets + 1) := by simp only [State.assertReset, State.reset]
@[simp] theorem State.assertReset_addr : (s.assertReset).addr = 0#64 := by simp only [State.assertReset, State.reset]
@[simp] theorem State.assertReset_len : (s.assertReset).len = 0#64 := by simp only [State.assertReset, State.reset]
@[simp] theorem State.assertReset_pl : (s.assertReset).pl = Planes.zero := by simp only [State.assertReset, State.reset]
@[simp] theorem State.assertReset_cb : (s.assertReset).cb = Vector.replicate 64 0#8 := by simp only [State.assertReset, State.reset]
@[simp] theorem State.assertReset_ep : (s.assertReset).ep = 0#4 := by simp only [State.assertReset, State.reset]
@[simp] theorem State.assertReset_ptr : (s.assertReset).ptr = 0#64 := by simp only [State.assertReset, State.reset]
@[simp] theorem State.assertReset_rem : (s.assertReset).rem = 0#64 := by simp only [State.assertReset, State.reset]
@[simp] theorem State.assertReset_wsel : (s.assertReset).wsel = 0#2 := by simp only [State.assertReset, State.reset]
@[simp] theorem State.assertReset_ph : (s.assertReset).ph = .idle := by simp only [State.assertReset, State.reset]
@[simp] theorem State.assertReset_done : (s.assertReset).done = false := by simp only [State.assertReset, State.reset]
@[simp] theorem State.assertReset_sat : (s.assertReset).sat = false := by simp only [State.assertReset, State.reset]
@[simp] theorem State.assertReset_err : (s.assertReset).err = .noFault := by simp only [State.assertReset, State.reset]
@[simp] theorem State.assertReset_faddr : (s.assertReset).faddr = 0#64 := by simp only [State.assertReset, State.reset]
@[simp] theorem State.assertReset_mem : (s.assertReset).mem = s.mem := by simp only [State.assertReset, State.reset]
@[simp] theorem State.assertReset_memStalled : (s.assertReset).memStalled = s.memStalled := by simp only [State.assertReset, State.reset]
@[simp] theorem State.assertReset_rst : (s.assertReset).rst = true := by simp only [State.assertReset, State.reset]
@[simp] theorem State.assertReset_inputs : (s.assertReset).inputs = s.inputs := by simp only [State.assertReset, State.reset]
@[simp] theorem State.assertReset_rsps : (s.assertReset).rsps = s.rsps := by simp only [State.assertReset, State.reset]
@[simp] theorem State.assertReset_reads : (s.assertReset).reads = s.reads := by simp only [State.assertReset, State.reset]
@[simp] theorem State.assertReset_resets : (s.assertReset).resets = s.resets + 1 := by simp only [State.assertReset, State.reset]

/-! ### `driveRst` -/

theorem State.driveRst_rises (h : s.rst = false) : s.driveRst true = s.assertReset := by simp [State.driveRst, h]
theorem State.driveRst_stays (h : s.rst = true) (on : Bool) : s.driveRst on = { s with rst := on } := by
  simp [State.driveRst, h]
theorem State.driveRst_low : s.driveRst false = { s with rst := false } := rfl
/-- Everything driving `rst` can do: it goes high, or it only takes the level it is given. -/
theorem State.driveRst_cases (on : Bool) :
    (on = true ∧ s.rst = false ∧ s.driveRst on = s.assertReset) ∨
      ((on = false ∨ s.rst = true) ∧ s.driveRst on = { s with rst := on }) := by
  cases on with
  | false => exact .inr ⟨.inl rfl, State.driveRst_low s⟩
  | true =>
    cases h : s.rst with
    | false => exact .inl ⟨rfl, rfl, State.driveRst_rises s h⟩
    | true => exact .inr ⟨.inr rfl, State.driveRst_stays s h true⟩
@[simp] theorem State.driveRst_rst (on : Bool) : (s.driveRst on).rst = on := by
  unfold State.driveRst; cases on <;> cases h : s.rst <;> simp
@[simp] theorem State.driveRst_mem (on : Bool) : (s.driveRst on).mem = s.mem := by
  unfold State.driveRst; split <;> simp
@[simp] theorem State.driveRst_memStalled (on : Bool) : (s.driveRst on).memStalled = s.memStalled := by
  unfold State.driveRst; split <;> simp
@[simp] theorem State.driveRst_inputs (on : Bool) : (s.driveRst on).inputs = s.inputs := by
  unfold State.driveRst; split <;> simp
@[simp] theorem State.driveRst_rsps (on : Bool) : (s.driveRst on).rsps = s.rsps := by
  unfold State.driveRst; split <;> simp
@[simp] theorem State.driveRst_reads (on : Bool) : (s.driveRst on).reads = s.reads := by
  unfold State.driveRst; split <;> simp

/-! ### `cbzero` -/

@[simp] theorem State.cbzero_acc : (s.cbzero).acc = s.acc := by simp only [State.cbzero]
@[simp] theorem State.cbzero_addr : (s.cbzero).addr = s.addr := by simp only [State.cbzero]
@[simp] theorem State.cbzero_len : (s.cbzero).len = s.len := by simp only [State.cbzero]
@[simp] theorem State.cbzero_pl : (s.cbzero).pl = s.pl := by simp only [State.cbzero]
@[simp] theorem State.cbzero_cb : (s.cbzero).cb = Vector.replicate 64 0#8 := by simp only [State.cbzero]
@[simp] theorem State.cbzero_ep : (s.cbzero).ep = 0#4 := by simp only [State.cbzero]
@[simp] theorem State.cbzero_ptr : (s.cbzero).ptr = s.ptr := by simp only [State.cbzero]
@[simp] theorem State.cbzero_rem : (s.cbzero).rem = s.rem := by simp only [State.cbzero]
@[simp] theorem State.cbzero_wsel : (s.cbzero).wsel = s.wsel := by simp only [State.cbzero]
@[simp] theorem State.cbzero_ph : (s.cbzero).ph = s.ph := by simp only [State.cbzero]
@[simp] theorem State.cbzero_done : (s.cbzero).done = s.done := by simp only [State.cbzero]
@[simp] theorem State.cbzero_sat : (s.cbzero).sat = s.sat := by simp only [State.cbzero]
@[simp] theorem State.cbzero_err : (s.cbzero).err = s.err := by simp only [State.cbzero]
@[simp] theorem State.cbzero_faddr : (s.cbzero).faddr = s.faddr := by simp only [State.cbzero]
@[simp] theorem State.cbzero_mem : (s.cbzero).mem = s.mem := by simp only [State.cbzero]
@[simp] theorem State.cbzero_memStalled : (s.cbzero).memStalled = s.memStalled := by simp only [State.cbzero]
@[simp] theorem State.cbzero_rst : (s.cbzero).rst = s.rst := by simp only [State.cbzero]
@[simp] theorem State.cbzero_inputs : (s.cbzero).inputs = s.inputs := by simp only [State.cbzero]
@[simp] theorem State.cbzero_rsps : (s.cbzero).rsps = s.rsps := by simp only [State.cbzero]
@[simp] theorem State.cbzero_reads : (s.cbzero).reads = s.reads := by simp only [State.cbzero]
@[simp] theorem State.cbzero_resets : (s.cbzero).resets = s.resets := by simp only [State.cbzero]

/-! ### `count` -/

@[simp] theorem State.count_acc (d : Fin 64 → Nat) : (s.count d).acc = s.acc := by simp only [State.count]
@[simp] theorem State.count_addr (d : Fin 64 → Nat) : (s.count d).addr = s.addr := by simp only [State.count]
@[simp] theorem State.count_len (d : Fin 64 → Nat) : (s.count d).len = s.len := by simp only [State.count]
@[simp] theorem State.count_pl (d : Fin 64 → Nat) : (s.count d).pl = s.pl := by simp only [State.count]
@[simp] theorem State.count_cb (d : Fin 64 → Nat) : (s.count d).cb = (cbaddAll d ⟨s.cb, s.sat⟩).cb := by simp only [State.count]
@[simp] theorem State.count_ep (d : Fin 64 → Nat) : (s.count d).ep = s.ep := by simp only [State.count]
@[simp] theorem State.count_ptr (d : Fin 64 → Nat) : (s.count d).ptr = s.ptr := by simp only [State.count]
@[simp] theorem State.count_rem (d : Fin 64 → Nat) : (s.count d).rem = s.rem := by simp only [State.count]
@[simp] theorem State.count_wsel (d : Fin 64 → Nat) : (s.count d).wsel = s.wsel := by simp only [State.count]
@[simp] theorem State.count_ph (d : Fin 64 → Nat) : (s.count d).ph = s.ph := by simp only [State.count]
@[simp] theorem State.count_done (d : Fin 64 → Nat) : (s.count d).done = s.done := by simp only [State.count]
@[simp] theorem State.count_sat (d : Fin 64 → Nat) : (s.count d).sat = (cbaddAll d ⟨s.cb, s.sat⟩).sat := by simp only [State.count]
@[simp] theorem State.count_err (d : Fin 64 → Nat) : (s.count d).err = s.err := by simp only [State.count]
@[simp] theorem State.count_faddr (d : Fin 64 → Nat) : (s.count d).faddr = s.faddr := by simp only [State.count]
@[simp] theorem State.count_mem (d : Fin 64 → Nat) : (s.count d).mem = s.mem := by simp only [State.count]
@[simp] theorem State.count_memStalled (d : Fin 64 → Nat) : (s.count d).memStalled = s.memStalled := by simp only [State.count]
@[simp] theorem State.count_rst (d : Fin 64 → Nat) : (s.count d).rst = s.rst := by simp only [State.count]
@[simp] theorem State.count_inputs (d : Fin 64 → Nat) : (s.count d).inputs = s.inputs := by simp only [State.count]
@[simp] theorem State.count_rsps (d : Fin 64 → Nat) : (s.count d).rsps = s.rsps := by simp only [State.count]
@[simp] theorem State.count_reads (d : Fin 64 → Nat) : (s.count d).reads = s.reads := by simp only [State.count]
@[simp] theorem State.count_resets (d : Fin 64 → Nat) : (s.count d).resets = s.resets := by simp only [State.count]

/-! ### `cbflush` -/

@[simp] theorem State.cbflush_acc : (s.cbflush).acc = foldBank (Config.width s.wsel) s.cb s.acc := by simp only [State.cbflush, State.cbzero]
@[simp] theorem State.cbflush_addr : (s.cbflush).addr = s.addr := by simp only [State.cbflush, State.cbzero]
@[simp] theorem State.cbflush_len : (s.cbflush).len = s.len := by simp only [State.cbflush, State.cbzero]
@[simp] theorem State.cbflush_pl : (s.cbflush).pl = s.pl := by simp only [State.cbflush, State.cbzero]
@[simp] theorem State.cbflush_cb : (s.cbflush).cb = Vector.replicate 64 0#8 := by simp only [State.cbflush, State.cbzero]
@[simp] theorem State.cbflush_ep : (s.cbflush).ep = 0#4 := by simp only [State.cbflush, State.cbzero]
@[simp] theorem State.cbflush_ptr : (s.cbflush).ptr = s.ptr := by simp only [State.cbflush, State.cbzero]
@[simp] theorem State.cbflush_rem : (s.cbflush).rem = s.rem := by simp only [State.cbflush, State.cbzero]
@[simp] theorem State.cbflush_wsel : (s.cbflush).wsel = s.wsel := by simp only [State.cbflush, State.cbzero]
@[simp] theorem State.cbflush_ph : (s.cbflush).ph = s.ph := by simp only [State.cbflush, State.cbzero]
@[simp] theorem State.cbflush_done : (s.cbflush).done = s.done := by simp only [State.cbflush, State.cbzero]
@[simp] theorem State.cbflush_sat : (s.cbflush).sat = s.sat := by simp only [State.cbflush, State.cbzero]
@[simp] theorem State.cbflush_err : (s.cbflush).err = s.err := by simp only [State.cbflush, State.cbzero]
@[simp] theorem State.cbflush_faddr : (s.cbflush).faddr = s.faddr := by simp only [State.cbflush, State.cbzero]
@[simp] theorem State.cbflush_mem : (s.cbflush).mem = s.mem := by simp only [State.cbflush, State.cbzero]
@[simp] theorem State.cbflush_memStalled : (s.cbflush).memStalled = s.memStalled := by simp only [State.cbflush, State.cbzero]
@[simp] theorem State.cbflush_rst : (s.cbflush).rst = s.rst := by simp only [State.cbflush, State.cbzero]
@[simp] theorem State.cbflush_inputs : (s.cbflush).inputs = s.inputs := by simp only [State.cbflush, State.cbzero]
@[simp] theorem State.cbflush_rsps : (s.cbflush).rsps = s.rsps := by simp only [State.cbflush, State.cbzero]
@[simp] theorem State.cbflush_reads : (s.cbflush).reads = s.reads := by simp only [State.cbflush, State.cbzero]
@[simp] theorem State.cbflush_resets : (s.cbflush).resets = s.resets := by simp only [State.cbflush, State.cbzero]

end Sys2Proof.Machine
end

