-- ==== Sys2Proof/Laws/Ops.lean ====
section
/-! SUPPORT. What a read and a block of reads can come to. -/

namespace Sys2Proof.Machine

variable {m : List Host.Cell} {n a : Nat} {be : BitVec 8}

/-- A read that is answered found all eight byte lanes, and its word is made of them. -/
theorem memReadBE_eq_some {d : Word} : memReadBE m n a be = some d ↔
    ∃ b0 b1 b2 b3 b4 b5 b6 b7, busByte m n a be 0 = some b0 ∧ busByte m n a be 1 = some b1 ∧
      busByte m n a be 2 = some b2 ∧ busByte m n a be 3 = some b3 ∧ busByte m n a be 4 = some b4 ∧
      busByte m n a be 5 = some b5 ∧ busByte m n a be 6 = some b6 ∧ busByte m n a be 7 = some b7 ∧
      d = placed b0 0 ||| placed b1 1 ||| placed b2 2 ||| placed b3 3 ||| placed b4 4 ||| placed b5 5 ||| placed b6 6 |||
        placed b7 7 := by
  simp only [memReadBE, Option.bind_eq_bind, Option.bind_eq_some_iff, Option.pure_def, Option.some.injEq]
  constructor
  · rintro ⟨b0, h0, b1, h1, b2, h2, b3, h3, b4, h4, b5, h5, b6, h6, b7, h7, rfl⟩
    exact ⟨b0, b1, b2, b3, b4, b5, b6, b7, h0, h1, h2, h3, h4, h5, h6, h7, rfl⟩
  · rintro ⟨b0, b1, b2, b3, b4, b5, b6, b7, h0, h1, h2, h3, h4, h5, h6, h7, rfl⟩
    exact ⟨b0, h0, b1, h1, b2, h2, b3, h3, b4, h4, b5, h5, b6, h6, b7, h7, rfl⟩

/-- Bit `8k + r` of an answered read is bit `r` of byte lane `k`. -/
theorem memReadBE_bit {d : Word} (h : memReadBE m n a be = some d) {k r : Nat} (hk : k < 8) (hr : r < 8) :
    ∃ b, busByte m n a be k = some b ∧ d.getLsbD (8 * k + r) = b.getLsbD r := by
  obtain ⟨b0, b1, b2, b3, b4, b5, b6, b7, h0, h1, h2, h3, h4, h5, h6, h7, rfl⟩ := memReadBE_eq_some.1 h
  have here (b : Byte) (j : Nat) :
      (placed b j).getLsbD (8 * k + r) = if j = k then b.getLsbD r else false := by
    simp only [placed, BitVec.getLsbD_shiftLeft, BitVec.getLsbD_setWidth]
    split
    · subst j
      simp [show 8 * k + r < 64 by omega, show 8 * k + r - 8 * k = r by omega, show r < 64 by omega]
    · rcases Nat.lt_or_ge (8 * k + r) (8 * j) with hlt | hge
      · simp [hlt]
      · rw [BitVec.getLsbD_of_ge b _ (by omega)]
        simp
  simp only [BitVec.getLsbD_or, here]
  interval_cases k
  · exact ⟨b0, h0, by simp⟩
  · exact ⟨b1, h1, by simp⟩
  · exact ⟨b2, h2, by simp⟩
  · exact ⟨b3, h3, by simp⟩
  · exact ⟨b4, h4, by simp⟩
  · exact ⟨b5, h5, by simp⟩
  · exact ⟨b6, h6, by simp⟩
  · exact ⟨b7, h7, by simp⟩

/-- A read is answered exactly when every byte lane is. -/
theorem memReadBE_isSome : (memReadBE m n a be).isSome = true ↔ ∀ k, k < 8 → (busByte m n a be k).isSome = true := by
  constructor
  · intro h k hk
    obtain ⟨d, hd⟩ := Option.isSome_iff_exists.1 h
    obtain ⟨b, hb, -⟩ := memReadBE_bit hd hk (r := 0) (by omega)
    simp [hb]
  · intro h
    have get (k : Nat) (hk : k < 8) := Option.isSome_iff_exists.1 (h k hk)
    obtain ⟨b0, h0⟩ := get 0 (by omega)
    obtain ⟨b1, h1⟩ := get 1 (by omega)
    obtain ⟨b2, h2⟩ := get 2 (by omega)
    obtain ⟨b3, h3⟩ := get 3 (by omega)
    obtain ⟨b4, h4⟩ := get 4 (by omega)
    obtain ⟨b5, h5⟩ := get 5 (by omega)
    obtain ⟨b6, h6⟩ := get 6 (by omega)
    obtain ⟨b7, h7⟩ := get 7 (by omega)
    exact Option.isSome_iff_exists.2
      ⟨_, memReadBE_eq_some.2 ⟨b0, b1, b2, b3, b4, b5, b6, b7, h0, h1, h2, h3, h4, h5, h6, h7, rfl⟩⟩

/-! ### A block of reads -/

@[simp] theorem BlockAnswer.after_eq_words {d : Word} {x : BlockAnswer} {ws : List Word} :
    x.after d = .words ws ↔ ∃ tl, x = .words tl ∧ ws = d :: tl := by
  cases x <;> simp [BlockAnswer.after, eq_comm]

/-- Word `j` of a block that was answered is the answer to its read `j`. -/
theorem readBlock_words {reqs : List Request} : ∀ {n : Nat} {ws : List Word}, readBlock m n reqs = .words ws →
    ws.length = reqs.length ∧
      ∀ (j : Nat) (hj : j < reqs.length),
        memReadBE m (n + j) (reqs[j].1.toNat) reqs[j].2 = some (wordAt ws j) := by
  induction reqs with
  | nil => intro n ws h; simp_all [readBlock]
  | cons r reqs ih =>
    intro n ws h
    obtain ⟨a, be⟩ := r
    simp only [readBlock] at h
    split at h
    · simp at h
    · rename_i d hd
      obtain ⟨tl, htl, rfl⟩ := BlockAnswer.after_eq_words.1 h
      obtain ⟨hl, hw⟩ := ih htl
      refine ⟨by simp [hl], fun j hj => ?_⟩
      cases j with
      | zero => simpa [wordAt] using hd
      | succ j => simpa [wordAt, Nat.add_assoc, Nat.add_comm 1 j] using hw j (by simpa using hj)

/-- If every read of the block is one the memory answers, the block is answered. -/
theorem readBlock_of_isSome {reqs : List Request} : ∀ {n : Nat},
    (∀ r ∈ reqs, ∀ n, (memReadBE m n r.1.toNat r.2).isSome = true) → ∃ ws, readBlock m n reqs = .words ws := by
  induction reqs with
  | nil => exact fun _ => ⟨[], rfl⟩
  | cons r reqs ih =>
    intro n h
    obtain ⟨d, hd⟩ := Option.isSome_iff_exists.1 (h r List.mem_cons_self n)
    obtain ⟨ws, hws⟩ := ih (n := n + 1) fun q hq => h q (List.mem_cons_of_mem _ hq)
    exact ⟨d :: ws, by simp [readBlock, hd, hws, BlockAnswer.after]⟩

/-- The first read the memory refuses ends the block. -/
theorem readBlock_of_refused {pre post : List Request} {r : Request} : ∀ {n : Nat},
    (∀ q ∈ pre, ∀ n, (memReadBE m n q.1.toNat q.2).isSome = true) → (∀ n, memReadBE m n r.1.toNat r.2 = none) →
      readBlock m n (pre ++ r :: post) = .busError r.1 (pre.length + 1) := by
  induction pre with
  | nil => intro n _ hr; simp [readBlock, hr]
  | cons q pre ih =>
    intro n h hr
    obtain ⟨d, hd⟩ := Option.isSome_iff_exists.1 (h q List.mem_cons_self n)
    have := ih (n := n + 1) (fun q hq => h q (List.mem_cons_of_mem _ hq)) hr
    simp [readBlock, hd, this, BlockAnswer.after]

/-- A block is answered, or ended by the first read the memory refuses; the memory itself is never silent here. -/
theorem readBlock_cases (reqs : List Request) : ∀ n : Nat,
    (∃ ws, readBlock m n reqs = .words ws ∧ ws.length = reqs.length) ∨
    (∃ pre r post, reqs = pre ++ r :: post ∧ readBlock m n reqs = .busError r.1 (pre.length + 1)) := by
  induction reqs with
  | nil => exact fun n => .inl ⟨[], rfl, rfl⟩
  | cons r reqs ih =>
    intro n
    obtain ⟨a, be⟩ := r
    cases hd : memReadBE m n a.toNat be with
    | none => exact .inr ⟨[], (a, be), reqs, rfl, by simp [readBlock, hd]⟩
    | some d =>
      rcases ih (n + 1) with ⟨ws, hws, hl⟩ | ⟨pre, q, post, rfl, hq⟩
      · exact .inl ⟨d :: ws, by simp [readBlock, hd, hws, BlockAnswer.after], by simp [hl]⟩
      · exact .inr ⟨(a, be) :: pre, q, post, rfl, by simp [readBlock, hd, hq, BlockAnswer.after]⟩

/-- Everything a step that reads can do: nothing while the memory is silent, its effect on the words read, or the BUS
fault of the first read that was refused. -/
theorem State.withBlock_cases (s : State) (reqs : List Request) (k : List Word → State → State) :
    (s.memStalled = true ∧ s.withBlock reqs k = s) ∨
    (∃ ws, s.memStalled = false ∧ Machine.readBlock s.mem s.reads.length reqs = .words ws ∧
      ws.length = reqs.length ∧ s.withBlock reqs k = k ws (s.issue reqs)) ∨
    (∃ pre r post, s.memStalled = false ∧ reqs = pre ++ r :: post ∧
      Machine.readBlock s.mem s.reads.length reqs = .busError r.1 (pre.length + 1) ∧
      s.withBlock reqs k = (s.issue (pre ++ [r])).raise (.bus r.1)) := by
  cases hs : s.memStalled with
  | true => exact .inl ⟨rfl, by simp [State.withBlock, State.readBlock, hs]⟩
  | false =>
    rcases readBlock_cases (m := s.mem) reqs s.reads.length with ⟨ws, hws, hl⟩ | ⟨pre, r, post, rfl, hr⟩
    · exact .inr (.inl ⟨ws, rfl, hws, hl, by simp [State.withBlock, State.readBlock, hs, hws]⟩)
    · exact .inr (.inr ⟨pre, r, post, rfl, rfl, hr, by
        simp [State.withBlock, State.readBlock, hs, hr, List.take_append, List.take_of_length_le]⟩)

end Sys2Proof.Machine
end

