-- ==== Sys2Proof/Laws/PerInstr.lean ====
section
/-! SUPPORT. One statement made of every instruction: the code the encoder gives it meets its row of
spec/opcode_table.json, named by its mnemonic (R93, R96). -/

namespace Sys2Proof.Laws.TableRow

/-- The code of `i` meets the `match` under the `mask` of the row that `i`'s mnemonic names. -/
def Statement (i : Instr) : Prop :=
  match encode i with
  | .cmd c _ => ∃ r ∈ cmdTable, r.mnemonic = i.mnemonic ∧ r.selects c = true
  | .uop ph _ _ => (i.mnemonic, ph) ∈ uopTable

theorem nop : Statement .nop := ⟨cmdTable[0], List.getElem_mem (by decide), rfl, by decide⟩

theorem setaddr (opnd : Word) : Statement (.setaddr opnd) :=
  ⟨cmdTable[1], List.getElem_mem (by decide), rfl, by decide⟩

theorem setlen (opnd : Word) : Statement (.setlen opnd) :=
  ⟨cmdTable[2], List.getElem_mem (by decide), rfl, by decide⟩

theorem run (wsel : BitVec 2) : Statement (.run wsel) :=
  ⟨cmdTable[3], List.getElem_mem (by decide), rfl, by revert wsel; decide⟩

/-- Every index, as a word of ACCWR, meets the row. -/
theorem accwr_selects : ∀ idx : Fin 64,
    (cmdTable[4]).selects (cmdWord 0x04#8 (BitVec.ofNat 8 idx.val)) = true := by decide

theorem accwr (idx : Fin 64) (opnd : Word) : Statement (.accwr idx opnd) :=
  ⟨cmdTable[4], List.getElem_mem (by decide), rfl, accwr_selects idx⟩

/-- Every index, as a word of ACCRD, meets the row. -/
theorem accrd_selects : ∀ idx : Fin 64,
    (cmdTable[5]).selects (cmdWord 0x05#8 (BitVec.ofNat 8 idx.val)) = true := by decide

theorem accrd (idx : Fin 64) : Statement (.accrd idx) :=
  ⟨cmdTable[5], List.getElem_mem (by decide), rfl, accrd_selects idx⟩

theorem rdsr (sel : BitVec 4) : Statement (.rdsr sel) :=
  ⟨cmdTable[6], List.getElem_mem (by decide), rfl, by revert sel; decide⟩

theorem errclr : Statement .errclr := ⟨cmdTable[7], List.getElem_mem (by decide), rfl, by decide⟩

theorem uSetup : Statement .uSetup := List.getElem_mem (l := uopTable) (n := 0) (by decide)

theorem uHead : Statement .uHead := List.getElem_mem (l := uopTable) (n := 1) (by decide)

theorem uExit : Statement .uExit := List.getElem_mem (l := uopTable) (n := 2) (by decide)

theorem uMflush : Statement .uMflush := List.getElem_mem (l := uopTable) (n := 3) (by decide)

theorem uChunk : Statement .uChunk := List.getElem_mem (l := uopTable) (n := 4) (by decide)

theorem uResid : Statement .uResid := List.getElem_mem (l := uopTable) (n := 5) (by decide)

theorem uFinal : Statement .uFinal := List.getElem_mem (l := uopTable) (n := 6) (by decide)

end Sys2Proof.Laws.TableRow
end

