-- ==== Sys2Proof/Laws/Step.lean ====
section
/-! SUPPORT. What a step can be: the inversion of the sequencer's selection and of `step`, and the induction over the
steps of a run. -/

namespace Sys2Proof.Machine

/-- The selected micro-operation, and the phase and tests that selected it. -/
theorem State.selectUop_cases {s : State} {i : Instr} (h : s.selectUop = .ok i) :
    (s.ph = .setup ∧ i = .uSetup) ∨ (s.ph = .head ∧ i = .uHead) ∨
    (s.ph = .chunk ∧ s.rem.toNat < 128 ∧ i = .uExit) ∨
    (s.ph = .chunk ∧ 128 ≤ s.rem.toNat ∧ s.ep = 15#4 ∧ i = .uMflush) ∨
    (s.ph = .chunk ∧ 128 ≤ s.rem.toNat ∧ s.ep ≠ 15#4 ∧ i = .uChunk) ∨
    (s.ph = .resid ∧ i = .uResid) ∨ (s.ph = .final ∧ i = .uFinal) := by
  unfold State.selectUop decodeUop at h
  cases hp : s.ph <;> simp only [hp, Phase.code, BitVec.toNat_ofNat, Nat.reduceMod, Nat.reducePow] at h
  case idle => simp at h
  case chunk =>
    by_cases hr : s.rem.toNat < 128
    · simp_all
    · by_cases he : s.ep = 15#4 <;> simp_all
  all_goals simp_all

/-- The sequencer has no step exactly in IDLE. -/
theorem State.selectUop_error {s : State} {e : Reject} (h : s.selectUop = .error e) : s.ph = .idle := by
  unfold State.selectUop decodeUop at h
  cases hp : s.ph <;> simp only [hp, Phase.code, BitVec.toNat_ofNat, Nat.reduceMod, Nat.reducePow] at h <;> simp_all

@[simp] theorem State.cmdReady_iff {s : State} : s.cmdReady = true ↔ s.ph = .idle := by
  unfold State.cmdReady
  cases s.ph <;> decide

/-- While `rst` is high the sequencer takes no step (R320). -/
theorem State.sequencerTurn_of_rst {s : State} (h : s.rst = true) : s.sequencerTurn = .settled s := by
  simp [State.sequencerTurn, h]

/-- While it is low the sequencer takes the step it selects (R180). -/
theorem State.sequencerTurn_of_ok {s : State} {i : Instr} (hr : s.rst = false) (h : s.selectUop = .ok i) :
    s.sequencerTurn = .execute i s := by
  simp [State.sequencerTurn, hr, h]

/-- What is left of a sequencer's turn: the selected micro-operation, or nothing in IDLE and while `rst` is high. -/
theorem State.sequencerTurn_cases (s : State) :
    (∃ i, s.rst = false ∧ s.selectUop = .ok i ∧ s.sequencerTurn = .execute i s) ∨
    ((s.ph = .idle ∨ s.rst = true) ∧ s.sequencerTurn = .settled s) := by
  unfold State.sequencerTurn
  cases hr : s.rst with
  | true => exact .inr ⟨.inr rfl, rfl⟩
  | false =>
    cases h : s.selectUop with
    | ok i => exact .inl ⟨i, rfl, rfl, rfl⟩
    | error e => exact .inr ⟨.inl (State.selectUop_error h), rfl⟩

/-- Everything a step can do that leaves the turn to the sequencer, in `s'`. -/
theorem step_of_sequencerTurn {s s' t : State} (hs : s.turn = s'.sequencerTurn) (h : step s = .next t) :
    (∃ i, s'.rst = false ∧ s'.selectUop = .ok i ∧ exec i s' = .next t) ∨
      ((s'.ph = .idle ∨ s'.rst = true) ∧ t = s') := by
  unfold step at h
  rw [hs] at h
  rcases s'.sequencerTurn_cases with ⟨i, hr, hi, e⟩ | ⟨hp, e⟩ <;> rw [e] at h
  · exact .inl ⟨i, hr, hi, h⟩
  · exact .inr ⟨hp, (Host.Outcome.next.inj h).symm⟩

/-- Everything a step can do. In the first two cases `ins` is what is still to come from the outside: all of it, unless
a `wait` was used up. -/
theorem step_cases {s t : State} (h : step s = .next t) :
    (∃ i ins, (ins = s.inputs ∨ s.inputs = .wait :: ins) ∧ s.rst = false ∧ s.selectUop = .ok i ∧
      exec i { s with inputs := ins } = .next t) ∨
    (∃ ins, (ins = s.inputs ∨ s.inputs = .wait :: ins) ∧ (s.ph = .idle ∨ s.rst = true) ∧ t = { s with inputs := ins }) ∨
    (∃ c opnd rest i, s.inputs = .command c opnd :: rest ∧ s.ph = .idle ∧ s.rst = false ∧ decodeCmd c opnd = .ok i ∧
      exec i { s with inputs := rest } = .next t) ∨
    (∃ c opnd rest e, s.inputs = .command c opnd :: rest ∧ s.ph = .idle ∧ s.rst = false ∧ decodeCmd c opnd = .error e ∧
      t = illegalCommand { s with inputs := rest }) ∨
    (∃ a v rest, s.inputs = .store a v :: rest ∧
      t = { s with mem := Memory.write s.mem a.toNat v, inputs := rest }) ∨
    (∃ a rest, s.inputs = .withdraw a :: rest ∧
      t = { s with mem := Memory.withdraw s.mem a.toNat, inputs := rest }) ∨
    (∃ on rest, s.inputs = .stall on :: rest ∧ t = { s with memStalled := on, inputs := rest }) ∨
    (∃ rest, s.inputs = .rst true :: rest ∧ s.rst = false ∧ t = State.assertReset { s with inputs := rest }) ∨
    (∃ on rest, s.inputs = .rst on :: rest ∧ (on = false ∨ s.rst = true) ∧ t = { s with rst := on, inputs := rest }) := by
  cases hin : s.inputs with
  | nil =>
    rcases step_of_sequencerTurn (s' := s) (by simp only [State.turn, hin]) h with ⟨i, hr, hi, e⟩ | ⟨hp, e⟩
    · exact .inl ⟨i, [], .inl rfl, hr, hi, by rw [← hin]; exact e⟩
    · exact .inr (.inl ⟨[], .inl rfl, hp, by rw [← hin]; exact e⟩)
  | cons x rest =>
    cases x with
    | wait =>
      rcases step_of_sequencerTurn (s' := { s with inputs := rest }) (by simp only [State.turn, hin]) h with
        ⟨i, hr, hi, e⟩ | ⟨hp, e⟩
      · exact .inl ⟨i, rest, .inr rfl, hr, hi, e⟩
      · exact .inr (.inl ⟨rest, .inr rfl, hp, e⟩)
    | command c opnd =>
      by_cases hr : (s.cmdReady && !s.rst) = true
      · have hp : s.ph = .idle ∧ s.rst = false := by simpa using hr
        unfold step at h
        simp only [State.turn, hin, hr, if_true, State.portTurn] at h
        cases hd : decodeCmd c opnd with
        | ok i =>
          rw [hd] at h
          exact .inr (.inr (.inl ⟨c, opnd, rest, i, rfl, hp.1, hp.2, hd, h⟩))
        | error e =>
          rw [hd] at h
          exact .inr (.inr (.inr (.inl ⟨c, opnd, rest, e, rfl, hp.1, hp.2, hd, (Host.Outcome.next.inj h).symm⟩)))
      · rcases step_of_sequencerTurn (s' := s) (by simp only [State.turn, hin, hr]; rfl) h with
          ⟨i, hr, hi, e⟩ | ⟨hp, e⟩
        · exact .inl ⟨i, _, .inl rfl, hr, hi, by rw [← hin]; exact e⟩
        · exact .inr (.inl ⟨_, .inl rfl, hp, by rw [← hin]; exact e⟩)
    | store a v =>
      unfold step at h
      simp only [State.turn, hin] at h
      exact .inr (.inr (.inr (.inr (.inl ⟨a, v, rest, rfl, (Host.Outcome.next.inj h).symm⟩))))
    | withdraw a =>
      unfold step at h
      simp only [State.turn, hin] at h
      exact .inr (.inr (.inr (.inr (.inr (.inl ⟨a, rest, rfl, (Host.Outcome.next.inj h).symm⟩)))))
    | stall on =>
      unfold step at h
      simp only [State.turn, hin] at h
      exact .inr (.inr (.inr (.inr (.inr (.inr (.inl ⟨on, rest, rfl, (Host.Outcome.next.inj h).symm⟩))))))
    | rst on =>
      unfold step at h
      simp only [State.turn, hin] at h
      have ht := (Host.Outcome.next.inj h).symm
      rcases State.driveRst_cases { s with inputs := rest } on with ⟨rfl, hr, e⟩ | ⟨hr, e⟩ <;> rw [e] at ht
      · exact .inr (.inr (.inr (.inr (.inr (.inr (.inr (.inl ⟨rest, rfl, hr, ht⟩)))))))
      · exact .inr (.inr (.inr (.inr (.inr (.inr (.inr (.inr ⟨on, rest, rfl, hr, ht⟩)))))))

/-- Everything lines 2 to 6 of RUN can do: nothing, one of the two faults, or the start. -/
theorem launch_cases (wsel : BitVec 2) (s : State) :
    (s.err ≠ .noFault ∧ launch wsel s = s) ∨
    (s.err = .noFault ∧ s.alignedFor wsel = false ∧ launch wsel s = { s with err := .align }) ∨
    (s.err = .noFault ∧ s.alignedFor wsel = true ∧ s.inRange = false ∧ launch wsel s = { s with err := .range }) ∨
    (s.err = .noFault ∧ s.alignedFor wsel = true ∧ s.inRange = true ∧
      launch wsel s = { s with wsel := wsel, ph := .setup }) := by
  unfold launch
  by_cases he : s.err = .noFault
  · cases ha : s.alignedFor wsel with
    | false => exact .inr (.inl ⟨he, rfl, by simp [he, State.raise_align]⟩)
    | true =>
      cases hr : s.inRange with
      | false => exact .inr (.inr (.inl ⟨he, rfl, rfl, by simp [he, State.raise_range]⟩))
      | true => exact .inr (.inr (.inr ⟨he, rfl, rfl, by simp [he]⟩))
  · exact .inl ⟨he, by simp [he]⟩

/-! ### Runs -/

/-- A run of one step more, unfolded. -/
theorem run_succ (M : Host.Core) (n : Nat) (s : M.State) :
    M.run (n + 1) s =
      match M.step s with
      | .next t => M.run n t
      | .fault r => .fault r
      | .refused r => .refused r := rfl

/-- A run that goes on for one step more has a first step. -/
theorem exists_step_of_run_of (M : Host.Core) {n : Nat} {s u : M.State} (h : M.run (n + 1) s = .next u) :
    ∃ t, M.step s = .next t ∧ M.run n t = .next u := by
  rw [run_succ] at h
  cases hs : M.step s with
  | next t => exact ⟨t, rfl, by rw [hs] at h; exact h⟩
  | fault r => rw [hs] at h; cases h
  | refused r => rw [hs] at h; cases h

theorem run_succ_of_next_of (M : Host.Core) {s t : M.State} (n : Nat) (h : M.step s = .next t) :
    M.run (n + 1) s = M.run n t := by
  rw [run_succ, h]

/-- The first step of a run, and the run that is left. -/
theorem run_succ_of_next {s t : State} (n : Nat) (h : step s = .next t) :
    Host.Core.run Sys2Proof.core (n + 1) s = Host.Core.run Sys2Proof.core n t :=
  run_succ_of_next_of Sys2Proof.core n h

theorem exists_step_of_run {n : Nat} {s u : State} (h : Host.Core.run Sys2Proof.core (n + 1) s = .next u) :
    ∃ t : State, step s = .next t ∧ Host.Core.run Sys2Proof.core n t = .next u :=
  exists_step_of_run_of Sys2Proof.core h

/-- What every step keeps, every run keeps. -/
theorem run_keeps {P : State → Prop} (hP : ∀ s t, P s → step s = .next t → P t) :
    ∀ {n : Nat} {s t : State}, P s → Host.Core.run Sys2Proof.core n s = .next t → P t := by
  intro n
  induction n with
  | zero =>
    intro s t hs h
    cases h
    exact hs
  | succ n ih =>
    intro s t hs h
    obtain ⟨u, hu, hr⟩ := exists_step_of_run h
    exact ih (hP s u hs hu) hr

end Sys2Proof.Machine
end

