-- ==== Sys2Proof/Tests/Slice0.lean ====
section
/-! SUPPORT. The model's own tests, with expected results from spec/95_test_vectors.md or worked out by hand from a rule,
and one witness for every statement that has hypotheses: concrete states and operands that meet them. -/

namespace Sys2Proof.Tests

open Sys2Proof Sys2Proof.Machine

/-! ### States to test on -/

/-- The reset state with accumulators a test can compute with (R322 item 2). -/
def zeroed : State := { State.reset with acc := Vector.replicate 64 0#64 }

/-- A phase, with `PTR` and `REM`. -/
def inPhase (ph : Phase) (ptr rem : Word) : State := { zeroed with ph := ph, ptr := ptr, rem := rem }

/-- `rst` high, and a SETADDR that waits. -/
def heldState : State := { zeroed with rst := true, inputs := [.command 1#32 8#64] }

/-- Bytes of one value at `a .. a + n - 1`. -/
def bytes (a : Nat) : (n : Nat) → (v : Byte) → List Host.Cell
  | 0, _ => []
  | n + 1, v => (a, v) :: bytes (a + 1) n v

theorem read_bytes (v : Byte) : ∀ (n a x : Nat),
    Memory.read (bytes a n v) x = if a ≤ x ∧ x < a + n then some v else none
  | 0, a, x => by
    rw [if_neg (by omega)]
    rfl
  | n + 1, a, x => by
    simp only [bytes, Memory.read, read_bytes v n (a + 1) x]
    split
    · rw [if_pos (by omega)]
    · split
      · rw [if_pos (by omega)]
      · rw [if_neg (by omega)]

theorem mem_bytes {v : Byte} {c : Host.Cell} : ∀ {n a : Nat}, c ∈ bytes a n v → a ≤ c.1 ∧ c.1 < a + n
  | 0, _, h => by cases h
  | n + 1, a, h => by
    rcases List.mem_cons.1 h with rfl | h
    · exact ⟨Nat.le_refl a, Nat.lt_add_of_pos_right n.succ_pos⟩
    · have := mem_bytes h
      omega

theorem wf_bytes (v : Byte) : ∀ (n a : Nat), a + n ≤ 2 ^ 64 → Memory.wf (bytes a n v)
  | 0, _, _ => ⟨List.Pairwise.nil, fun _ h => by cases h⟩
  | n + 1, a, h =>
    have ih := wf_bytes v n (a + 1) (by omega)
    ⟨List.pairwise_cons.2 ⟨fun _ hd => (mem_bytes hd).1, ih.1⟩, fun c hc => by
      have := mem_bytes hc
      omega⟩

/-- Every byte the read asks for lies at `lo .. hi - 1`. -/
def within (lo hi : Nat) (r : Request) : Bool :=
  (List.range 8).all fun k => !r.2.getLsbD k || (Nat.ble lo (r.1.toNat + k) && Nat.blt (r.1.toNat + k) hi)

/-- Reads are answered if every byte they ask for is one of the `bytes`. -/
theorem readable_bytes {a n : Nat} {v : Byte} {reqs : List Request} (h : reqs.all (within a (a + n)) = true) :
    ∀ r ∈ reqs, Readable (bytes a n v) r := by
  intro r hr k hk hb
  have hw := List.all_eq_true.1 (List.all_eq_true.1 h r hr) k (List.mem_range.2 hk)
  simp only [hb, Bool.not_true, Bool.false_or, Bool.and_eq_true] at hw
  have h1 := Nat.le_of_ble_eq_true hw.1
  have h2 := Nat.le_of_ble_eq_true hw.2
  rw [read_bytes, if_pos (by omega)]
  rfl

/-- A read is refused if it asks for a byte that is none of the `bytes`. -/
theorem not_readable_bytes {a n : Nat} {v : Byte} {r : Request} (k : Nat) (hk : k < 8) (hb : r.2.getLsbD k = true)
    (h : r.1.toNat + k < a ∨ a + n ≤ r.1.toNat + k) : ¬Readable (bytes a n v) r := by
  intro hr
  have := hr k hk hb
  rw [read_bytes, if_neg (by omega)] at this
  cases this

/-- A field of the next state, and nothing of a fault or refusal. -/
def after {α : Type} (o : Host.Outcome State Fault Refusal) (f : State → α) : Option α :=
  match o with
  | .next t => some (f t)
  | .fault _ | .refused _ => none

theorem exists_next {o : Host.Outcome State Fault Refusal} (h : after o (fun _ => ()) = some ()) : ∃ t, o = .next t := by
  cases o with
  | next t => exact ⟨t, rfl⟩
  | fault r => cases h
  | refused r => cases h

/-! ### Well-formedness: the one check, and the ill-formed terms it refuses (R94) -/

theorem test_wf_refuses_selector_7 : Instr.wf (.rdsr 7#4) = false := by decide
theorem test_wf_refuses_selector_15 : Instr.wf (.rdsr 15#4) = false := by decide
theorem test_wf_accepts_selector_6 : Instr.wf (.rdsr 6#4) = true := by decide

/-! ### Decoding: words written out from the fields of R91, `rsv ++ arg ++ opc` (spec/95 section 2.7) -/

theorem test_decode_nop :
    decodeCmd (0b0000000000000000#16 ++ 0b00000000#8 ++ 0b00000000#8) 0x1234#64 = .ok .nop := by decide
theorem test_decode_setaddr :
    decodeCmd (0b0000000000000000#16 ++ 0b00000000#8 ++ 0b00000001#8) 0x1002#64 = .ok (.setaddr 0x1002#64) := by decide
theorem test_decode_setlen :
    decodeCmd (0b0000000000000000#16 ++ 0b00000000#8 ++ 0b00000010#8) 0xF8#64 = .ok (.setlen 0xF8#64) := by decide
/-- `wsel` is `arg[1:0]`; 2 is W = 32. -/
theorem test_decode_run :
    decodeCmd (0b0000000000000000#16 ++ 0b00000010#8 ++ 0b00000011#8) 0#64 = .ok (.run 2#2) := by decide
/-- `idx` is `arg[5:0]`; 0b110101 is 53. -/
theorem test_decode_accwr :
    decodeCmd (0b0000000000000000#16 ++ 0b00110101#8 ++ 0b00000100#8) 9#64 = .ok (.accwr 53 9#64) := by decide
theorem test_decode_accrd :
    decodeCmd (0b0000000000000000#16 ++ 0b00000011#8 ++ 0b00000101#8) 0#64 = .ok (.accrd 3) := by decide
/-- `sel` is `arg[3:0]`; 5 is FADDR. -/
theorem test_decode_rdsr :
    decodeCmd (0b0000000000000000#16 ++ 0b00000101#8 ++ 0b00000110#8) 0#64 = .ok (.rdsr 5#4) := by decide
theorem test_decode_errclr :
    decodeCmd (0b0000000000000000#16 ++ 0b00000000#8 ++ 0b00000111#8) 0#64 = .ok .errclr := by decide
/-- One bit too high in each field that must be zero, and the first and last reserved opcode. -/
theorem test_decode_rejects :
    [0x00000403#32, 0x00004004#32, 0x00008005#32, 0x00000706#32, 0x00000F06#32, 0x00001006#32, 0x00000107#32,
      0x00000100#32, 0x00000101#32, 0x00000008#32, 0x000000FF#32, 0x00010000#32, 0x80000003#32, 0xFFFFFFFF#32].map
        (fun c => (decodeCmd c 0#64).toOption) = List.replicate 14 none := by decide
/-- The phase codes of R96, and the order of CHUNK's two tests. -/
theorem test_decode_micro_operations :
    [decodeUop 0b001#3 false false, decodeUop 0b010#3 false false, decodeUop 0b011#3 true true,
      decodeUop 0b011#3 false true, decodeUop 0b011#3 false false, decodeUop 0b100#3 false false,
      decodeUop 0b101#3 false false].map Except.toOption =
    [some .uSetup, some .uHead, some .uExit, some .uMflush, some .uChunk, some .uResid, some .uFinal] := by decide
theorem test_decode_no_phase :
    [decodeUop 0b000#3 false false, decodeUop 0b110#3 false false, decodeUop 0b111#3 false false] =
      [.error .idle, .error .noPhase, .error .noPhase] := by decide
/-- The rows of spec/opcode_table.json, by their `match` words. -/
theorem test_decode_table_words :
    [decodeTableWord 32 0, decodeTableWord 32 1, decodeTableWord 32 2, decodeTableWord 32 3, decodeTableWord 32 4,
      decodeTableWord 32 5, decodeTableWord 32 6, decodeTableWord 32 7, decodeTableWord 8 1, decodeTableWord 8 2,
      decodeTableWord 8 3, decodeTableWord 8 4, decodeTableWord 8 5] =
    [some .nop, some (.setaddr 0#64), some (.setlen 0#64), some (.run 0#2), some (.accwr 0 0#64), some (.accrd 0),
      some (.rdsr 0#4), some .errclr, some .uSetup, some .uHead, some .uExit, some .uResid, some .uFinal] := by decide
/-- The text form of R97. -/
theorem test_asm :
    [Instr.asm (.setaddr 0x1000#64), Instr.asm (.run 2#2), Instr.asm (.accwr 5 0#64), Instr.asm (.rdsr 2#4)] =
      ["SETADDR 4096", "RUN.32", "ACCWR 5, 0", "RDSR REMN"] := by decide
/-- R98: the expansions. -/
theorem test_pseudo :
    acczExpansion 0#2 = (List.range 8).map (fun b => .accwr (Fin.ofNat 64 b) 0#64) ∧
      countExpansion 1#2 0x6000#64 240#64 = [.setaddr 0x6000#64, .setlen 240#64, .run 1#2] := by decide

/-! ### Host commands (spec/95 sections 2.8, 2.9 and P6) -/

theorem test_nop : after (exec .nop zeroed) (fun t => (t.rsps, t.err)) = some ([0#64], .noFault) := by decide
theorem test_setaddr : after (exec (.setaddr 0x1002#64) zeroed) State.addr = some 0x1002#64 := by decide
theorem test_setlen : after (exec (.setlen 10#64) zeroed) State.len = some 10#64 := by decide
/-- ALIGN: `0x1002 mod 4 = 2`. -/
theorem test_run_align :
    after (exec (.run 2#2) { zeroed with addr := 0x1002#64, len := 10#64, done := true })
      (fun t => (t.status, t.ph)) = some (0x020#64, .idle) := by decide
/-- RANGE at `2^64`, and not at `2^64 - 1`. -/
theorem test_run_range :
    after (exec (.run 3#2) { zeroed with addr := 0xFFFFFFFFFFFFFFF8#64, len := 8#64 })
      (fun t => (t.status, t.ph)) = some (0x030#64, .idle) ∧
    after (exec (.run 0#2) { zeroed with addr := 0xFFFFFFFFFFFFFFF8#64, len := 7#64 })
      (fun t => (t.err, t.ph)) = some (.noFault, .setup) := by decide
theorem test_accwr :
    after (exec (.accwr 5 0xDEADBEEF#64) zeroed) (fun t => (t.acc[5], t.acc[4], t.acc[6])) =
      some (0xDEADBEEF#64, 0#64, 0#64) := by decide
theorem test_accrd :
    after (exec (.accrd 5) { zeroed with acc := zeroed.acc.set 5 0xDEADBEEF#64 }) State.rsps =
      some [0xDEADBEEF#64] := by decide
/-- STATUS 0x311 is `ERR = 1`, `WSEL = 3`, `DONE = 1` (P6 line 15). -/
theorem test_rdsr_status :
    after (exec (.rdsr 0#4) { zeroed with err := .illcmd, wsel := 3#2, done := true }) State.rsps =
      some [0x311#64] := by decide
/-- After `RUN.16` with `REM = 10`, REMN is 5. -/
theorem test_rdsr_remn :
    after (exec (.rdsr 2#4) { zeroed with rem := 10#64, wsel := 1#2, done := true }) State.rsps = some [5#64] := by
  decide
theorem test_errclr :
    after (exec .errclr { zeroed with err := .bus, sat := true, faddr := 0x3128#64, wsel := 2#2 })
      (fun t => (t.status, t.faddr)) = some (0x200#64, 0#64) := by decide
/-- An illegal word leaves `DONE`, and the first fault stays (P6 line 7). -/
theorem test_illegal_word :
    after (step { zeroed with err := .align, done := true, inputs := [.command 0x00010000#32 0#64] })
      (fun t => (t.status, t.rsps, t.inputs)) = some (0x021#64, [0#64], []) := by decide

/-! ### Micro-operations (spec/95 sections 2.4, 2.6, P1 and P5) -/

/-- V-SETUP row 5: no work, and the remainder is the original length. -/
theorem test_setup_no_work :
    after (exec .uSetup { inPhase .setup 9#64 9#64 with addr := 0x1007#64, len := 112#64, ep := 3#4 })
      (fun t => (t.rem, t.ptr, t.done, t.ph, t.ep)) = some (112#64, 0x1000#64, true, .idle, 0#4) := by decide
/-- V-SETUP row 4: one valid byte in the first word is work. -/
theorem test_setup_work :
    after (exec .uSetup { inPhase .setup 9#64 9#64 with addr := 0x1007#64, len := 113#64 })
      (fun t => (t.rem, t.ptr, t.done, t.ph)) = some (120#64, 0x1000#64, false, .head) := by decide
/-- Section 2.6, the row `0x1007, 113`: the foreign bytes of the first word are not asked for. -/
theorem test_head_misaligned :
    after (exec .uHead
      { inPhase .head 0x1000#64 120#64 with
        addr := 0x1007#64, len := 113#64, mem := (0x1007, 0xFF#8) :: bytes 0x1008 112 0x01#8 })
      (fun t => (t.ptr, t.rem, t.ph, (t.reads.take 2).map Prod.snd)) =
    some (0x1078#64, 0#64, .chunk, [0x80#8, 0xFF#8]) := by decide +kernel
/-- One word of bytes 0xFF and 14 of bytes 0x01: 15 in lanes 0, 8, ..., 56 and 1 in the others. -/
theorem test_head_planes :
    after (exec .uHead
      { inPhase .head 0x1000#64 120#64 with
        addr := 0x1000#64, len := 120#64, mem := bytes 0x1000 8 0xFF#8 ++ bytes 0x1008 112 0x01#8 })
      (fun t => [0, 1, 8, 55, 56, 63].map t.pl.value) = some [15, 1, 15, 1, 15, 1] := by decide +kernel
/-- The BUS fault at word 2 of the head: two words answered, three reads issued, nothing else changed. -/
theorem test_head_bus :
    after (exec .uHead { inPhase .head 0x1000#64 120#64 with addr := 0x1000#64, len := 120#64, mem := bytes 0x1000 20 0#8 })
      (fun t => (t.err, t.faddr, t.ptr, t.rem, t.ph, t.reads.length)) =
    some (.bus, 0x1010#64, 0x1000#64, 120#64, .idle, 3) := by decide +kernel
theorem test_exit : after (exec .uExit (inPhase .chunk 0x1078#64 0#64)) State.ph = some .resid := by decide
/-- R163: eight counters of 3 wrap an accumulator that holds `2^64 - 10`. -/
theorem test_mflush_wraps :
    after (exec .uMflush
      { inPhase .chunk 0x1078#64 128#64 with
        acc := zeroed.acc.set 0 0xFFFFFFFFFFFFFFF6#64, cb := Vector.replicate 64 3#8, ep := 15#4 })
      (fun t => (t.acc[0], t.acc[1], t.acc[8], t.cb[63], t.ep)) = some (14#64, 24#64, 0#64, 0#8, 0#4) := by
  decide +kernel
/-- 15 carried in and 16 all-ones words: 31 in every lane. -/
theorem test_chunk_full :
    after (exec .uChunk
      { inPhase .chunk 0x1000#64 130#64 with
        pl := ⟨BitVec.allOnes 64, BitVec.allOnes 64, BitVec.allOnes 64, BitVec.allOnes 64⟩
        cb := Vector.replicate 64 224#8, ep := 14#4, mem := bytes 0x1000 128 0xFF#8 })
      (fun t => (t.pl.value 63, [t.cb[0], t.cb[63]], t.ep, t.sat, t.ptr, t.rem)) =
    some (15, [240#8, 240#8], 15#4, false, 0x1080#64, 2#64) := by decide +kernel
/-- P5: the seventh read of the second chunk asks for the unreadable byte 0x312C. -/
theorem test_chunk_bus :
    after (exec .uChunk { inPhase .chunk 0x30F8#64 128#64 with ep := 1#4, mem := bytes 0x30F8 52 0x81#8 })
      (fun t => (t.status, t.faddr, t.ep, t.ptr, t.rem, t.reads.length)) =
    some (0x040#64, 0x3128#64, 1#4, 0x30F8#64, 128#64, 7) := by decide +kernel
/-- Section 2.4: the planes of the nibble view's second row on counters of 16. -/
theorem test_resid :
    after (exec .uResid
      { inPhase .resid 0x1078#64 0#64 with
        pl := ⟨0x8000000000010001#64, 0x8000000000000002#64, 0x8000000000010000#64, 0x8000000000000004#64⟩
        cb := Vector.replicate 64 16#8 })
      (fun t => ([t.cb[0], t.cb[1], t.cb[2], t.cb[16], t.cb[63], t.cb[3]], t.pl, t.ph)) =
    some ([17#8, 18#8, 24#8, 21#8, 31#8, 16#8], Planes.zero, .final) := by decide +kernel
/-- Section 2.4: the flush of `CB[i] = i` at W = 16 leaves `ACC[b] = 96 + 4*b`. -/
theorem test_final :
    after (exec .uFinal
      { inPhase .final 0x1078#64 0#64 with cb := Vector.ofFn (fun i => BitVec.ofNat 8 i.val), wsel := 1#2 })
      (fun t => (t.acc[0], t.acc[15], t.acc[16], t.done, t.ph)) = some (96#64, 156#64, 0#64, true, .idle) := by
  decide +kernel

/-! ### The datapath (spec/95 sections 2.1 to 2.5) -/

theorem test_csa : csa 0x0F#64 0x33#64 0x55#64 = (0x69#64, 0x17#64) := by decide
/-- `w[j] = (1 << (j+1)) - 1`: the binary counting pattern. -/
theorem test_head_tree :
    head15 (fun j => 1#64 <<< (j.val + 1) - 1#64) = ⟨0x5555#64, 0x3333#64, 0x0F0F#64, 0x00FF#64⟩ := by decide +kernel
theorem test_chunk_tree :
    chunk16 ⟨0xF0#64, 0x3#64, 0#64, 0x1#64⟩ (fun j => 1#64 <<< (j.val + 1) - 1#64) =
      (⟨0xAA5A#64, 0x66C5#64, 0x1E3C#64, 0x01FD#64⟩, 0x3#64) := by decide +kernel
/-- 240 and 15 fit; 240 and 16 clip and set `SAT` (R151). -/
theorem test_saturation :
    (cbadd 7 15 ⟨Vector.replicate 64 240#8, false⟩).cb[7] = 255#8 ∧
    (cbadd 7 15 ⟨Vector.replicate 64 240#8, false⟩).sat = false ∧
    (cbadd 7 16 ⟨Vector.replicate 64 240#8, false⟩).cb[7] = 255#8 ∧
    (cbadd 7 16 ⟨Vector.replicate 64 240#8, false⟩).sat = true := by decide +kernel
theorem test_nibble_view :
    (List.range 4).map (nibbleView
      ⟨0x8000000000010001#64, 0x8000000000000002#64, 0x8000000000010000#64, 0x8000000000000004#64⟩) =
    [0x821#64, 0x5#64, 0#64, 0xF000000000000000#64] := by decide +kernel
/-- Section 2.5: the byte at the lowest address is the low byte of the word. -/
theorem test_read_is_little_endian :
    memReadBE [(0x1000, 0x11#8), (0x1001, 0x22#8), (0x1002, 0x33#8), (0x1003, 0x44#8), (0x1004, 0x55#8), (0x1005, 0x66#8),
      (0x1006, 0x77#8), (0x1007, 0x88#8)] 0 0x1000 0xFF#8 = some 0x8877665544332211#64 := by decide

/-- R320: a chunk is abandoned when `rst` goes high; a SETADDR presented then waits while it is high; when it goes low the
registers stay. -/
theorem test_rst_goes_high :
    let s := { inPhase .chunk 0x1000#64 200#64 with addr := 8#64, inputs := [.rst true, .command 1#32 24#64] }
    after (step s) (fun t => (t.rst, t.ph, t.ptr, t.addr, t.rsps)) = some (true, .idle, 0#64, 0#64, []) := by
  decide +kernel
theorem test_rst_holds :
    after (step heldState) (fun t => (t.rst, t.addr, t.rsps)) = some (true, 0#64, []) ∧
    after (step { heldState with inputs := .rst false :: heldState.inputs }) (fun t => (t.rst, t.addr, t.inputs)) =
      some (false, 0#64, heldState.inputs) := by
  decide +kernel

/-! ### A table word placed from reset is what the next step runs -/

/-- Every row's word gives a next state as the first instruction after reset. -/
theorem test_placed_words_run :
    [(32, 0), (32, 1), (32, 2), (32, 3), (32, 4), (32, 5), (32, 6), (32, 7), (8, 1), (8, 2), (8, 3), (8, 4), (8, 5)].map
      (fun p : Nat × Nat => (after (step (State.reset.withFetchWord p.1 p.2)) (fun t => t.ph)).isSome) =
    List.replicate 13 true := by decide +kernel

/-! ### Witnesses: encoding -/

theorem witness_DecodeOfEncode : Instr.wf (.rdsr 6#4) = true ∧ Instr.wf (.accwr 63 0#64) = true := by decide
theorem witness_EncodeOfDecode :
    decodeCmd 0x00003F04#32 5#64 = .ok (.accwr 63 5#64) ∧ decodeCmd 0x00000606#32 5#64 = .ok (.rdsr 6#4) := by decide
/-- Each row, the words with the highest and the lowest selector on either side of the bound, and a word of no row. -/
theorem witness_MatchMaskTable :
    0x00000000#32 &&& 0xFFFFFFFF#32 = 0x00000000#32 ∧ 0x00000001#32 &&& 0xFFFFFFFF#32 = 0x00000001#32 ∧
    0x00000002#32 &&& 0xFFFFFFFF#32 = 0x00000002#32 ∧ 0x00000303#32 &&& 0xFFFFFCFF#32 = 0x00000003#32 ∧
    0x00003F04#32 &&& 0xFFFFC0FF#32 = 0x00000004#32 ∧ 0x00003F05#32 &&& 0xFFFFC0FF#32 = 0x00000005#32 ∧
    (0x00000606#32 &&& 0xFFFFF0FF#32 = 0x00000006#32 ∧ ((0x00000606#32).extractLsb' 8 4).toNat ≤ 6) ∧
    (0x00000706#32 &&& 0xFFFFF0FF#32 = 0x00000006#32 ∧ 7 ≤ ((0x00000706#32).extractLsb' 8 4).toNat) ∧
    0x00000007#32 &&& 0xFFFFFFFF#32 = 0x00000007#32 ∧ ∀ r ∈ cmdTable, r.selects 0x00000008#32 = false := by decide
/-- One word for each ground of R94, at its boundary. -/
theorem witness_IllegalWordsRaiseIllcmd :
    IllegalWord 0x00000008#32 ∧ IllegalWord 0x00010000#32 ∧ IllegalWord 0x00000100#32 ∧ IllegalWord 0x00000107#32 ∧
    IllegalWord 0x00000403#32 ∧ IllegalWord 0x00004004#32 ∧ IllegalWord 0x00004005#32 ∧ IllegalWord 0x00000706#32 ∧
    IllegalWord 0x00001006#32 := by
  simp [IllegalWord]
/-- The premises of `RaisesIllcmd`, which several statements conclude with. -/
theorem witness_RaisesIllcmd :
    let s := { zeroed with inputs := [.command 0x00000008#32 0#64] }
    s.ph = .idle ∧ s.rst = false ∧ s.inputs = .command 0x00000008#32 0#64 :: [] := by decide
/-- Each phase, and CHUNK with `REM` and `EP` on either side of the tests. -/
theorem witness_SequencerSelection :
    (inPhase .setup 0#64 0#64).ph = .setup ∧ (inPhase .head 0#64 0#64).ph = .head ∧
    ((inPhase .chunk 0#64 127#64).ph = .chunk ∧ (inPhase .chunk 0#64 127#64).rem.toNat < 128) ∧
    (let s := { inPhase .chunk 0#64 128#64 with ep := 15#4 }
     s.ph = .chunk ∧ 128 ≤ s.rem.toNat ∧ s.ep = 15#4) ∧
    (let s := { inPhase .chunk 0#64 128#64 with ep := 14#4 }
     s.ph = .chunk ∧ 128 ≤ s.rem.toNat ∧ s.ep ≠ 15#4) ∧
    (inPhase .resid 0#64 0#64).ph = .resid ∧ (inPhase .final 0#64 0#64).ph = .final ∧ zeroed.ph = .idle := by decide
theorem witness_PlacedWordRuns :
    decodeTableWord 32 0x303 = some (.run 3#2) ∧ decodeTableWord 8 3 = some .uExit ∧
      decodeTableWord 8 0b01011 = some .uChunk ∧ decodeTableWord 8 0b11011 = some .uMflush := by decide

/-! ### Witnesses: the step -/

theorem witness_StepRunsTheDecodedInstruction :
    (let s := { zeroed with inputs := [.command 0x00000505#32 0#64] }
     s.rst = false ∧ s.ph = .idle ∧ s.inputs = .command 0x00000505#32 0#64 :: [] ∧
       decodeCmd 0x00000505#32 0#64 = .ok (.accrd 5)) ∧
    (let s := inPhase .resid 0#64 0#64
     s.rst = false ∧ s.selectUop = .ok .uResid ∧ s.inputs = []) ∧
    (let s := { inPhase .resid 0#64 0#64 with inputs := [.command 0#32 0#64] }
     s.rst = false ∧ s.selectUop = .ok .uResid ∧ s.inputs = .command 0#32 0#64 :: []) ∧
    (let s := { inPhase .resid 0#64 0#64 with inputs := [.wait] }
     s.rst = false ∧ s.selectUop = .ok .uResid ∧ s.inputs = .wait :: []) := by decide
theorem witness_CommandWaitsWhileBusy :
    let s := { inPhase .head 0x1000#64 120#64 with inputs := [.command 8#32 0#64] }
    s.ph ≠ .idle ∧ s.rst = false ∧ s.inputs = .command 8#32 0#64 :: [] := by decide
theorem witness_IdleHoldsItsState : zeroed.ph = .idle ∧ zeroed.inputs = [] := by decide
/-- `rst` goes high during a RUN, and again a state with it high: a command waits, and `rst` goes low. -/
theorem witness_ResetValues :
    (let s := { inPhase .chunk 0#64 200#64 with inputs := [.rst true] }
     s.rst = false ∧ s.inputs = .rst true :: []) ∧
    (let s := { zeroed with rst := true, inputs := [.command 1#32 8#64] }
     s.rst = true ∧ s.AtReset ∧ s.inputs = .command 1#32 8#64 :: []) ∧
    (let s := { zeroed with rst := true, inputs := [.rst false, .command 1#32 8#64] }
     s.rst = true ∧ s.AtReset ∧ s.inputs = .rst false :: [.command 1#32 8#64]) := by decide
theorem witness_OutsideChangesMemoryOnly :
    (let s := { zeroed with mem := bytes 3 2 1#8, inputs := [.store 4#64 0xFF#8] }
     Memory.wf s.mem ∧ s.inputs = .store 4#64 0xFF#8 :: []) ∧
    (let s := { zeroed with mem := bytes 3 2 1#8, inputs := [.withdraw 4#64] }
     Memory.wf s.mem ∧ s.inputs = .withdraw 4#64 :: []) := by decide

/-! ### Witnesses: host commands -/

theorem witness_NopChangesNothing : (0x00000100#32).toNat % 256 = 0 ∧ 0x00000100#32 ≠ 0#32 := by decide
theorem witness_SetaddrSetlenWriteTheirRegister :
    ((0x00000101#32).toNat % 256 = 1 ∧ (0x00000101#32).toNat / 256 ≠ 0) ∧
    ((0x00010002#32).toNat % 256 = 2 ∧ (0x00010002#32).toNat / 256 ≠ 0) := by decide
/-- The highest end address RUN admits, at the widest elements that can reach it. -/
theorem witness_RunStarts :
    State.Launchable { zeroed with addr := 0xFFFFFFFFFFFFFFF0#64, len := 8#64 } 3#2 :=
  ⟨by decide, by decide, by decide, by decide, by decide, by decide⟩
theorem witness_RunChecksInOrder :
    ({ zeroed with err := .illcmd }).err ≠ .noFault ∧
    (let s := { zeroed with addr := 1#64, len := 2#64 }
     s.err = .noFault ∧ ¬(s.addr.toNat % 2 ^ (1#2).toNat = 0 ∧ s.len.toNat % 2 ^ (1#2).toNat = 0)) ∧
    (let s := { zeroed with addr := 0xFFFFFFFFFFFFFFF8#64, len := 8#64 }
     s.err = .noFault ∧ (s.addr.toNat % 2 ^ (3#2).toNat = 0 ∧ s.len.toNat % 2 ^ (3#2).toNat = 0) ∧
       ¬s.addr.toNat + s.len.toNat < 2 ^ 64) ∧
    (let s := { zeroed with addr := 0xFFFFFFFFFFFFFFF8#64, len := 7#64 }
     s.err = .noFault ∧ (s.addr.toNat % 2 ^ (0#2).toNat = 0 ∧ s.len.toNat % 2 ^ (0#2).toNat = 0) ∧
       s.addr.toNat + s.len.toNat < 2 ^ 64) ∧
    ((0x00000403#32).toNat % 256 = 3 ∧ 4 ≤ (0x00000403#32).toNat / 256) := by decide
theorem witness_AccwrWritesOneAccumulator :
    (0 : Fin 64) ≠ 63 ∧ (0x00004004#32).toNat % 256 = 4 ∧ 64 ≤ (0x00004004#32).toNat / 256 := by decide
theorem witness_AccrdReadsOneAccumulator :
    (0x00004005#32).toNat % 256 = 5 ∧ 64 ≤ (0x00004005#32).toNat / 256 := by decide
theorem witness_RdsrReadsTheSelectedRegister :
    7 ≤ (7#4).toNat ∧ (6#4).toNat ≤ 6 ∧ (0x00000706#32).toNat % 256 = 6 ∧ 7 ≤ (0x00000706#32).toNat / 256 := by decide
theorem witness_ErrclrClearsTheRecord : (0x00000107#32).toNat % 256 = 7 ∧ (0x00000107#32).toNat / 256 ≠ 0 := by decide
theorem witness_AcczZeroesTheAccumulators :
    let s := { zeroed with
      inputs := (acczExpansion 0#2).map fun i =>
        match encode i with
        | .cmd c opnd => .command c opnd
        | .uop _ _ _ => .wait }
    s.ph = .idle ∧ s.rst = false ∧ s.inputs = ((acczExpansion 0#2).map fun i =>
      match encode i with
      | .cmd c opnd => Input.command c opnd
      | .uop _ _ _ => .wait) ++ [] := by decide

/-! ### Witnesses: micro-operations -/

/-- A head at a misaligned buffer of 113 bytes, whose first word has one byte of it. -/
def headState : State :=
  { inPhase .head 0x1000#64 120#64 with addr := 0x1007#64, len := 113#64, mem := bytes 0x1007 113 0x5A#8 }

/-- The same, with the last byte of the head missing. -/
def headStateShort : State := { headState with mem := bytes 0x1007 112 0x5A#8 }

/-- A chunk that ends where the readable bytes end. -/
def chunkState : State := { inPhase .chunk 0x1078#64 128#64 with ep := 14#4, mem := bytes 0x1078 128 0xA5#8 }

/-- The same, with its last byte missing. -/
def chunkStateShort : State := { chunkState with mem := bytes 0x1078 127 0xA5#8 }

theorem witness_SetupPreparesTheRun :
    (let s := { zeroed with addr := 0x1007#64, len := 112#64 }
     s.len.toNat + s.addr.toNat % 8 < 120) ∧
    (let s := { zeroed with addr := 0x1007#64, len := 113#64 }
     120 ≤ s.len.toNat + s.addr.toNat % 8) := by decide
theorem witness_HeadReducesFifteenWords :
    headState.memStalled = false ∧ ∀ r ∈ headState.headRequests, Readable headState.mem r :=
  ⟨rfl, readable_bytes (by decide +kernel)⟩
/-- The last read of the head is the one that is refused. -/
theorem witness_HeadBusFault :
    headStateShort.memStalled = false ∧
    headStateShort.headRequests = headStateShort.headRequests.take 14 ++ (0x1070#64, 0xFF#8) :: [] ∧
    (∀ q ∈ headStateShort.headRequests.take 14, Readable headStateShort.mem q) ∧
    ¬Readable headStateShort.mem (0x1070#64, 0xFF#8) :=
  ⟨rfl, by decide +kernel, readable_bytes (by decide +kernel),
    not_readable_bytes 7 (by decide) (by decide) (by decide)⟩
/-- Foreign bytes that are unreadable in the one memory and readable in the other. -/
theorem witness_HeadIgnoresForeignBytes :
    (∀ a, a < headState.ptr.toNat ∨ headState.ptr.toNat + headState.misalign ≤ a →
      Memory.read ((0x1000, 0xFF#8) :: headState.mem) a = Memory.read headState.mem a) ∧
    ∃ t, exec .uHead headState = .next t := by
  refine ⟨fun a h => ?_, exists_next (by decide +kernel)⟩
  have : (0x1000 : Nat) ≠ a := by
    rintro rfl
    revert h
    decide
  simp [Memory.read, this]
theorem witness_ChunkConsumesSixteenWords :
    chunkState.memStalled = false ∧ ∀ r ∈ chunkState.chunkRequests, Readable chunkState.mem r :=
  ⟨rfl, readable_bytes (by decide +kernel)⟩
theorem witness_ChunkBusFault :
    chunkStateShort.memStalled = false ∧
    chunkStateShort.chunkRequests = chunkStateShort.chunkRequests.take 15 ++ (0x10F0#64, 0xFF#8) :: [] ∧
    (∀ q ∈ chunkStateShort.chunkRequests.take 15, Readable chunkStateShort.mem q) ∧
    ¬Readable chunkStateShort.mem (0x10F0#64, 0xFF#8) :=
  ⟨rfl, by decide +kernel, readable_bytes (by decide +kernel),
    not_readable_bytes 7 (by decide) (by decide) (by decide)⟩
theorem witness_SilentMemoryHoldsTheStep : ({ headState with memStalled := true }).memStalled = true := rfl

/-! ### Witnesses: the datapath -/

theorem witness_CsaLaneLaw : 63 < 64 := by decide
theorem witness_SaturatingCounterAdd : (62 : Fin 64) ≠ 63 := by decide
theorem witness_NibbleViewHoldsTheLanes : 3 < 4 ∧ 15 < 16 := by decide
theorem witness_ReadPrimitiveIsLittleEndian :
    (memReadBE (bytes 0x1000 8 0x5A#8) 0 (0x1000#64).toNat 0xFF#8).isSome = true ∧ 7 < 8 ∧
      (0xFF#8).getLsbD 7 = true := by decide
theorem witness_HeadMaskTable : 7 < 8 ∧ 6 < 7 ∧ 7 ≤ 7 := by decide
/-- The first lane of a buffer that starts in the middle of a word, and the last lane of its last word. -/
theorem witness_LanesAreElementBits :
    let s := { zeroed with addr := 0x1002#64, len := 14#64 }
    s.addr.toNat % Config.elemSize 1#2 = 0 ∧
    (16 < 64 ∧ 8 * s.misalign ≤ 64 * 0 + 16 ∧ 64 * 0 + 16 < 8 * (s.misalign + s.len.toNat)) ∧
    (63 < 64 ∧ 8 * s.misalign ≤ 64 * 1 + 63 ∧ 64 * 1 + 63 < 8 * (s.misalign + s.len.toNat)) := by decide

/-! ### Witnesses: invariants -/

/-- A state that meets the invariant in HEAD. -/
theorem headState_inv : headState.Inv where
  memory := wf_bytes _ _ _ (by decide)
  held := by decide
  noSat := by decide
  running := by decide
  rested := by decide
  remainder := by decide
  fresh := by decide +kernel
  pointer := by decide
  ending := by decide
  headroom := by decide
  residual := by decide
  folded := by decide

/-- A state that meets the invariant in CHUNK, with every counter as high as `EP = 14` allows. -/
def chunkInvState : State :=
  { chunkState with
    addr := 0x1000#64, len := 248#64, cb := Vector.replicate 64 224#8
    pl := ⟨BitVec.allOnes 64, BitVec.allOnes 64, BitVec.allOnes 64, BitVec.allOnes 64⟩ }

theorem chunkInvState_inv : chunkInvState.Inv where
  memory := wf_bytes _ _ _ (by decide)
  held := by decide
  noSat := by decide
  running := by decide
  rested := by decide
  remainder := by decide
  fresh := by decide
  pointer := by decide
  ending := by decide
  headroom := by decide +kernel
  residual := by decide
  folded := by decide

/-- The states whose last read is refused meet it too. -/
theorem headStateShort_inv : headStateShort.Inv where
  memory := wf_bytes _ _ _ (by decide)
  held := by decide
  noSat := by decide
  running := by decide
  rested := by decide
  remainder := by decide
  fresh := by decide +kernel
  pointer := by decide
  ending := by decide
  headroom := by decide +kernel
  residual := by decide +kernel
  folded := by decide

def chunkInvStateShort : State := { chunkInvState with mem := bytes 0x1078 127 0xA5#8 }

theorem chunkInvStateShort_inv : chunkInvStateShort.Inv where
  memory := wf_bytes _ _ _ (by decide)
  held := by decide
  noSat := by decide
  running := by decide
  rested := by decide
  remainder := by decide
  fresh := by decide +kernel
  pointer := by decide
  ending := by decide
  headroom := by decide +kernel
  residual := by decide +kernel
  folded := by decide

/-- The invariant in the other phases, the counters and planes as high as it allows. -/
def setupState : State := { inPhase .setup 9#64 9#64 with addr := 0x1007#64, len := 113#64, ep := 3#4 }

theorem setupState_inv : setupState.Inv where
  memory := by decide
  held := by decide
  noSat := by decide
  running := by decide
  rested := by decide
  remainder := by decide
  fresh := by decide +kernel
  pointer := by decide
  ending := by decide
  headroom := by decide +kernel
  residual := by decide +kernel
  folded := by decide

def exitState : State :=
  { chunkInvState with ptr := 0x10F8#64, rem := 0#64, ep := 15#4, cb := Vector.replicate 64 240#8 }

theorem exitState_inv : exitState.Inv where
  memory := wf_bytes _ _ _ (by decide)
  held := by decide
  noSat := by decide
  running := by decide
  rested := by decide
  remainder := by decide
  fresh := by decide +kernel
  pointer := by decide
  ending := by decide
  headroom := by decide +kernel
  residual := by decide +kernel
  folded := by decide

def flushState : State := { chunkInvState with ep := 15#4, cb := Vector.replicate 64 240#8 }

theorem flushState_inv : flushState.Inv where
  memory := wf_bytes _ _ _ (by decide)
  held := by decide
  noSat := by decide
  running := by decide
  rested := by decide
  remainder := by decide
  fresh := by decide +kernel
  pointer := by decide
  ending := by decide
  headroom := by decide +kernel
  residual := by decide +kernel
  folded := by decide

def residState : State := { exitState with ph := .resid }

theorem residState_inv : residState.Inv where
  memory := wf_bytes _ _ _ (by decide)
  held := by decide
  noSat := by decide
  running := by decide
  rested := by decide
  remainder := by decide
  fresh := by decide +kernel
  pointer := by decide
  ending := by decide
  headroom := by decide +kernel
  residual := by decide +kernel
  folded := by decide

def finalState : State :=
  { exitState with ph := .final, cb := Vector.replicate 64 255#8, pl := Planes.zero }

theorem finalState_inv : finalState.Inv where
  memory := wf_bytes _ _ _ (by decide)
  held := by decide
  noSat := by decide
  running := by decide
  rested := by decide
  remainder := by decide
  fresh := by decide +kernel
  pointer := by decide
  ending := by decide
  headroom := by decide +kernel
  residual := by decide +kernel
  folded := by decide

/-- It meets the invariant, with `rst` high. -/
theorem heldState_inv : heldState.Inv where
  memory := by decide
  held := by decide
  noSat := by decide
  running := by decide
  rested := by decide
  remainder := by decide
  fresh := by decide
  pointer := by decide
  ending := by decide
  headroom := by decide
  residual := by decide
  folded := by decide

theorem witness_InvariantKept :
    (chunkInvState.Inv ∧ ∃ t, step chunkInvState = .next t) ∧ heldState.Inv ∧ ∃ t, step heldState = .next t :=
  ⟨⟨chunkInvState_inv, exists_next (by decide +kernel)⟩, heldState_inv, exists_next (by decide +kernel)⟩

/-- The state some steps from reset, with the outside acting as `ins` says. -/
def fromReset (n : Nat) (ins : List Input) : State :=
  match Host.Core.run Sys2Proof.core n { State.reset with inputs := ins } with
  | .next s => s
  | .fault _ | .refused _ => State.reset

/-- What `fromReset` names is reachable, if the run went on so far. -/
theorem fromReset_reachable {n : Nat} {ins : List Input}
    (h : ∃ s, Host.Core.run Sys2Proof.core n { State.reset with inputs := ins } = .next s) :
    Reachable (fromReset n ins) := by
  obtain ⟨s, hs⟩ := h
  refine ⟨ins, n, ?_⟩
  unfold fromReset
  rw [hs]

/-- The outside makes `n` bytes at 0 readable, sets `LEN` and starts a RUN.8. -/
def loadAndRun (n : Nat) (len : Word) : List Input :=
  (List.range n).map (fun k => .store (BitVec.ofNat 64 (n - 1 - k)) 0xFF#8) ++
    [.command 0x00000002#32 len, .command 0x00000003#32 0#64]

/-- A zero-length RUN from reset: `DONE = 1` in IDLE after two steps. -/
theorem witness_ReachableStateInvariants_done :
    Reachable (fromReset 2 [.command 0x00000003#32 0#64]) ∧
    (fromReset 2 [.command 0x00000003#32 0#64]).ph = .idle ∧
    (fromReset 2 [.command 0x00000003#32 0#64]).done = true :=
  ⟨fromReset_reachable (exists_next (by decide +kernel)), by decide +kernel, by decide +kernel⟩

/-- HEAD from reset, three steps. -/
theorem witness_ReachableStateInvariants_head :
    Reachable (fromReset 3 (loadAndRun 0 120#64)) ∧ (fromReset 3 (loadAndRun 0 120#64)).ph = .head :=
  ⟨fromReset_reachable (exists_next (by decide +kernel)), by decide +kernel⟩

/-- CHUNK from reset, after a head of 120 readable bytes. -/
theorem witness_ReachableStateInvariants_chunk :
    Reachable (fromReset 124 (loadAndRun 120 120#64)) ∧ (fromReset 124 (loadAndRun 120 120#64)).ph = .chunk :=
  ⟨fromReset_reachable (exists_next (by decide +kernel)), by decide +kernel⟩

/-- RESID and FINAL from reset, one and two steps later. -/
theorem witness_ReachableStateInvariants_resid :
    Reachable (fromReset 125 (loadAndRun 120 120#64)) ∧ (fromReset 125 (loadAndRun 120 120#64)).ph = .resid :=
  ⟨fromReset_reachable (exists_next (by decide +kernel)), by decide +kernel⟩
theorem witness_ReachableStateInvariants_final :
    Reachable (fromReset 126 (loadAndRun 120 120#64)) ∧ (fromReset 126 (loadAndRun 120 120#64)).ph = .final :=
  ⟨fromReset_reachable (exists_next (by decide +kernel)), by decide +kernel⟩

/-- `DONE = 1` with 119 bytes left. -/
theorem witness_RemainderIsWholeElements :
    Reachable (fromReset 3 (loadAndRun 0 119#64)) ∧ (fromReset 3 (loadAndRun 0 119#64)).done = true :=
  ⟨fromReset_reachable (exists_next (by decide +kernel)), by decide +kernel⟩

/-! ### Witnesses: rules of the whole machine -/

theorem witness_EachRegisterHasItsWriters : ∃ t, exec .uMflush chunkState = .next t := exists_next (by decide +kernel)

/-- A step that sets `DONE`, one of each kind that clears it, and the frame of the others. -/
theorem witness_DoneRisesAndFalls :
    (let s := inPhase .final 0#64 0#64
     after (step s) State.done = some true ∧ s.done = false) ∧
    (let s := { inPhase .setup 0#64 0#64 with len := 119#64 }
     after (step s) State.done = some true ∧ s.done = false) ∧
    (let s := { zeroed with done := true, inputs := [.command 3#32 0#64] }
     after (step s) State.done = some false ∧ s.done = true) ∧
    (let s := { zeroed with done := true, inputs := [.rst true] }
     after (step s) State.done = some false ∧ s.done = true) := by decide +kernel
/-- ERRCLR and reset, each on a recorded BUS fault. -/
theorem witness_FirstFaultWins :
    (let s := { zeroed with err := .bus, faddr := 8#64, inputs := [.command 7#32 0#64] }
     s.err ≠ .noFault ∧ after (step s) (fun t => decide (t.err ≠ s.err ∨ t.faddr ≠ s.faddr)) = some true) ∧
    (let s := { zeroed with err := .bus, faddr := 8#64, inputs := [.rst true] }
     s.err ≠ .noFault ∧ after (step s) (fun t => decide (t.err ≠ s.err ∨ t.faddr ≠ s.faddr)) = some true) := by
  decide +kernel
theorem witness_FaultPinFallsOnErrclrOrReset :
    (let s := { zeroed with err := .bus, inputs := [.command 7#32 0#64] }
     s.faultPin = true ∧ after (step s) State.faultPin = some false) ∧
    (let s := { zeroed with sat := true, inputs := [.command 7#32 0#64] }
     s.sat = true ∧ after (step s) State.sat = some false) := by decide +kernel

/-- Each row of R180's table, at the boundary of its condition. -/
theorem witness_PhaseTransitions :
    (let s := { inPhase .setup 0#64 0#64 with addr := 0x1007#64, len := 112#64 }
     s.inputs = [] ∧ s.rst = false ∧ s.memStalled = false ∧ s.ph = .setup ∧ s.adjustedLen < 120) ∧
    (let s := { inPhase .setup 0#64 0#64 with addr := 0x1007#64, len := 113#64 }
     s.inputs = [] ∧ s.rst = false ∧ s.memStalled = false ∧ s.ph = .setup ∧ 120 ≤ s.adjustedLen) ∧
    (headState.inputs = [] ∧ headState.rst = false ∧ headState.ph = .head) ∧
    (headStateShort.inputs = [] ∧ headStateShort.rst = false ∧ headStateShort.ph = .head) ∧
    (let s := inPhase .chunk 0#64 127#64
     s.inputs = [] ∧ s.rst = false ∧ s.memStalled = false ∧ s.ph = .chunk ∧ s.rem.toNat < 128) ∧
    (let s := { inPhase .chunk 0#64 128#64 with ep := 15#4 }
     s.inputs = [] ∧ s.rst = false ∧ s.memStalled = false ∧ s.ph = .chunk ∧ 128 ≤ s.rem.toNat ∧ s.ep = 15#4) ∧
    (chunkState.inputs = [] ∧ chunkState.rst = false ∧ chunkState.ph = .chunk ∧
      128 ≤ chunkState.rem.toNat ∧ chunkState.ep ≠ 15#4) ∧
    (chunkStateShort.inputs = [] ∧ chunkStateShort.rst = false ∧ chunkStateShort.ph = .chunk ∧
      128 ≤ chunkStateShort.rem.toNat ∧ chunkStateShort.ep ≠ 15#4) ∧
    (inPhase .resid 0#64 0#64).ph = .resid ∧ (inPhase .final 0#64 0#64).ph = .final := by decide
/-- The reads of the four states above: answered, refused, answered, refused. -/
theorem witness_PhaseTransitions_reads :
    (∀ r ∈ headState.headRequests, Readable headState.mem r) ∧
    (∃ r ∈ headStateShort.headRequests, ¬Readable headStateShort.mem r) ∧
    (∀ r ∈ chunkState.chunkRequests, Readable chunkState.mem r) ∧
    (∃ r ∈ chunkStateShort.chunkRequests, ¬Readable chunkStateShort.mem r) :=
  ⟨witness_HeadReducesFifteenWords.2,
    ⟨_, witness_HeadBusFault.2.1 ▸ List.mem_append_right _ List.mem_cons_self, witness_HeadBusFault.2.2.2⟩,
    witness_ChunkConsumesSixteenWords.2,
    ⟨_, witness_ChunkBusFault.2.1 ▸ List.mem_append_right _ List.mem_cons_self, witness_ChunkBusFault.2.2.2⟩⟩

/-- The lanes 0 and 7 bound those of width 8, and a step from each state below is a next state. -/
theorem witness_CountsAreExact_lane :
    (7 : Fin 64).val < Config.width 0#2 ∧ ∀ s ∈ [setupState, headState, headStateShort, chunkInvState,
      chunkInvStateShort, exitState, flushState, residState, finalState], s.wsel = 0#2 ∧
        after (step s) (fun _ => ()) = some () := by decide +kernel
theorem witness_CountsAreExact_setup : setupState.Inv ∧ setupState.undisturbed ∧ setupState.ph = .setup :=
  ⟨setupState_inv, .inl rfl, rfl⟩
theorem witness_CountsAreExact_head :
    headState.Inv ∧ headState.undisturbed ∧ headState.ph = .head ∧ headState.memStalled = false ∧
      ∀ r ∈ headState.headRequests, Readable headState.mem r :=
  ⟨headState_inv, .inl rfl, rfl, witness_HeadReducesFifteenWords⟩
theorem witness_CountsAreExact_head_refused :
    headStateShort.Inv ∧ headStateShort.undisturbed ∧ headStateShort.ph = .head ∧
      ∃ r ∈ headStateShort.headRequests, ¬Readable headStateShort.mem r :=
  ⟨headStateShort_inv, .inl rfl, rfl, witness_PhaseTransitions_reads.2.1⟩
theorem witness_CountsAreExact_chunk :
    chunkInvState.Inv ∧ chunkInvState.undisturbed ∧ chunkInvState.ph = .chunk ∧ 128 ≤ chunkInvState.rem.toNat ∧
      chunkInvState.ep ≠ 15#4 ∧ chunkInvState.memStalled = false ∧
      ∀ r ∈ chunkInvState.chunkRequests, Readable chunkInvState.mem r :=
  ⟨chunkInvState_inv, .inl rfl, rfl, by decide, by decide, witness_ChunkConsumesSixteenWords⟩
theorem witness_CountsAreExact_chunk_refused :
    chunkInvStateShort.Inv ∧ chunkInvStateShort.undisturbed ∧ chunkInvStateShort.ph = .chunk ∧
      ∃ r ∈ chunkInvStateShort.chunkRequests, ¬Readable chunkInvStateShort.mem r :=
  ⟨chunkInvStateShort_inv, .inl rfl, rfl, witness_PhaseTransitions_reads.2.2.2⟩
theorem witness_CountsAreExact_exit :
    exitState.Inv ∧ exitState.undisturbed ∧ exitState.ph = .chunk ∧ exitState.rem.toNat < 128 :=
  ⟨exitState_inv, .inl rfl, rfl, by decide⟩
theorem witness_CountsAreExact_flush :
    flushState.Inv ∧ flushState.undisturbed ∧ flushState.ph = .chunk ∧ flushState.ep = 15#4 :=
  ⟨flushState_inv, .inl rfl, rfl, rfl⟩
theorem witness_CountsAreExact_resid : residState.Inv ∧ residState.undisturbed ∧ residState.ph = .resid :=
  ⟨residState_inv, .inl rfl, rfl⟩
theorem witness_CountsAreExact_final : finalState.Inv ∧ finalState.undisturbed ∧ finalState.ph = .final :=
  ⟨finalState_inv, .inl rfl, rfl⟩
/-- The invariant does not speak of the inputs or the stall flag. -/
theorem inv_with {s : State} (h : s.Inv) (ins : List Input) (on : Bool) :
    State.Inv { s with inputs := ins, memStalled := on } :=
  ⟨h.memory, h.held, h.noSat, h.running, h.rested, h.remainder, h.fresh, h.pointer, h.ending, h.headroom, h.residual,
    h.folded⟩
/-- A stalled memory, a waiting command, a `wait`, and the three acts of the outside, in the middle of a RUN. -/
theorem witness_CountsAreExact_outside :
    (let s := { chunkInvState with inputs := [.command 0#32 0#64], memStalled := true }
     s.Inv ∧ s.undisturbed ∧ s.ph = .chunk ∧ s.memStalled = true) ∧
    (let s := { chunkInvState with inputs := [.wait], memStalled := true }
     s.Inv ∧ ∃ rest, s.inputs = .wait :: rest) ∧
    (let s := { chunkInvState with inputs := [.store 0#64 1#8], memStalled := false }
     s.Inv ∧ ∃ a v rest, s.inputs = .store a v :: rest) ∧
    (let s := { chunkInvState with inputs := [.withdraw 0#64], memStalled := false }
     s.Inv ∧ ∃ a rest, s.inputs = .withdraw a :: rest) ∧
    (let s := { chunkInvState with inputs := [.stall true], memStalled := false }
     s.Inv ∧ ∃ on rest, s.inputs = .stall on :: rest) :=
  ⟨⟨inv_with chunkInvState_inv _ _, .inr ⟨_, _, _, rfl⟩, rfl, rfl⟩, ⟨inv_with chunkInvState_inv _ _, _, rfl⟩,
    ⟨inv_with chunkInvState_inv _ _, _, _, _, rfl⟩, ⟨inv_with chunkInvState_inv _ _, _, _, rfl⟩,
    ⟨inv_with chunkInvState_inv _ _, _, _, rfl⟩⟩

/-! ### Witnesses: a completed RUN -/

/-- A misaligned buffer of 113 bytes, work; and the same buffer less its last byte, no work. -/
def runState (len : Nat) : State :=
  { zeroed with addr := 0x1007#64, len := BitVec.ofNat 64 len, mem := bytes 0x1007 len 0x5A#8 }

theorem runState_readable {len : Nat} (h : len < 2 ^ 64) : (runState len).bufferReadable := by
  intro k hk
  have hk : k < len := by
    have : (runState len).len.toNat = len := Nat.mod_eq_of_lt h
    omega
  show (Memory.read (bytes 0x1007 len 0x5A#8) ((0x1007#64).toNat + k)).isSome = true
  rw [read_bytes, if_pos (by simp; omega)]
  rfl

theorem runState_launchable {len : Nat} (h : len ∈ [112, 113]) : (runState len).Launchable 0#2 := by
  refine ⟨rfl, rfl, rfl, Nat.mod_one _, Nat.mod_one _, ?_⟩
  revert len
  decide

theorem runState_small {len : Nat} (h : len ∈ [112, 113]) : len < 2 ^ 64 := by
  simp at h
  omega

theorem witness_CompletedRunCounts :
    ∀ len ∈ [112, 113], (runState len).Launchable 0#2 ∧ (runState len).sat = false ∧
      (runState len).memStalled = false ∧ (runState len).undisturbed ∧ (runState len).bufferReadable :=
  fun _ h => ⟨runState_launchable h, rfl, rfl, .inl rfl, runState_readable (runState_small h)⟩

/-- With a command that waits. -/
theorem witness_CompletedRunReads :
    ∀ len ∈ [112, 113], ∀ ins ∈ [[], [Input.command 0#32 0#64, .rst true]],
      let s := { runState len with inputs := ins }
      s.Launchable 0#2 ∧ s.memStalled = false ∧ s.undisturbed ∧ s.bufferReadable := by
  intro len h ins hi
  have hl := runState_launchable h
  refine ⟨⟨hl.ready, hl.released, hl.noFault, hl.addrAligned, hl.lenAligned, hl.inRange⟩, rfl, ?_,
    runState_readable (runState_small h)⟩
  simp only [List.mem_cons, List.not_mem_nil, or_false] at hi
  rcases hi with rfl | rfl
  · exact .inl rfl
  · exact .inr ⟨_, _, _, rfl⟩

/-- The bytes on either side of the buffer change, the memory stalls and resumes, and `rst` is driven low, as it was. -/
def otherActs : List Input :=
  [.wait, .rst false, .store 0x1006#64 0xFF#8, .stall true, .wait, .withdraw 0x1078#64, .stall false]

theorem witness_CompletedRunAmongOtherActs :
    let s := { runState 113 with inputs := otherActs ++ [Input.command 0#32 0#64] }
    s.Launchable 0#2 ∧ s.sat = false ∧ s.bufferReadable ∧ s.inputs = otherActs ++ [.command 0#32 0#64] ∧
      (∀ x ∈ otherActs, x.spares s.addr.toNat s.len.toNat = true) ∧ stalledAfter s.memStalled otherActs = false ∧
      ∃ c opnd tail, [Input.command 0#32 0#64] = Input.command c opnd :: tail := by
  have hl := runState_launchable (len := 113) (by decide)
  exact ⟨⟨hl.ready, hl.released, hl.noFault, hl.addrAligned, hl.lenAligned, hl.inRange⟩, rfl,
    runState_readable (by decide), rfl, by decide, rfl, _, _, _, rfl⟩

theorem witness_ZeroLengthIsNoWork :
    (let s := { zeroed with addr := 0x1006#64 }
     s.ph = .idle ∧ s.rst = false ∧ s.err = .noFault ∧ s.len = 0#64 ∧ s.inputs = [] ∧
       s.addr.toNat % Config.elemSize 1#2 = 0) ∧
    (let s := { zeroed with addr := 0x1006#64 }
     s.ph = .idle ∧ s.rst = false ∧ s.err = .noFault ∧ s.len = 0#64 ∧ s.inputs = [] ∧
       s.addr.toNat % Config.elemSize 2#2 ≠ 0) := by
  decide
theorem witness_ReferenceIsAdditive :
    31 < Config.width 2#2 ∧ [1#8, 2#8, 3#8, 4#8].length % Config.elemSize 2#2 = 0 ∧
      ([] : List Byte).length % Config.elemSize 2#2 = 0 := by decide

end Sys2Proof.Tests
end

/-! PROOFS. What an instruction can change: the writers of each register (R20). -/

namespace Sys2Proof.Machine

/-! ### What an instruction can do: the inversion of those whose effect depends on the state -/

/-- Only the reserved selectors select no register (R94, R226). -/
theorem State.register_eq_none {s : State} {sel : BitVec 4} (h : s.register sel = none) : selectorOk sel = false := by
  unfold State.register at h
  split at h <;> simp_all [selectorOk]
  omega

/-- RDSR answers a register and changes nothing, unless its selector is reserved (R226, R94). -/
theorem exec_rdsr_cases {sel : BitVec 4} {s t : State} (h : exec (.rdsr sel) s = .next t) :
    (∃ v, t = s.respond v) ∨ (selectorOk sel = false ∧ t = s.afterIllcmd) := by
  simp only [exec, execRdsr] at h
  cases hv : s.register sel with
  | some v =>
    rw [hv] at h
    exact .inl ⟨v, (Host.Outcome.next.inj h).symm⟩
  | none =>
    rw [hv] at h
    exact .inr ⟨State.register_eq_none hv, (Host.Outcome.next.inj h).symm⟩

/-- `u.SETUP` clears planes and bank, puts `PTR` at the word of `ADDR`, and ends the RUN or goes on to HEAD (R181). -/
theorem exec_uSetup_cases {s t : State} (h : exec .uSetup s = .next t) :
    (s.adjustedLen < 120 ∧
      t = { s with
        pl := Planes.zero, cb := Vector.replicate 64 0#8, ep := 0#4, ptr := s.addr - BitVec.ofNat 64 s.misalign
        rem := s.len, done := true, ph := .idle }) ∨
    (120 ≤ s.adjustedLen ∧
      t = { s with
        pl := Planes.zero, cb := Vector.replicate 64 0#8, ep := 0#4, ptr := s.addr - BitVec.ofNat 64 s.misalign
        rem := BitVec.ofNat 64 s.adjustedLen, ph := .head }) := by
  simp only [exec, execUSetup] at h
  split at h <;> rename_i hl
  · exact .inl ⟨hl, (Host.Outcome.next.inj h).symm⟩
  · exact .inr ⟨Nat.le_of_not_lt hl, (Host.Outcome.next.inj h).symm⟩

/-- What a micro-operation that reads can come to: untaken, its effect on the words read, or BUS (R71, R283; log 6). -/
theorem withBlock_next_cases {s t : State} {reqs : List Request} {k : List Word → State → State}
    (h : (.next (s.withBlock reqs k) : Host.Outcome State Fault Refusal) = .next t) :
    t = s ∨ (∃ ws, t = k ws (s.issue reqs)) ∨ ∃ a issued, t = (s.issue issued).raise (.bus a) := by
  obtain rfl := Host.Outcome.next.inj h
  rcases s.withBlock_cases reqs k with ⟨-, e⟩ | ⟨ws, -, -, -, e⟩ | ⟨pre, r, -, -, -, -, e⟩
  · exact .inl e
  · exact .inr (.inl ⟨ws, e⟩)
  · exact .inr (.inr ⟨r.1, pre ++ [r], e⟩)

/-- RUN answers 0 and clears `DONE`, and then raises a fault, starts, or does neither (R223). -/
theorem exec_run_cases {w : BitVec 2} {s t : State} (h : exec (.run w) s = .next t) :
    (s.err ≠ .noFault ∧ t = { s with done := false, rsps := s.rsps ++ [0#64] }) ∨
    (s.err = .noFault ∧ ∃ e, t = { s with done := false, rsps := s.rsps ++ [0#64], err := e }) ∨
    (s.err = .noFault ∧ s.alignedFor w = true ∧ s.inRange = true ∧
      t = { s with done := false, rsps := s.rsps ++ [0#64], wsel := w, ph := .setup }) := by
  obtain rfl := Host.Outcome.next.inj h
  rcases launch_cases w ({ s with done := false }.respond 0#64) with
    ⟨he, e⟩ | ⟨he, -, e⟩ | ⟨he, -, -, e⟩ | ⟨he, ha, hr, e⟩
  · exact .inl ⟨he, e⟩
  · exact .inr (.inl ⟨he, _, e⟩)
  · exact .inr (.inl ⟨he, _, e⟩)
  · exact .inr (.inr ⟨he, ha, hr, e⟩)

/-- Settles O50, instruction by instruction: each field of the next state is the old one, or the instruction is among
its writers. -/
theorem eachRegisterHasItsWriters : Obligations.EachRegisterHasItsWriters := by
  intro i s t h
  cases i with
  | nop | setaddr | setlen | accwr | accrd | errclr =>
    obtain rfl := Host.Outcome.next.inj h
    simp [Instr.isCommand]
  | run w =>
    rcases exec_run_cases h with ⟨-, rfl⟩ | ⟨-, e, rfl⟩ | ⟨-, -, -, rfl⟩ <;> simp [Instr.isCommand]
  | rdsr sel =>
    rcases exec_rdsr_cases h with ⟨v, rfl⟩ | ⟨hs, rfl⟩
    · simp [Instr.isCommand]
    · simp [Instr.isCommand, Instr.wf, hs, State.afterIllcmd]
  | uSetup =>
    rcases exec_uSetup_cases h with ⟨-, rfl⟩ | ⟨-, rfl⟩ <;> simp [Instr.isCommand]
  | uHead =>
    rcases withBlock_next_cases h with rfl | ⟨ws, rfl⟩ | ⟨a, issued, rfl⟩
    · simp [Instr.isCommand]
    · simp [Instr.isCommand, headEffect]
    · simp [Instr.isCommand]
  | uChunk =>
    rcases withBlock_next_cases h with rfl | ⟨ws, rfl⟩ | ⟨a, issued, rfl⟩
    · simp [Instr.isCommand]
    · simp [Instr.isCommand, chunkEffect, State.cbemit]
    · simp [Instr.isCommand]
  | uExit | uMflush | uFinal =>
    obtain rfl := Host.Outcome.next.inj h
    simp [Instr.isCommand]
  | uResid =>
    obtain rfl := Host.Outcome.next.inj h
    simp [Instr.isCommand, State.cbresid]

end Sys2Proof.Machine

/-! PROOFS. What a step can change: the fault record (R27, R28, R34) and `DONE` (R26). -/

namespace Sys2Proof.Machine

/-! ### What a step does to the block -/

/-- Everything a step can do to the block: the selected micro-operation, an accepted command, an illegal one, reset, or
nothing, where only the outside has acted and `rst` has not gone high. -/
theorem step_block_cases {s t : State} (h : step s = .next t) :
    (∃ i ins, s.rst = false ∧ s.selectUop = .ok i ∧ exec i { s with inputs := ins } = .next t) ∨
    (∃ c opnd rest i, s.ph = .idle ∧ s.rst = false ∧ s.inputs = .command c opnd :: rest ∧ decodeCmd c opnd = .ok i ∧
      exec i { s with inputs := rest } = .next t) ∨
    (∃ rest, s.ph = .idle ∧ s.rst = false ∧ t = State.afterIllcmd { s with inputs := rest }) ∨
    (∃ rest, s.rst = false ∧ s.inputs = .rst true :: rest ∧ t = State.assertReset { s with inputs := rest }) ∨
    (∃ m on r ins, (Memory.wf s.mem → Memory.wf m) ∧ (r = true → s.rst = true) ∧
      t = { s with mem := m, memStalled := on, rst := r, inputs := ins }) := by
  rcases step_cases h with ⟨i, ins, -, hr, hi, he⟩ | ⟨ins, -, -, rfl⟩ | ⟨c, v, rest, i, hin, hp, hr, hd, he⟩ |
    ⟨c, v, rest, -, -, hp, hr, -, rfl⟩ | ⟨a, v, rest, -, rfl⟩ | ⟨a, rest, -, rfl⟩ | ⟨on, rest, -, rfl⟩ |
    ⟨rest, hin, hr, rfl⟩ | ⟨on, rest, -, hr, rfl⟩
  · exact .inl ⟨i, ins, hr, hi, he⟩
  · exact .inr (.inr (.inr (.inr ⟨_, _, _, _, id, id, rfl⟩)))
  · exact .inr (.inl ⟨c, v, rest, i, hp, hr, hin, hd, he⟩)
  · exact .inr (.inr (.inl ⟨rest, hp, hr, rfl⟩))
  · exact .inr (.inr (.inr (.inr ⟨_, _, _, _, fun hm => Memory.wf_write hm a v, id, rfl⟩)))
  · exact .inr (.inr (.inr (.inr ⟨_, _, _, _, fun hm => Memory.wf_withdraw hm a.toNat, id, rfl⟩)))
  · exact .inr (.inr (.inr (.inr ⟨_, _, _, _, id, id, rfl⟩)))
  · exact .inr (.inr (.inr (.inl ⟨rest, hr, hin, rfl⟩)))
  · exact .inr (.inr (.inr (.inr ⟨_, _, _, _, id, fun e => hr.resolve_left (by simp [e]), rfl⟩)))

/-- The sequencer selects micro-operations, and only outside IDLE (R96). -/
theorem State.selectUop_ok {s : State} {i : Instr} (h : s.selectUop = .ok i) : s.ph ≠ .idle ∧ i.isCommand = false := by
  rcases State.selectUop_cases h with ⟨hp, rfl⟩ | ⟨hp, rfl⟩ | ⟨hp, -, rfl⟩ | ⟨hp, -, -, rfl⟩ | ⟨hp, -, -, rfl⟩ |
    ⟨hp, rfl⟩ | ⟨hp, rfl⟩ <;> exact ⟨by simp [hp], rfl⟩

/-- The command decoder yields host commands (R90). -/
theorem decodeCmd_isCommand {c : BitVec 32} {opnd : Word} {i : Instr} (h : decodeCmd c opnd = .ok i) :
    i.isCommand = true := by
  simp only [decodeCmd, decodePlain, decodeRun, decodeIndexed, decodeRdsr] at h
  repeat' split at h
  all_goals cases h <;> rfl

/-! ### The fault record -/

/-- No instruction but ERRCLR changes a record that has been made, or clears `SAT` (R27, R28, R34). -/
theorem exec_keeps_record {i : Instr} {s t : State} (hi : i ≠ .errclr) (h : exec i s = .next t) :
    (s.err ≠ .noFault → t.err = s.err ∧ t.faddr = s.faddr) ∧ (s.sat = true → t.sat = true) := by
  cases i with
  | errclr => exact absurd rfl hi
  | nop | setaddr | setlen | accwr | accrd | uExit | uMflush | uFinal =>
    obtain rfl := Host.Outcome.next.inj h
    simp
  | uResid =>
    obtain rfl := Host.Outcome.next.inj h
    simp +contextual [State.cbresid, cbaddAll_sat]
  | run w =>
    rcases exec_run_cases h with ⟨-, rfl⟩ | ⟨he, e, rfl⟩ | ⟨-, -, -, rfl⟩
    · simp
    · simp [he]
    · simp
  | rdsr sel =>
    rcases exec_rdsr_cases h with ⟨v, rfl⟩ | ⟨-, rfl⟩ <;> simp +contextual [State.afterIllcmd]
  | uSetup =>
    rcases exec_uSetup_cases h with ⟨-, rfl⟩ | ⟨-, rfl⟩ <;> simp
  | uHead =>
    rcases withBlock_next_cases h with rfl | ⟨ws, rfl⟩ | ⟨a, issued, rfl⟩ <;> simp +contextual [headEffect]
  | uChunk =>
    rcases withBlock_next_cases h with rfl | ⟨ws, rfl⟩ | ⟨a, issued, rfl⟩ <;>
      simp +contextual [chunkEffect, State.cbemit, cbaddAll_sat]

/-- An ERRCLR accepted at the port, or `rst` going high: the two ends of a fault record (R288, R320). -/
def State.recordEnds (s : State) : Prop :=
  (∃ c opnd rest, s.ph = .idle ∧ s.rst = false ∧ s.inputs = .command c opnd :: rest ∧ decodeCmd c opnd = .ok .errclr) ∨
    (s.rst = false ∧ ∃ rest, s.inputs = .rst true :: rest)

/-- A step keeps the record that has been made and `SAT`, or it is one that ends both (R27, R28, R34). -/
theorem step_keeps_record {s t : State} (h : step s = .next t) :
    ((s.err ≠ .noFault → t.err = s.err ∧ t.faddr = s.faddr) ∧ (s.sat = true → t.sat = true)) ∨
      (s.recordEnds ∧ t.err = .noFault ∧ t.faddr = 0#64) := by
  rcases step_block_cases h with ⟨i, ins, -, hi, he⟩ | ⟨c, v, rest, i, hp, hr, hin, hd, he⟩ | ⟨rest, -, -, rfl⟩ |
    ⟨rest, hr, hin, rfl⟩ | ⟨m, on, r, ins, -, -, rfl⟩
  · have hc : i ≠ .errclr := by
      rintro rfl
      cases (State.selectUop_ok hi).2
    have keep := exec_keeps_record hc he
    exact .inl keep
  · by_cases hc : i = .errclr
    · subst hc
      obtain rfl := Host.Outcome.next.inj he
      exact .inr ⟨.inl ⟨c, v, rest, hp, hr, hin, hd⟩, rfl, rfl⟩
    · have keep := exec_keeps_record hc he
      exact .inl keep
  · exact .inl ⟨fun e => ⟨if_neg e, rfl⟩, id⟩
  · exact .inr ⟨.inr ⟨hr, rest, hin⟩, by simp, by simp⟩
  · exact .inl ⟨fun _ => ⟨rfl, rfl⟩, id⟩

/-- The `fault` pin is high exactly with a recorded fault or `SAT` (R29). -/
theorem State.faultPin_iff (s : State) : s.faultPin = true ↔ s.err ≠ .noFault ∨ s.sat = true := by
  have code : s.err.code = 0#4 ↔ s.err = .noFault := by cases s.err <;> decide
  simp [State.faultPin, code]

/-- Settles O52: a step that changes a record is one that ends it. -/
theorem firstFaultWins : Obligations.FirstFaultWins := by
  intro s t h hs hchange
  rcases step_keeps_record h with ⟨hkeep, -⟩ | ⟨hend, herr, hfaddr⟩
  · obtain ⟨he, hf⟩ := hkeep hs
    exact absurd hchange (by simp [he, hf])
  · exact ⟨herr, hfaddr, hend⟩

/-- Settles O53: a step that ends no record keeps `SAT` and what the `fault` pin is made of. -/
theorem faultPinFallsOnErrclrOrReset : Obligations.FaultPinFallsOnErrclrOrReset := by
  intro s t h hfall
  rcases step_keeps_record h with ⟨herr, hsat⟩ | ⟨hend, -, -⟩
  · have hpin : s.faultPin = true → t.faultPin = true := by
      simp only [State.faultPin_iff]
      exact Or.imp (fun e => (herr e).1 ▸ e) hsat
    rcases hfall with ⟨hs, ht⟩ | ⟨hs, ht⟩
    · simp [hpin hs] at ht
    · simp [hsat hs] at ht
  · exact hend

/-! ### DONE -/

/-- What changes `DONE`: RUN clears it, the two exits to IDLE set it, a BUS fault clears it (R26, R283). -/
theorem exec_done_cases {i : Instr} {s t : State} (h : exec i s = .next t) (hd : t.done ≠ s.done) :
    (∃ w, i = .run w ∧ t.done = false) ∨
    (t.done = true ∧ t.ph = .idle ∧ (i = .uFinal ∨ i = .uSetup ∧ s.adjustedLen < 120)) ∨
    (t.done = false ∧ t.ph = .idle ∧ t.err ≠ .noFault ∧ i.isCommand = false) := by
  cases i with
  | nop | setaddr | setlen | accwr | accrd | errclr | uExit | uMflush | uResid =>
    obtain rfl := Host.Outcome.next.inj h
    simp [State.cbresid] at hd
  | rdsr sel =>
    rcases exec_rdsr_cases h with ⟨v, rfl⟩ | ⟨-, rfl⟩ <;> simp [State.afterIllcmd] at hd
  | run w =>
    rcases exec_run_cases h with ⟨-, rfl⟩ | ⟨-, e, rfl⟩ | ⟨-, -, -, rfl⟩ <;> exact .inl ⟨w, rfl, rfl⟩
  | uFinal =>
    obtain rfl := Host.Outcome.next.inj h
    exact .inr (.inl ⟨rfl, rfl, .inl rfl⟩)
  | uSetup =>
    rcases exec_uSetup_cases h with ⟨hl, rfl⟩ | ⟨-, rfl⟩
    · exact .inr (.inl ⟨rfl, rfl, .inr ⟨rfl, hl⟩⟩)
    · simp at hd
  | uHead | uChunk =>
    rcases withBlock_next_cases h with rfl | ⟨ws, rfl⟩ | ⟨a, issued, rfl⟩
    · simp at hd
    · simp [headEffect, chunkEffect, State.cbemit] at hd
    · refine .inr (.inr ⟨rfl, rfl, ?_, rfl⟩)
      simp only [State.raise_bus_err]
      split <;> simp_all

theorem exec_done_rises {i : Instr} {s t : State} (h : exec i s = .next t) (hs : s.done = false) (ht : t.done = true) :
    t.ph = .idle ∧ (i = .uFinal ∨ i = .uSetup ∧ s.adjustedLen < 120) := by
  rcases exec_done_cases h (by simp [hs, ht]) with ⟨-, -, hf⟩ | ⟨-, rise⟩ | ⟨hf, -⟩
  · simp [ht] at hf
  · exact rise
  · simp [ht] at hf

theorem exec_done_falls {i : Instr} {s t : State} (h : exec i s = .next t) (hs : s.done = true) (ht : t.done = false) :
    (∃ w, i = .run w) ∨ (t.ph = .idle ∧ t.err ≠ .noFault ∧ i.isCommand = false) := by
  rcases exec_done_cases h (by simp [hs, ht]) with ⟨w, hi, -⟩ | ⟨hf, -⟩ | ⟨-, bus⟩
  · exact .inl ⟨w, hi⟩
  · simp [ht] at hf
  · exact .inr bus

/-- Settles O51: of the micro-operations only the two exits to IDLE set `DONE` and only a BUS fault clears it; of the
commands none sets it and only RUN clears it. -/
theorem doneRisesAndFalls : Obligations.DoneRisesAndFalls := by
  intro s t h
  rcases step_block_cases h with ⟨i, ins, -, hi, he⟩ | ⟨c, v, rest, i, hp, hr, hin, hd, he⟩ | ⟨rest, -, -, rfl⟩ |
    ⟨rest, hr, hin, rfl⟩ | ⟨m, on, r, ins, -, -, rfl⟩
  · obtain ⟨hbusy, huop⟩ := State.selectUop_ok hi
    refine ⟨fun hs ht => ?_, fun hs ht => ?_⟩
    · obtain ⟨hidle, rfl | ⟨rfl, hl⟩⟩ := exec_done_rises he hs ht
      · exact ⟨hidle, .inl (by simpa using State.selectUop_cases hi)⟩
      · exact ⟨hidle, .inr ⟨by simpa using State.selectUop_cases hi, hl⟩⟩
    · rcases exec_done_falls he hs ht with ⟨w, rfl⟩ | ⟨hidle, herr, -⟩
      · cases huop
      · exact .inr (.inl ⟨hbusy, hidle, herr⟩)
  · have hcmd := decodeCmd_isCommand hd
    refine ⟨fun hs ht => ?_, fun hs ht => ?_⟩
    · obtain ⟨-, rfl | ⟨rfl, -⟩⟩ := exec_done_rises he hs ht <;> cases hcmd
    · rcases exec_done_falls he hs ht with ⟨w, rfl⟩ | ⟨-, -, huop⟩
      · exact .inl ⟨c, v, rest, w, hp, hr, hin, hd⟩
      · simp [hcmd] at huop
  · simp +contextual [State.afterIllcmd]
  · exact ⟨by simp, fun _ _ => .inr (.inr ⟨hr, rest, hin⟩)⟩
  · simp +contextual

end Sys2Proof.Machine

/-! PROOFS. The invariant of every step (R40) and what it says of reachable states. -/

namespace Sys2Proof.Machine

/-! ### The invariant, phase by phase -/

/-- What `State.Inv` asks in every phase of a RUN: the facts that hold from its start to its end. -/
structure State.Running (s : State) : Prop where
  memory : Memory.wf s.mem
  released : s.rst = false
  noSat : s.sat = false
  noFault : s.err = .noFault
  notDone : s.done = false
  aligned : s.alignedFor s.wsel = true
  inRange : s.inRange = true

/-- `PTR` is word-aligned and `REM` bytes before the end of the buffer (R40 line 3). -/
def State.OnTrack (s : State) : Prop := s.ptr.toNat % 8 = 0 ∧ s.ptr.toNat + s.rem.toNat = s.addr.toNat + s.len.toNat

theorem State.Inv.toRunning {s : State} (h : s.Inv) (hr : s.rst = false) (hp : s.ph ≠ .idle) : s.Running := by
  obtain ⟨he, hd, ha, hi⟩ := h.running hp
  exact ⟨h.memory, hr, h.noSat, he, hd, ha, hi⟩

/-- The facts of a RUN are about no register that a micro-operation other than the last writes, but `SAT`. -/
theorem State.Running.frame {s t : State} (h : s.Running) (hs : t.sat = false)
    (ht : t = { s with acc := t.acc, pl := t.pl, cb := t.cb, ep := t.ep, ptr := t.ptr, rem := t.rem, ph := t.ph,
                       sat := t.sat, reads := t.reads }) : t.Running := by
  rw [ht]
  exact ⟨h.memory, h.released, hs, h.noFault, h.notDone, h.aligned, h.inRange⟩

theorem State.inv_of_idle {s : State} (hp : s.ph = .idle) (memory : Memory.wf s.mem) (held : s.rst = true → s.AtReset)
    (noSat : s.sat = false) (rested : s.done = true → s.pl = Planes.zero ∧ s.bankClear)
    (remainder : s.done = true → s.rem.toNat % Config.elemSize s.wsel = 0) : s.Inv where
  memory := memory
  held := held
  noSat := noSat
  running := by simp [hp]
  rested := fun _ => rested
  remainder := remainder
  fresh := by simp [hp]
  pointer := by simp [hp]
  ending := by simp [hp]
  headroom := by simp [hp]
  residual := by simp [hp]
  folded := by simp [hp]

section
variable {s : State} (h : s.Running)
include h

/-- During a RUN the invariant is the facts of the RUN and the lines of the phase. -/
theorem State.Running.inv (hp : s.ph ≠ .idle)
    (fresh : s.ph = .head →
      s.pl = Planes.zero ∧ s.bankClear ∧ 120 ≤ s.rem.toNat ∧ s.ptr.toNat = s.addr.toNat - s.misalign)
    (pointer : s.ph ≠ .setup → s.OnTrack)
    (ending : s.ph = .resid ∨ s.ph = .final → s.rem.toNat < 128)
    (headroom : s.ph = .chunk → ∀ i : Fin 64, s.cb[i.val].toNat % 16 = 0 ∧ s.cb[i.val].toNat ≤ 16 * s.ep.toNat)
    (residual : s.ph = .resid → ∀ i : Fin 64, s.cb[i.val].toNat ≤ 240)
    (folded : s.ph = .final → s.pl = Planes.zero) : s.Inv where
  memory := h.memory
  held := by simp [h.released]
  noSat := h.noSat
  running := fun _ => ⟨h.noFault, h.notDone, h.aligned, h.inRange⟩
  rested := fun e => absurd e hp
  remainder := by simp [h.notDone]
  fresh := fresh
  pointer := fun e => pointer (by rcases e with e | e | e | e <;> simp [e])
  ending := ending
  headroom := headroom
  residual := residual
  folded := folded

theorem State.Running.inv_of_setup (hp : s.ph = .setup) : s.Inv := by
  apply h.inv <;> simp [hp]

theorem State.Running.inv_of_head (hp : s.ph = .head) (hpl : s.pl = Planes.zero) (hcb : s.bankClear)
    (hrem : 120 ≤ s.rem.toNat) (hptr : s.ptr.toNat = s.addr.toNat - s.misalign) (ht : s.OnTrack) : s.Inv :=
  h.inv (by simp [hp]) (fun _ => ⟨hpl, hcb, hrem, hptr⟩) (fun _ => ht) (by simp [hp]) (by simp [hp]) (by simp [hp])
    (by simp [hp])

theorem State.Running.inv_of_chunk (hp : s.ph = .chunk) (ht : s.OnTrack)
    (hcb : ∀ i : Fin 64, s.cb[i.val].toNat % 16 = 0 ∧ s.cb[i.val].toNat ≤ 16 * s.ep.toNat) : s.Inv :=
  h.inv (by simp [hp]) (by simp [hp]) (fun _ => ht) (by simp [hp]) (fun _ => hcb) (by simp [hp]) (by simp [hp])

theorem State.Running.inv_of_resid (hp : s.ph = .resid) (ht : s.OnTrack) (hrem : s.rem.toNat < 128)
    (hcb : ∀ i : Fin 64, s.cb[i.val].toNat ≤ 240) : s.Inv :=
  h.inv (by simp [hp]) (by simp [hp]) (fun _ => ht) (fun _ => hrem) (by simp [hp]) (fun _ => hcb) (by simp [hp])

theorem State.Running.inv_of_final (hp : s.ph = .final) (ht : s.OnTrack) (hrem : s.rem.toNat < 128)
    (hpl : s.pl = Planes.zero) : s.Inv :=
  h.inv (by simp [hp]) (by simp [hp]) (fun _ => ht) (fun _ => hrem) (by simp [hp]) (by simp [hp]) (fun _ => hpl)

end

/-! ### Every step keeps the invariant -/

/-- A BUS fault ends the RUN with `DONE = 0`, and the invariant holds whatever the read has left (R283). -/
theorem State.Running.inv_of_bus {s : State} (h : s.Running) (a : Word) (issued : List Request) :
    ((s.issue issued).raise (.bus a)).Inv :=
  State.inv_of_idle rfl h.memory (by simp [h.released]) h.noSat (by simp) (by simp)

/-- The outside changing memory or its turn, with `rst` not going high, keeps the invariant. -/
theorem State.Inv.outside {s : State} (h : s.Inv) {m : List Host.Cell} (on : Bool) {r : Bool} (ins : List Input)
    (hm : Memory.wf m) (hr : r = true → s.rst = true) :
    State.Inv { s with mem := m, memStalled := on, rst := r, inputs := ins } where
  memory := hm
  held := fun e => h.held (hr e)
  noSat := h.noSat
  running := h.running
  rested := h.rested
  remainder := h.remainder
  fresh := h.fresh
  pointer := h.pointer
  ending := h.ending
  headroom := h.headroom
  residual := h.residual
  folded := h.folded

theorem State.alignedFor_iff (s : State) (w : BitVec 2) : s.alignedFor w = true ↔
    s.addr.toNat % Config.elemSize w = 0 ∧ s.len.toNat % Config.elemSize w = 0 := by
  simp [State.alignedFor]

theorem State.inRange_iff (s : State) : s.inRange = true ↔ s.addr.toNat + s.len.toNat < 2 ^ 64 := by
  simp [State.inRange]

/-- The element size divides the word size (R35). -/
theorem elemSize_dvd_eight (w : BitVec 2) : Config.elemSize w ∣ 8 := by
  revert w
  decide

/-- `PTR` as `u.SETUP` leaves it: the address of the word that holds `ADDR` (R181). -/
theorem State.toNat_addr_sub_misalign (s : State) :
    (s.addr - BitVec.ofNat 64 s.misalign).toNat = s.addr.toNat - s.misalign := by
  have := s.addr.isLt
  simp only [State.misalign, BitVec.toNat_sub, BitVec.toNat_ofNat]
  omega

theorem State.Running.inv_after_uSetup {s t : State} (h : s.Running) (he : exec .uSetup s = .next t) : t.Inv := by
  have hrange := s.inRange_iff.1 h.inRange
  rcases exec_uSetup_cases he with ⟨-, rfl⟩ | ⟨hl, rfl⟩
  · exact State.inv_of_idle rfl h.memory (by simp [h.released]) h.noSat (fun _ => ⟨rfl, rfl, rfl⟩)
      fun _ => ((s.alignedFor_iff _).1 h.aligned).2
  · have hrem : (BitVec.ofNat 64 s.adjustedLen).toNat = s.len.toNat + s.addr.toNat % 8 := by
      simp only [BitVec.toNat_ofNat, State.adjustedLen, State.misalign]
      omega
    have hptr := s.toNat_addr_sub_misalign
    have hword : (s.addr - BitVec.ofNat 64 s.misalign).toNat % 8 = 0 := by
      rw [hptr, State.misalign]
      omega
    have hend : (s.addr - BitVec.ofNat 64 s.misalign).toNat + (BitVec.ofNat 64 s.adjustedLen).toNat =
        s.addr.toNat + s.len.toNat := by
      rw [hptr, hrem, State.misalign]
      omega
    exact State.Running.inv_of_head (h.frame h.noSat rfl) rfl rfl ⟨rfl, rfl⟩ (hrem.symm ▸ hl) hptr
      ⟨hword, hend⟩

/-- A block of `n` bytes that are left, read in whole words, moves `PTR` and `REM` towards each other (R182, R185). -/
theorem State.OnTrack.advance {s : State} (h : s.OnTrack) (hrange : s.inRange = true) {n : Nat} (h8 : n % 8 = 0)
    (hn : n ≤ s.rem.toNat) :
    (s.ptr + BitVec.ofNat 64 n).toNat % 8 = 0 ∧
      (s.ptr + BitVec.ofNat 64 n).toNat + (s.rem - BitVec.ofNat 64 n).toNat = s.addr.toNat + s.len.toNat := by
  obtain ⟨hptr, hsum⟩ := h
  have hlt := s.inRange_iff.1 hrange
  have hrem := s.rem.isLt
  simp only [BitVec.toNat_add, BitVec.toNat_sub, BitVec.toNat_ofNat]
  omega

theorem State.Running.inv_after_uHead {s t : State} (h : s.Running) (hi : s.Inv) (hp : s.ph = .head)
    (he : exec .uHead s = .next t) : t.Inv := by
  obtain ⟨-, ⟨hcb, -⟩, hrem, -⟩ := hi.fresh hp
  rcases withBlock_next_cases he with rfl | ⟨ws, rfl⟩ | ⟨a, issued, rfl⟩
  · exact hi
  · have htrack : s.OnTrack := hi.pointer (.inl hp)
    refine State.Running.inv_of_chunk (h.frame h.noSat rfl) rfl
      (htrack.advance h.inRange (n := 120) rfl hrem) fun i => ?_
    simp [headEffect, hcb]
  · exact h.inv_of_bus a issued

/-- In CHUNK no counter is above 240 (R160). -/
theorem State.Inv.bank_le {s : State} (h : s.Inv) (hp : s.ph = .chunk) (i : Fin 64) : s.cb[i.val].toNat ≤ 240 := by
  have := (h.headroom hp i).2
  have := s.ep.isLt
  omega

theorem lane_le_one (x : Word) (i : Nat) : lane x i ≤ 1 := Bool.toNat_le _

theorem Planes.value_le (p : Planes) (i : Nat) : p.value i ≤ 15 := by
  have h1 := lane_le_one p.p1 i
  have h2 := lane_le_one p.p2 i
  have h4 := lane_le_one p.p4 i
  have h8 := lane_le_one p.p8 i
  unfold Planes.value
  omega

/-- Additions that fit leave the exact sums in the counters. -/
theorem State.count_cb_toNat {s : State} {d : Fin 64 → Nat} {i : Fin 64} (h : s.cb[i.val].toNat + d i ≤ 255) :
    ((s.count d).cb[i.val]).toNat = s.cb[i.val].toNat + d i := by
  simp [cbaddAll_cb, sat8_toNat, h]

/-- Additions that all fit do not set `SAT`. -/
theorem State.count_noSat {s : State} {d : Fin 64 → Nat} (hs : s.sat = false)
    (h : ∀ i : Fin 64, s.cb[i.val].toNat + d i ≤ 255) : (s.count d).sat = false := by
  rw [← Bool.not_eq_true, State.count_sat, cbaddAll_sat]
  rintro (hsat | ⟨i, hi⟩)
  · simp [hs] at hsat
  · exact absurd (h i) (by simpa using hi)

theorem State.Running.inv_after_uChunk {s t : State} (h : s.Running) (hi : s.Inv) (hp : s.ph = .chunk)
    (hrem : 128 ≤ s.rem.toNat) (hep : s.ep ≠ 15#4) (he : exec .uChunk s = .next t) : t.Inv := by
  rcases withBlock_next_cases he with rfl | ⟨ws, rfl⟩ | ⟨a, issued, rfl⟩
  · exact hi
  · have hep1 : (s.ep + 1#4).toNat = s.ep.toNat + 1 := by bv_omega
    have hbank (i : Fin 64) := hi.headroom hp i
    set q16 := (chunk16 s.pl fun j => wordAt ws j.val).2
    have hfit (i : Fin 64) : s.cb[i.val].toNat + 16 * lane q16 i.val ≤ 255 := by
      have := hbank i
      have := lane_le_one q16 i.val
      have := (s.ep + 1#4).isLt
      omega
    have htrack : s.OnTrack := hi.pointer (.inr (.inl hp))
    refine State.Running.inv_of_chunk (h.frame (State.count_noSat h.noSat hfit) rfl) hp
      (htrack.advance h.inRange (n := 128) rfl hrem) fun i => ?_
    have hcb : (chunkEffect ws (s.issue s.chunkRequests)).cb[i.val].toNat = s.cb[i.val].toNat + 16 * lane q16 i.val :=
      State.count_cb_toNat (hfit i)
    have hep : (chunkEffect ws (s.issue s.chunkRequests)).ep.toNat = s.ep.toNat + 1 := hep1
    have := hbank i
    have := lane_le_one q16 i.val
    rw [hcb, hep]
    omega
  · exact h.inv_of_bus a issued

theorem State.Running.inv_after_uExit {s t : State} (h : s.Running) (hi : s.Inv) (hp : s.ph = .chunk)
    (hrem : s.rem.toNat < 128) (he : exec .uExit s = .next t) : t.Inv := by
  obtain rfl := Host.Outcome.next.inj he
  exact State.Running.inv_of_resid (h.frame h.noSat rfl) rfl (hi.pointer (.inr (.inl hp))) hrem (hi.bank_le hp)

theorem State.Running.inv_after_uMflush {s t : State} (h : s.Running) (hi : s.Inv) (hp : s.ph = .chunk)
    (he : exec .uMflush s = .next t) : t.Inv := by
  obtain rfl := Host.Outcome.next.inj he
  refine State.Running.inv_of_chunk (h.frame h.noSat rfl) hp (hi.pointer (.inr (.inl hp))) fun i => ?_
  simp

/-- A nibble is below 16, so the residual fold adds at most 15 to a counter (R154, R161). -/
theorem nibble_le (x : Word) (j : Nat) : nibble x j ≤ 15 := Nat.le_of_lt_succ (BitVec.isLt _)

theorem State.Running.inv_after_uResid {s t : State} (h : s.Running) (hi : s.Inv) (hp : s.ph = .resid)
    (he : exec .uResid s = .next t) : t.Inv := by
  obtain rfl := Host.Outcome.next.inj he
  have hsat : s.cbresid.sat = false := State.count_noSat h.noSat fun i => by
    have := hi.residual hp i
    have := nibble_le (nibbleView s.pl (i.val / 16)) (i.val % 16)
    omega
  exact State.Running.inv_of_final (h.frame hsat rfl) rfl (hi.pointer (.inr (.inr (.inl hp)))) (hi.ending (.inl hp)) rfl

/-- What is left at the end of a RUN is a whole number of elements: `ADDR`, `LEN` and `PTR` all are (R33). -/
theorem State.Running.rem_mod_elemSize {s : State} (h : s.Running) (ht : s.OnTrack) :
    s.rem.toNat % Config.elemSize s.wsel = 0 := by
  obtain ⟨hptr, hsum⟩ := ht
  obtain ⟨haddr, hlen⟩ := (s.alignedFor_iff _).1 h.aligned
  have hp : Config.elemSize s.wsel ∣ s.ptr.toNat :=
    (elemSize_dvd_eight s.wsel).trans (Nat.dvd_of_mod_eq_zero hptr)
  have hs : Config.elemSize s.wsel ∣ s.ptr.toNat + s.rem.toNat :=
    hsum ▸ Nat.dvd_add (Nat.dvd_of_mod_eq_zero haddr) (Nat.dvd_of_mod_eq_zero hlen)
  exact Nat.mod_eq_zero_of_dvd ((Nat.dvd_add_right hp).1 hs)

theorem State.Running.inv_after_uFinal {s t : State} (h : s.Running) (hi : s.Inv) (hp : s.ph = .final)
    (he : exec .uFinal s = .next t) : t.Inv := by
  obtain rfl := Host.Outcome.next.inj he
  exact State.inv_of_idle rfl h.memory (by simp [h.released]) h.noSat (fun _ => ⟨hi.folded hp, rfl, rfl⟩)
    fun _ => h.rem_mod_elemSize (hi.pointer (.inr (.inr (.inr hp))))

/-- The step the sequencer selects keeps the invariant. -/
theorem State.Inv.after_selected {s t : State} {i : Instr} (h : s.Inv) (hr : s.rst = false) (hi : s.selectUop = .ok i)
    (he : exec i s = .next t) : t.Inv := by
  have hrun := h.toRunning hr (State.selectUop_ok hi).1
  rcases State.selectUop_cases hi with ⟨-, rfl⟩ | ⟨hp, rfl⟩ | ⟨hp, hrem, rfl⟩ | ⟨hp, -, -, rfl⟩ |
    ⟨hp, hrem, hep, rfl⟩ | ⟨hp, rfl⟩ | ⟨hp, rfl⟩
  · exact hrun.inv_after_uSetup he
  · exact hrun.inv_after_uHead h hp he
  · exact hrun.inv_after_uExit h hp hrem he
  · exact hrun.inv_after_uMflush h hp he
  · exact hrun.inv_after_uChunk h hp hrem hep he
  · exact hrun.inv_after_uResid h hp he
  · exact hrun.inv_after_uFinal h hp he

/-- In IDLE, with `DONE` and what it vouches for as before or `DONE` cleared, the invariant holds. -/
theorem State.Inv.of_idle {s t : State} (h : s.Inv) (hp : s.ph = .idle) (hr : s.rst = false)
    (ht : t = { s with acc := t.acc, addr := t.addr, len := t.len, done := t.done, err := t.err, faddr := t.faddr,
                       inputs := t.inputs, rsps := t.rsps })
    (hd : t.done = true → s.done = true) : t.Inv := by
  rw [ht]
  exact State.inv_of_idle hp h.memory (by simp [hr]) h.noSat (fun e => h.rested hp (hd e)) fun e => h.remainder (hd e)

/-- A command accepted in IDLE keeps the invariant. -/
theorem State.Inv.after_command {s t : State} {i : Instr} (h : s.Inv) (hp : s.ph = .idle) (hr : s.rst = false)
    (hi : i.isCommand = true) (he : exec i s = .next t) : t.Inv := by
  cases i with
  | nop | setaddr | setlen | accwr | accrd =>
    obtain rfl := Host.Outcome.next.inj he
    exact h.of_idle hp hr rfl id
  | errclr =>
    obtain rfl := Host.Outcome.next.inj he
    exact State.inv_of_idle hp h.memory (by simp [hr]) rfl (h.rested hp) h.remainder
  | run w =>
    rcases exec_run_cases he with ⟨-, rfl⟩ | ⟨-, e, rfl⟩ | ⟨herr, ha, hrange, rfl⟩
    · exact h.of_idle hp hr rfl (by simp)
    · exact h.of_idle hp hr rfl (by simp)
    · exact State.Running.inv_of_setup ⟨h.memory, hr, h.noSat, herr, rfl, ha, hrange⟩ rfl
  | rdsr sel =>
    rcases exec_rdsr_cases he with ⟨v, rfl⟩ | ⟨-, rfl⟩ <;> exact h.of_idle hp hr rfl id
  | uSetup | uHead | uExit | uMflush | uChunk | uResid | uFinal => cases hi

/-- A block just reset meets R320's table. -/
theorem State.assertReset_atReset (s : State) : s.assertReset.AtReset := by
  simp [State.AtReset, State.busyPin, Phase.code]

theorem State.inv_assertReset {s : State} (hm : Memory.wf s.mem) : s.assertReset.Inv :=
  State.inv_of_idle (by simp) (by simpa using hm) (fun _ => s.assertReset_atReset) (by simp) (by simp) (by simp)

/-- Settles O47, by what a step can do to the block. -/
theorem invariantKept : Obligations.InvariantKept := by
  intro s t h hstep
  rcases step_block_cases hstep with ⟨i, ins, hr, hi, he⟩ | ⟨c, v, rest, i, hp, hr, -, hd, he⟩ | ⟨rest, hp, hr, rfl⟩ |
    ⟨rest, -, -, rfl⟩ | ⟨m, on, r, ins, hm, hr, rfl⟩
  · have h' := h.outside s.memStalled ins h.memory id
    exact h'.after_selected hr hi he
  · have h' := h.outside s.memStalled rest h.memory id
    exact h'.after_command hp hr (decodeCmd_isCommand hd) he
  · exact h.of_idle hp hr rfl id
  · exact State.inv_assertReset h.memory
  · exact h.outside on ins (hm h.memory) hr

/-! ### Reachable states -/

/-- The power-on state meets the invariant, whatever the outside goes on to do. -/
theorem State.reset_inv (ins : List Input) : State.Inv { State.reset with inputs := ins } :=
  State.inv_of_idle rfl ⟨List.Pairwise.nil, by simp [State.reset]⟩ (by simp [State.reset]) rfl (by simp [State.reset])
    (by simp [State.reset])

/-- Settles O46: the power-on state is an idle one with `DONE = 0`. -/
theorem invariantAtReset : Obligations.InvariantAtReset := State.reset_inv []

/-- It holds at reset and every step keeps it, so it holds in every reachable state. -/
theorem Reachable.inv {s : State} (h : Reachable s) : s.Inv := by
  obtain ⟨ins, n, hrun⟩ := h
  exact run_keeps invariantKept (State.reset_inv ins) hrun

/-- Settles O48: four of the lines are lines of the invariant, and the first is the planes' four bits. -/
theorem reachableStateInvariants : Obligations.ReachableStateInvariants := by
  intro s hs
  have h := hs.inv
  refine ⟨s.pl.value_le, fun hp i => ?_, h.pointer, fun hp hd => ?_, h.noSat⟩
  · obtain ⟨h16, hle⟩ := h.headroom hp i
    have := s.ep.isLt
    exact ⟨h16, hle, by omega⟩
  · obtain ⟨hpl, hcb, hep⟩ := h.rested hp hd
    exact ⟨hpl, fun i => by simp [hcb], hep⟩

/-- RDSR REMN answers the quotient of R33, which fits a word. -/
theorem State.remn_toNat (s : State) : s.remn.toNat = s.rem.toNat / Config.elemSize s.wsel :=
  Nat.mod_eq_of_lt (Nat.lt_of_le_of_lt (Nat.div_le_self _ _) s.rem.isLt)

/-- Settles O49, from the line of the invariant on the remainder. -/
theorem remainderIsWholeElements : Obligations.RemainderIsWholeElements := by
  intro s hs hd
  have hrem := hs.inv.remainder hd
  refine ⟨hrem, s.remn, rfl, ?_⟩
  rw [s.remn_toNat]
  exact Nat.div_mul_cancel (Nat.dvd_of_mod_eq_zero hrem)

end Sys2Proof.Machine

/-! PROOFS. The read-only view STATUS and the output pins (R29, R31). -/

namespace Sys2Proof.Machine

/-- Settles O22, pin by pin. -/
theorem pinsFollowTheState : Obligations.PinsFollowTheState := by
  intro s
  refine ⟨?_, Iff.rfl, s.faultPin_iff, State.cmdReady_iff⟩
  cases hp : s.ph <;> simp [State.busyPin, hp, Phase.code]

/-- Settles O21, field by field: a bit of STATUS is a bit of the one field placed over it. -/
theorem statusLayout : Obligations.StatusLayout := by
  intro s
  have noCode (i : Nat) (hi : 4 ≤ i) : s.err.code.getLsbD i = false := BitVec.getLsbD_of_ge _ _ hi
  have noWsel (i : Nat) (hi : 2 ≤ i) : s.wsel.getLsbD i = false := BitVec.getLsbD_of_ge _ _ hi
  unfold State.status
  refine ⟨by simp, by simp, ?_, ?_, ?_, ?_⟩
  · ext i hi
    have hlow : ¬4 ≤ 2 + i ∧ ¬8 ≤ 2 + i := by omega
    simp [hlow]
  · ext i hi
    have hplace : 4 + i < 64 ∧ 4 + i < 8 ∧ i < 64 := by omega
    simp [hplace, BitVec.getLsbD_eq_getElem hi]
  · ext i hi
    have hplace : 8 + i < 64 ∧ ¬8 + i < 4 ∧ i < 64 := by omega
    simp [hplace, noCode (8 + i - 4) (by omega), BitVec.getLsbD_eq_getElem hi]
  · ext i hi
    simp [noCode (10 + i - 4) (by omega), noWsel (10 + i - 8) (by omega)]

end Sys2Proof.Machine

/-! PROOFS. The data memory, its read primitive and the head mask (R60 to R68). -/

namespace Sys2Proof.Machine

/-! ### What the outside does to memory -/

theorem step_store {s : State} {a : Word} {v : Byte} {rest : List Input} (h : s.inputs = .store a v :: rest) :
    step s = .next { s with mem := Memory.write s.mem a.toNat v, inputs := rest } := by
  simp only [step, State.turn, h]

theorem step_withdraw {s : State} {a : Word} {rest : List Input} (h : s.inputs = .withdraw a :: rest) :
    step s = .next { s with mem := Memory.withdraw s.mem a.toNat, inputs := rest } := by
  simp only [step, State.turn, h]

/-- Settles O13: the two steps, and the laws of the memory operation that each of them makes. -/
theorem outsideChangesMemoryOnly : Obligations.OutsideChangesMemoryOnly := by
  intro s a rest hm
  refine ⟨fun v h => ?_, fun h => ?_⟩
  · exact ⟨_, step_store h, rfl, Memory.wf_write hm a v, Memory.read_write_same _ _ v,
      fun x hx => Memory.read_write_other _ v hx⟩
  · exact ⟨_, step_withdraw h, rfl, Memory.wf_withdraw hm _, Memory.read_withdraw_same hm _,
      fun x hx => Memory.read_withdraw_other _ hx⟩

/-! ### The read primitive -/

section
variable {m m' : List Host.Cell} {n a : Nat} {be : BitVec 8}

theorem busByte_of_enabled {k : Nat} (h : be.getLsbD k = true) : busByte m n a be k = Memory.read m (a + k) := by
  simp [busByte, h]

/-- A byte lane fails only if it is enabled and its byte is unreadable (R66). -/
theorem busByte_isSome {k : Nat} :
    (busByte m n a be k).isSome = true ↔ (be.getLsbD k = true → (Memory.read m (a + k)).isSome = true) := by
  unfold busByte
  split <;> simp [*]

/-- A read is answered without `mem_err` exactly when it is readable (R66; log 5). -/
theorem memReadBE_isSome_iff_readable {r : Request} :
    (memReadBE m n r.1.toNat r.2).isSome = true ↔ Readable m r := by
  simp only [memReadBE_isSome, busByte_isSome, Readable]

/-- Byte `k` of an answered read is byte lane `k` (R63). -/
theorem memReadBE_byte {d : Word} (h : memReadBE m n a be = some d) {k : Nat} (hk : k < 8) :
    busByte m n a be k = some (d.extractLsb' (8 * k) 8) := by
  obtain ⟨b, hb, -⟩ := memReadBE_bit h hk (r := 0) (by omega)
  rw [hb, Option.some.injEq]
  refine BitVec.eq_of_getLsbD_eq fun r hr => ?_
  obtain ⟨b', hb', hbit⟩ := memReadBE_bit h hk hr
  obtain rfl : b = b' := Option.some.inj (hb.symm.trans hb')
  simp [hr, hbit]

/-- Settles O43: a read is answered when its enabled lanes are, and those lanes are the bytes of memory. -/
theorem readPrimitiveIsLittleEndian : Obligations.ReadPrimitiveIsLittleEndian := by
  intro m n a be
  refine ⟨?_, fun d hd k hk hbe => ?_⟩
  · rw [← memReadBE_isSome_iff_readable (n := n), Bool.not_eq_true, Option.isSome_eq_false_iff,
      Option.isNone_iff_eq_none]
  · rw [← busByte_of_enabled hbe, memReadBE_byte hd hk]

/-- The same enabled bytes, readable or not, make the same answer (R66). -/
theorem memReadBE_congr (h : ∀ k, k < 8 → be.getLsbD k = true → Memory.read m (a + k) = Memory.read m' (a + k)) :
    memReadBE m n a be = memReadBE m' n a be := by
  have lanes (k : Nat) (hk : k < 8) : busByte m n a be k = busByte m' n a be k := by
    unfold busByte
    split
    · exact h k hk ‹_›
    · rfl
  simp only [memReadBE, lanes 0 (by omega), lanes 1 (by omega), lanes 2 (by omega), lanes 3 (by omega),
    lanes 4 (by omega), lanes 5 (by omega), lanes 6 (by omega), lanes 7 (by omega)]

/-- Memories that agree on every byte a block of reads asks for answer it alike. -/
theorem readBlock_congr {reqs : List Request}
    (h : ∀ r ∈ reqs, ∀ k, k < 8 → r.2.getLsbD k = true →
      Memory.read m (r.1.toNat + k) = Memory.read m' (r.1.toNat + k)) :
    ∀ n, readBlock m n reqs = readBlock m' n reqs := by
  induction reqs with
  | nil => exact fun _ => rfl
  | cons r reqs ih =>
    intro n
    have hr := memReadBE_congr (n := n) (h r List.mem_cons_self)
    have hrest := ih (fun q hq => h q (List.mem_cons_of_mem _ hq)) (n + 1)
    simp only [readBlock, hr, hrest]

end

/-! ### The head mask -/

theorem headEnables_getLsbD (m k : Nat) : (headEnables m).getLsbD k = decide (k < 8 ∧ m ≤ k) := by
  have hones : (0xFF#8) = BitVec.allOnes 8 := rfl
  rw [headEnables, hones, BitVec.getLsbD_shiftLeft, BitVec.getLsbD_allOnes, Bool.eq_iff_iff]
  simp only [Bool.and_eq_true, Bool.not_eq_true', decide_eq_true_eq, decide_eq_false_iff_not]
  omega

theorem headMask_getLsbD (m i : Nat) : (headMask m).getLsbD i = decide (i < 64 ∧ 8 * m ≤ i) := by
  rw [headMask, BitVec.getLsbD_shiftLeft, BitVec.getLsbD_allOnes, Bool.eq_iff_iff]
  simp only [Bool.and_eq_true, Bool.not_eq_true', decide_eq_true_eq, decide_eq_false_iff_not]
  omega

/-- Settles O44: the table is computed, and the mask is zero below bit `8 m` and one from there on. -/
theorem headMaskTable : Obligations.HeadMaskTable := by
  refine ⟨by decide, fun m x _ => ⟨fun k hk => ?_, fun k hk hk8 => ?_⟩⟩
  · refine BitVec.eq_of_getLsbD_eq fun r hr => ?_
    have below : ¬8 * m ≤ 8 * k + r := by omega
    rw [BitVec.getLsbD_extractLsb', BitVec.getLsbD_and, headMask_getLsbD]
    simp [below]
  · refine BitVec.eq_of_getLsbD_eq fun r hr => ?_
    have kept : 8 * k + r < 64 ∧ 8 * m ≤ 8 * k + r := by omega
    rw [BitVec.getLsbD_extractLsb', BitVec.getLsbD_and, headMask_getLsbD, BitVec.getLsbD_extractLsb']
    simp [kept]

/-! ### Lanes and elements -/

/-- The buffer's byte `k` is the byte at `ADDR + k` (R61). -/
theorem State.buffer_getD {s : State} {k : Nat} (h : k < s.len.toNat) :
    s.buffer.getD k 0#8 = (Memory.read s.mem (s.addr.toNat + k)).getD 0#8 := by
  simp [State.buffer, h]

theorem State.misalign_lt (s : State) : s.misalign < 8 := Nat.mod_lt _ (by omega)

theorem State.misalign_le (s : State) : s.misalign ≤ s.addr.toNat := Nat.mod_le _ _

/-- `W = 8 ES` (R35). -/
theorem width_eq (w : BitVec 2) : Config.width w = 8 * Config.elemSize w := by
  revert w
  decide

/-- In an element-aligned buffer the misalignment is a whole number of elements (R64). -/
theorem State.width_dvd_misalign {s : State} {w : BitVec 2} (h : s.addr.toNat % Config.elemSize w = 0) :
    Config.width w ∣ 8 * s.misalign := by
  rw [width_eq]
  exact Nat.mul_dvd_mul_left 8 ((Nat.dvd_mod_iff (elemSize_dvd_eight w)).2 (Nat.dvd_of_mod_eq_zero h))

/-- A word holds a whole number of elements (R10). -/
theorem width_dvd_word (w : BitVec 2) : Config.width w ∣ 64 := by
  rw [width_eq]
  exact Nat.mul_dvd_mul_left 8 (elemSize_dvd_eight w)

/-- Settles O45: a lane of a word and the buffer's bit `8 m` below it lie in the same byte, and both `8 m` and the word
are whole numbers of elements. -/
theorem lanesAreElementBits : Obligations.LanesAreElementBits := by
  intro s wsel j i haligned hi hlo hhi
  have hm := s.misalign_lt
  have hle := s.misalign_le
  refine ⟨?_, ?_⟩
  · have hk : (64 * j + i - 8 * s.misalign) / 8 < s.len.toNat := by omega
    have hbyte : s.addr.toNat + (64 * j + i - 8 * s.misalign) / 8 = s.addr.toNat - s.misalign + 8 * j + i / 8 := by
      omega
    have hbit : (64 * j + i - 8 * s.misalign) % 8 = i % 8 := by omega
    rw [memBit, bitOf, State.buffer_getD hk, hbyte, hbit]
  · have hwords := Nat.modEq_zero_iff_dvd.2 ((width_dvd_word wsel).mul_right j)
    have hfirst := Nat.modEq_zero_iff_dvd.2 (State.width_dvd_misalign haligned)
    refine Nat.ModEq.add_right_cancel hfirst ?_
    rw [Nat.sub_add_cancel hlo]
    simpa using hwords.add_right i

/-! ### The bytes below `ADDR` -/

/-- The step that reads does the same with another memory that answers its reads alike. -/
theorem State.withBlock_with_mem {s : State} {m : List Host.Cell} {reqs : List Request}
    {k : List Word → State → State}
    (h : Machine.readBlock m s.reads.length reqs = Machine.readBlock s.mem s.reads.length reqs)
    (hk : ∀ ws u, k ws { u with mem := m } = { k ws u with mem := m }) :
    State.withBlock { s with mem := m } reqs k = { s.withBlock reqs k with mem := m } := by
  have hans : State.readBlock { s with mem := m } reqs = s.readBlock reqs := by
    simp only [State.readBlock, h]
  simp only [State.withBlock, hans]
  split
  · exact hk _ (s.issue reqs)
  · rfl
  · rfl

/-- A byte the head asks for is none of the `m` bytes from `PTR` (R67). -/
theorem State.headRequests_spare {s : State} {r : Request} (hr : r ∈ s.headRequests) {k : Nat} (hk : k < 8)
    (hbe : r.2.getLsbD k = true) :
    r.1.toNat + k < s.ptr.toNat ∨ s.ptr.toNat + s.misalign ≤ r.1.toNat + k := by
  have hm := s.misalign_lt
  obtain ⟨j, hj, rfl⟩ := List.mem_map.1 hr
  rw [List.mem_range] at hj
  by_cases h0 : j = 0
  · subst h0
    rw [if_pos rfl, headEnables_getLsbD, decide_eq_true_eq] at hbe
    exact .inr (by simpa using hbe.2)
  · simp only [BitVec.toNat_add, BitVec.toNat_ofNat]
    omega

/-- Settles O29: no enabled byte of the head's reads is among the changed ones. -/
theorem headIgnoresForeignBytes : Obligations.HeadIgnoresForeignBytes := by
  intro s t m hagree he
  obtain rfl := Host.Outcome.next.inj he
  have hread : Machine.readBlock m s.reads.length s.headRequests =
      Machine.readBlock s.mem s.reads.length s.headRequests :=
    readBlock_congr (fun r hr k hk hbe => hagree _ (State.headRequests_spare hr hk hbe)) _
  exact congrArg _ (State.withBlock_with_mem hread fun _ _ => rfl)

end Sys2Proof.Machine

/-! PROOFS. A completed RUN: its reads (R68) and its steps (R189). -/

namespace Sys2Proof.Machine

/-! ### A step of an undisturbed block -/

/-- Every instruction has a next state (R287; log 7). -/
theorem exec_goes_on (i : Instr) (s : State) : ∃ t, exec i s = .next t := by
  cases i with
  | rdsr sel =>
    simp only [exec, execRdsr]
    split <;> exact ⟨_, rfl⟩
  | uSetup =>
    simp only [exec, execUSetup]
    split <;> exact ⟨_, rfl⟩
  | nop | setaddr | setlen | run | accwr | accrd | errclr | uHead | uExit | uMflush | uChunk | uResid | uFinal =>
    exact ⟨_, rfl⟩

/-- The sequencer selects a micro-operation in every phase but IDLE (R180). -/
theorem State.exists_selected {s : State} (h : s.ph ≠ .idle) : ∃ i, s.selectUop = .ok i := by
  cases hi : s.selectUop with
  | ok i => exact ⟨i, rfl⟩
  | error e => exact absurd (State.selectUop_error hi) h

/-- With nothing presented, or a command that waits, the step is the one the sequencer selects (R220). -/
theorem step_of_selected {s : State} {i : Instr} (hr : s.rst = false) (hu : s.undisturbed) (hi : s.selectUop = .ok i) :
    step s = exec i s := by
  have hturn : s.turn = s.sequencerTurn := by
    rcases hu with hin | ⟨c, opnd, rest, hin⟩
    · simp only [State.turn, hin]
    · have hbusy : ¬s.cmdReady = true := State.cmdReady_iff.not.2 (State.selectUop_ok hi).1
      simp [State.turn, hin, hbusy]
  rw [step, hturn, State.sequencerTurn_of_ok hr hi]

/-- A RUN whose checks hold starts (R223). -/
theorem exec_run_of_launchable {s : State} {w : BitVec 2} (h : s.Launchable w) :
    exec (.run w) s = .next { s with done := false, rsps := s.rsps ++ [0#64], wsel := w, ph := .setup } := by
  have haligned : s.alignedFor w = true := (s.alignedFor_iff w).2 ⟨h.addrAligned, h.lenAligned⟩
  have hrange : s.inRange = true := s.inRange_iff.2 h.inRange
  have hlaunch : launch w ({ s with done := false }.respond 0#64) =
      { s with done := false, rsps := s.rsps ++ [0#64], wsel := w, ph := .setup } := by
    rcases launch_cases w ({ s with done := false }.respond 0#64) with
      ⟨herr, -⟩ | ⟨-, ha, -⟩ | ⟨-, -, hr, -⟩ | ⟨-, -, -, e⟩
    · exact absurd h.noFault herr
    · exact absurd (haligned.symm.trans ha) (by simp)
    · exact absurd (hrange.symm.trans hr) (by simp)
    · exact e
  exact congrArg _ hlaunch

/-- A step whose reads are all readable goes on with the words read (R71 item 1). -/
theorem State.withBlock_of_readable {s : State} {reqs : List Request} (k : List Word → State → State)
    (hm : s.memStalled = false) (h : ∀ r ∈ reqs, Readable s.mem r) :
    ∃ ws, Machine.readBlock s.mem s.reads.length reqs = .words ws ∧ s.withBlock reqs k = k ws (s.issue reqs) := by
  obtain ⟨ws, hws⟩ := readBlock_of_isSome (m := s.mem) (n := s.reads.length) fun r hr _ =>
    memReadBE_isSome_iff_readable.2 (h r hr)
  exact ⟨ws, hws, by simp [State.withBlock, State.readBlock, hm, hws]⟩

/-! ### The surroundings of a RUN -/

/-- A block out of reset over a readable buffer, with nothing to disturb its RUN. -/
structure State.Quiet (s : State) : Prop where
  released : s.rst = false
  answers : s.memStalled = false
  undisturbed : s.undisturbed
  inRange : s.addr.toNat + s.len.toNat < 2 ^ 64
  readable : s.bufferReadable

/-- What no micro-operation changes (R20, R62): the buffer, the memory, and what the outside does. -/
structure State.SameSetting (s t : State) : Prop where
  addr : t.addr = s.addr
  len : t.len = s.len
  mem : t.mem = s.mem
  memStalled : t.memStalled = s.memStalled
  rst : t.rst = s.rst
  inputs : t.inputs = s.inputs

theorem State.SameSetting.trans {s t u : State} (h : s.SameSetting t) (h' : t.SameSetting u) : s.SameSetting u :=
  ⟨h'.addr.trans h.addr, h'.len.trans h.len, h'.mem.trans h.mem, h'.memStalled.trans h.memStalled, h'.rst.trans h.rst,
    h'.inputs.trans h.inputs⟩

theorem State.SameSetting.quiet {s t : State} (h : s.SameSetting t) (hs : s.Quiet) : t.Quiet where
  released := h.rst.trans hs.released
  answers := h.memStalled.trans hs.answers
  undisturbed := by
    have := hs.undisturbed
    rwa [State.undisturbed, h.inputs]
  inRange := by
    have := hs.inRange
    rwa [h.addr, h.len]
  readable := by
    have := hs.readable
    rwa [State.bufferReadable, h.addr, h.len, h.mem]

theorem exec_keeps_setting {i : Instr} {s t : State} (hi : i.isCommand = false) (h : exec i s = .next t) :
    s.SameSetting t := by
  obtain ⟨-, haddr, hlen, -, -, -, -, -, -, -, -, -, -, -, -, hmem, hstall, hrst, hin, -⟩ :=
    eachRegisterHasItsWriters i s t h
  refine ⟨by_contra fun hne => ?_, by_contra fun hne => ?_, hmem, hstall, hrst, hin⟩
  · obtain ⟨v, rfl⟩ := haddr hne
    cases hi
  · obtain ⟨v, rfl⟩ := hlen hne
    cases hi

/-! ### The words of the buffer -/

/-- The read of word `j` of the buffer (R68). -/
def State.runRead (s : State) (j : Nat) : Request :=
  (BitVec.ofNat 64 (s.addr.toNat - s.misalign + 8 * j), if j = 0 then headEnables s.misalign else 0xFF#8)

theorem State.runReads_eq (s : State) : s.runReads = (List.range (wordsOf s.adjustedLen)).map s.runRead := rfl

/-- A word that ends within the buffer is readable: its first enabled byte is at `ADDR` or above (R68). -/
theorem State.Quiet.runRead_readable {s : State} (h : s.Quiet) {j : Nat} (hj : 8 * j + 8 ≤ s.adjustedLen) :
    Readable s.mem (s.runRead j) := by
  intro k hk hbe
  have hm := s.misalign_lt
  have hle := s.misalign_le
  have hrange := h.inRange
  have hlen : s.adjustedLen = s.len.toNat + s.misalign := rfl
  have hfirst : s.misalign ≤ 8 * j + k := by
    by_cases h0 : j = 0
    · simp only [State.runRead, h0, if_true, headEnables_getLsbD, decide_eq_true_eq] at hbe
      omega
    · omega
  have hbyte : (s.runRead j).1.toNat + k = s.addr.toNat + (8 * j + k - s.misalign) := by
    simp only [State.runRead, BitVec.toNat_ofNat]
    omega
  rw [hbyte]
  exact h.readable _ (by omega)

/-- The first `j` words of the buffer have been read, each once and in ascending order, and `PTR` and `REM` say so. -/
structure State.AtWord (s : State) (before : List Request) (j : Nat) : Prop where
  ptr : s.ptr = BitVec.ofNat 64 (s.addr.toNat - s.misalign + 8 * j)
  rem : s.rem.toNat + 8 * j = s.adjustedLen
  reads : s.reads = before ++ (List.range j).map s.runRead

section
variable {s : State} {before : List Request} {j : Nat} (h : s.AtWord before j)
include h

theorem State.AtWord.ptr_add (i : Nat) : s.ptr + BitVec.ofNat 64 (8 * i) = (s.runRead (j + i)).1 := by
  rw [h.ptr, State.runRead, ← BitVec.ofNat_add]
  congr 1
  omega

theorem State.AtWord.ptr_toNat (hs : s.Quiet) : s.ptr.toNat = s.addr.toNat - s.misalign + 8 * j := by
  have hrem := h.rem
  have hrange := hs.inRange
  have hle := s.misalign_le
  have hlen : s.adjustedLen = s.len.toNat + s.misalign := rfl
  rw [h.ptr, BitVec.toNat_ofNat]
  omega

/-- The words that are left are readable. -/
theorem State.AtWord.readable (hs : s.Quiet) {n : Nat} (hn : 8 * n ≤ s.rem.toNat) :
    ∀ r ∈ (List.range n).map fun i => s.runRead (j + i), Readable s.mem r := by
  intro r hr
  obtain ⟨i, hi, rfl⟩ := List.mem_map.1 hr
  have hrem := h.rem
  rw [List.mem_range] at hi
  exact hs.runRead_readable (by omega)

/-- `n` more words read, with `PTR` and `REM` moved by them. -/
theorem State.AtWord.advance {t : State} {n : Nat} (hn : 8 * n ≤ s.rem.toNat) (haddr : t.addr = s.addr)
    (hlen : t.len = s.len) (hptr : t.ptr = s.ptr + BitVec.ofNat 64 (8 * n))
    (hrem : t.rem = s.rem - BitVec.ofNat 64 (8 * n))
    (hreads : t.reads = s.reads ++ (List.range n).map fun i => s.runRead (j + i)) : t.AtWord before (j + n) := by
  have hread : t.runRead = s.runRead := by
    funext i
    simp only [State.runRead, State.misalign, haddr]
  have hadj : t.adjustedLen = s.adjustedLen := by
    simp only [State.adjustedLen, State.misalign, haddr, hlen]
  refine ⟨?_, ?_, ?_⟩
  · rw [hptr, h.ptr_add, ← hread, State.runRead]
  · have := h.rem
    have := s.rem.isLt
    rw [hadj, hrem, BitVec.toNat_sub, BitVec.toNat_ofNat]
    omega
  · rw [hreads, h.reads, hread, List.range_add, List.map_append, List.map_map, List.append_assoc]
    rfl

/-- The reads of `u.CHUNK` are the next 16 words of the buffer (R185). -/
theorem State.AtWord.chunkRequests_eq (hj : j ≠ 0) :
    s.chunkRequests = (List.range 16).map fun i => s.runRead (j + i) := by
  refine List.map_congr_left fun i _ => ?_
  rw [h.ptr_add]
  simp [State.runRead, hj]

end

/-- The reads of `u.HEAD` are the first 15 words of the buffer (R182). -/
theorem State.AtWord.headRequests_eq {s : State} {before : List Request} (h : s.AtWord before 0) :
    s.headRequests = (List.range 15).map fun i => s.runRead (0 + i) := by
  refine List.map_congr_left fun i _ => ?_
  rw [h.ptr_add]
  simp [State.runRead]

/-! ### A RUN, phase by phase -/

/-- How many sequencer steps an undisturbed RUN has left (R189). In CHUNK, with `k` chunks left, an MFLUSH comes before
each chunk that would be the sixteenth since the bank was last zero. -/
def State.stepsLeft (s : State) : Nat :=
  match s.ph with
  | .setup => stepsOf s.adjustedLen
  | .head => 4 + chunksOf s.adjustedLen + (chunksOf s.adjustedLen - 1) / 15
  | .chunk => 3 + s.rem.toNat / 128 + (s.ep.toNat + s.rem.toNat / 128 - 1) / 15
  | .resid => 2
  | .final => 1
  | .idle => 0

theorem stepsOf_pos (l : Nat) : 0 < stepsOf l := by
  unfold stepsOf
  split <;> omega

theorem State.stepsLeft_eq_zero {s : State} : s.stepsLeft = 0 ↔ s.ph = .idle := by
  have hpos := (stepsOf_pos s.adjustedLen).ne'
  unfold State.stepsLeft
  cases s.ph <;> simp [hpos]

section
variable {s : State}

theorem State.stepsLeft_of_setup (h : s.ph = .setup) : s.stepsLeft = stepsOf s.adjustedLen := by
  simp only [State.stepsLeft, h]

theorem State.stepsLeft_of_head (h : s.ph = .head) :
    s.stepsLeft = 4 + chunksOf s.adjustedLen + (chunksOf s.adjustedLen - 1) / 15 := by
  simp only [State.stepsLeft, h]

theorem State.stepsLeft_of_chunk (h : s.ph = .chunk) :
    s.stepsLeft = 3 + s.rem.toNat / 128 + (s.ep.toNat + s.rem.toNat / 128 - 1) / 15 := by
  simp only [State.stepsLeft, h]

theorem State.stepsLeft_of_resid (h : s.ph = .resid) : s.stepsLeft = 2 := by
  simp only [State.stepsLeft, h]

theorem State.stepsLeft_of_final (h : s.ph = .final) : s.stepsLeft = 1 := by
  simp only [State.stepsLeft, h]

end

/-- How far an undisturbed RUN has come that found the reads `before` on the memory port. -/
inductive State.Progress (before : List Request) (s : State) : Prop
  | setup (phase : s.ph = .setup) (reads : s.reads = before)
  | head (phase : s.ph = .head) (work : 120 ≤ s.adjustedLen) (empty : s.ep = 0#4) (atWord : s.AtWord before 0)
  | chunk (c : Nat) (phase : s.ph = .chunk) (atWord : s.AtWord before (15 + 16 * c))
  | resid (phase : s.ph = .resid) (atWord : s.AtWord before (wordsOf s.adjustedLen))
  | final (phase : s.ph = .final) (atWord : s.AtWord before (wordsOf s.adjustedLen))
  | ended (phase : s.ph = .idle) (done : s.done = true)
      (ptr : s.ptr.toNat = s.addr.toNat - s.misalign + 8 * wordsOf s.adjustedLen)
      (reads : s.reads = before ++ s.runReads)

/-! The step of each phase makes progress. -/

section
variable {s t : State} {before : List Request} (hs : s.Quiet)
include hs

theorem State.Quiet.progress_after_uSetup (hp : s.ph = .setup) (hr : s.reads = before) (he : exec .uSetup s = .next t) :
    t.Progress before ∧ s.stepsLeft = t.stepsLeft + 1 := by
  have hptr := s.toNat_addr_sub_misalign
  rw [State.stepsLeft_of_setup hp]
  rcases exec_uSetup_cases he with ⟨hl, rfl⟩ | ⟨hl, rfl⟩
  · have hwords : wordsOf s.adjustedLen = 0 := if_pos hl
    have hsteps : stepsOf s.adjustedLen = 1 := if_pos hl
    have hnone : s.reads = before ++ s.runReads := by simp [State.runReads_eq, hwords, hr]
    have hfirst : (s.addr - BitVec.ofNat 64 s.misalign).toNat =
        s.addr.toNat - s.misalign + 8 * wordsOf s.adjustedLen := by simp [hptr, hwords]
    exact ⟨.ended rfl rfl hfirst hnone, hsteps⟩
  · have hsteps : stepsOf s.adjustedLen = 5 + chunksOf s.adjustedLen + (chunksOf s.adjustedLen - 1) / 15 :=
      if_neg (Nat.not_lt.2 hl)
    have hfirst : s.addr - BitVec.ofNat 64 s.misalign = BitVec.ofNat 64 (s.addr.toNat - s.misalign + 8 * 0) :=
      BitVec.eq_of_toNat_eq (by rw [hptr, BitVec.toNat_ofNat]; omega)
    have hrem : (BitVec.ofNat 64 s.adjustedLen).toNat + 8 * 0 = s.adjustedLen := by
      have := hs.inRange
      have := s.misalign_le
      have hlen : s.adjustedLen = s.len.toNat + s.misalign := rfl
      rw [BitVec.toNat_ofNat]
      omega
    refine ⟨.head rfl hl rfl ⟨hfirst, hrem, by simpa using hr⟩, ?_⟩
    rw [hsteps, State.stepsLeft_of_head rfl]
    simp only [State.adjustedLen, State.misalign]
    omega

theorem State.Quiet.progress_after_uHead (hp : s.ph = .head) (hwork : 120 ≤ s.adjustedLen) (hep : s.ep = 0#4)
    (hw : s.AtWord before 0) (he : exec .uHead s = .next t) :
    t.Progress before ∧ s.stepsLeft = t.stepsLeft + 1 := by
  have hrem : s.rem.toNat = s.adjustedLen := hw.rem
  have hreadable := hw.readable hs (n := 15) (by omega)
  rw [← hw.headRequests_eq] at hreadable
  obtain ⟨ws, -, hblock⟩ := State.withBlock_of_readable headEffect hs.answers hreadable
  obtain rfl := (Host.Outcome.next.inj he).symm.trans hblock
  have hw' : (headEffect ws (s.issue s.headRequests)).AtWord before (15 + 16 * 0) :=
    hw.advance (n := 15) (by omega) rfl rfl rfl rfl (congrArg (s.reads ++ ·) hw.headRequests_eq)
  refine ⟨.chunk 0 rfl hw', ?_⟩
  have hsub : (s.rem - 120#64).toNat = s.rem.toNat - 120 := by bv_omega
  rw [State.stepsLeft_of_head hp, State.stepsLeft_of_chunk rfl]
  simp only [headEffect, State.issue_rem, State.issue_ep, hsub, hep, hrem, chunksOf, BitVec.toNat_ofNat]
  omega

theorem State.Quiet.progress_after_uChunk {c : Nat} (hp : s.ph = .chunk) (hw : s.AtWord before (15 + 16 * c))
    (hrem : 128 ≤ s.rem.toNat) (hep : s.ep ≠ 15#4) (he : exec .uChunk s = .next t) :
    t.Progress before ∧ s.stepsLeft = t.stepsLeft + 1 := by
  have hreadable := hw.readable hs (n := 16) (by omega)
  have hreqs := hw.chunkRequests_eq (by omega)
  rw [← hreqs] at hreadable
  obtain ⟨ws, -, hblock⟩ := State.withBlock_of_readable chunkEffect hs.answers hreadable
  obtain rfl := (Host.Outcome.next.inj he).symm.trans hblock
  have hw' : (chunkEffect ws (s.issue s.chunkRequests)).AtWord before (15 + 16 * (c + 1)) :=
    hw.advance (n := 16) (by omega) rfl rfl rfl rfl (congrArg (s.reads ++ ·) hreqs)
  refine ⟨.chunk (c + 1) hp hw', ?_⟩
  have hsub : (s.rem - 128#64).toNat = s.rem.toNat - 128 := by bv_omega
  have hnext : (s.ep + 1#4).toNat = s.ep.toNat + 1 := by bv_omega
  have hphase : (chunkEffect ws (s.issue s.chunkRequests)).ph = .chunk := hp
  rw [State.stepsLeft_of_chunk hp, State.stepsLeft_of_chunk hphase]
  simp only [chunkEffect, State.issue_rem, State.issue_ep, hsub, hnext]
  omega

end

section
variable {s t : State} {before : List Request}

theorem State.progress_after_uMflush {c : Nat} (hp : s.ph = .chunk) (hw : s.AtWord before (15 + 16 * c))
    (hrem : 128 ≤ s.rem.toNat) (hep : s.ep = 15#4) (he : exec .uMflush s = .next t) :
    t.Progress before ∧ s.stepsLeft = t.stepsLeft + 1 := by
  obtain rfl := Host.Outcome.next.inj he
  refine ⟨.chunk c hp ⟨hw.ptr, hw.rem, hw.reads⟩, ?_⟩
  rw [State.stepsLeft_of_chunk hp, State.stepsLeft_of_chunk (s.cbflush_ph.trans hp)]
  simp only [State.cbflush_rem, State.cbflush_ep, hep, BitVec.toNat_ofNat]
  omega

/-- Fewer than 16 words left after a head and whole chunks: these were all the words of the RUN (R68). -/
theorem wordsOf_eq {l c r : Nat} (hl : r + 8 * (15 + 16 * c) = l) (hr : r < 128) : wordsOf l = 15 + 16 * c := by
  rw [wordsOf, if_neg (by omega), chunksOf]
  omega

theorem State.progress_after_uExit {c : Nat} (hp : s.ph = .chunk) (hw : s.AtWord before (15 + 16 * c))
    (hrem : s.rem.toNat < 128) (he : exec .uExit s = .next t) :
    t.Progress before ∧ s.stepsLeft = t.stepsLeft + 1 := by
  obtain rfl := Host.Outcome.next.inj he
  rw [← wordsOf_eq hw.rem hrem] at hw
  refine ⟨.resid rfl ⟨hw.ptr, hw.rem, hw.reads⟩, ?_⟩
  have := s.ep.isLt
  rw [State.stepsLeft_of_chunk hp, State.stepsLeft_of_resid rfl]
  omega

theorem State.progress_after_uResid (hp : s.ph = .resid) (hw : s.AtWord before (wordsOf s.adjustedLen))
    (he : exec .uResid s = .next t) : t.Progress before ∧ s.stepsLeft = t.stepsLeft + 1 := by
  obtain rfl := Host.Outcome.next.inj he
  exact ⟨.final rfl ⟨hw.ptr, hw.rem, hw.reads⟩, State.stepsLeft_of_resid hp⟩

theorem State.Quiet.progress_after_uFinal (hs : s.Quiet) (hp : s.ph = .final)
    (hw : s.AtWord before (wordsOf s.adjustedLen)) (he : exec .uFinal s = .next t) :
    t.Progress before ∧ s.stepsLeft = t.stepsLeft + 1 := by
  obtain rfl := Host.Outcome.next.inj he
  exact ⟨.ended rfl rfl (hw.ptr_toNat hs) hw.reads, State.stepsLeft_of_final hp⟩

end

/-- Every step of an undisturbed RUN makes progress, and there is one step less to take. -/
theorem State.Quiet.step_progress {s : State} {before : List Request} (hs : s.Quiet) (h : s.Progress before)
    (hp : s.ph ≠ .idle) :
    ∃ t, step s = .next t ∧ s.SameSetting t ∧ t.Progress before ∧ s.stepsLeft = t.stepsLeft + 1 := by
  obtain ⟨i, hi⟩ := State.exists_selected hp
  obtain ⟨t, he⟩ := exec_goes_on i s
  refine ⟨t, (step_of_selected hs.released hs.undisturbed hi).trans he,
    exec_keeps_setting (State.selectUop_ok hi).2 he, ?_⟩
  have hsel := State.selectUop_cases hi
  cases h with
  | setup phase reads =>
    obtain rfl : i = .uSetup := by simpa [phase] using hsel
    exact hs.progress_after_uSetup phase reads he
  | head phase work empty atWord =>
    obtain rfl : i = .uHead := by simpa [phase] using hsel
    exact hs.progress_after_uHead phase work empty atWord he
  | chunk c phase atWord =>
    have hsel : (s.rem.toNat < 128 ∧ i = .uExit) ∨ (128 ≤ s.rem.toNat ∧ s.ep = 15#4 ∧ i = .uMflush) ∨
        (128 ≤ s.rem.toNat ∧ s.ep ≠ 15#4 ∧ i = .uChunk) := by simpa [phase] using hsel
    rcases hsel with ⟨hrem, rfl⟩ | ⟨hrem, hep, rfl⟩ | ⟨hrem, hep, rfl⟩
    · exact State.progress_after_uExit phase atWord hrem he
    · exact State.progress_after_uMflush phase atWord hrem hep he
    · exact hs.progress_after_uChunk phase atWord hrem hep he
  | resid phase atWord =>
    obtain rfl : i = .uResid := by simpa [phase] using hsel
    exact State.progress_after_uResid phase atWord he
  | final phase atWord =>
    obtain rfl : i = .uFinal := by simpa [phase] using hsel
    exact hs.progress_after_uFinal phase atWord he
  | ended phase done ptr reads => exact absurd phase hp

/-! ### The whole RUN -/

/-- Outside IDLE every step keeps `P` and brings IDLE, where `μ` is 0, nearer by one: so the run of `μ` steps ends in IDLE,
and no shorter one does. -/
theorem run_to_idle {P : State → Prop} {μ : State → Nat} (hzero : ∀ s, μ s = 0 ↔ s.ph = .idle)
    (hstep : ∀ s, P s → s.ph ≠ .idle → ∃ t, step s = .next t ∧ P t ∧ μ s = μ t + 1) :
    ∀ {n : Nat} {s : State}, P s → μ s = n →
      ∃ t, Host.Core.run Sys2Proof.core n s = .next t ∧ P t ∧ t.ph = .idle ∧
        ∀ k u, k < n → Host.Core.run Sys2Proof.core k s = .next u → u.ph ≠ .idle := by
  intro n
  induction n with
  | zero => exact fun {s} hs hn => ⟨s, rfl, hs, (hzero s).1 hn, by simp⟩
  | succ n ih =>
    intro s hs hn
    have hp : s.ph ≠ .idle := fun e => by simp [(hzero s).2 e] at hn
    obtain ⟨t, ht, hPt, hμ⟩ := hstep s hs hp
    obtain ⟨v, hrun, hPv, hidle, hbusy⟩ := ih hPt (by omega)
    refine ⟨v, (run_succ_of_next n ht).trans hrun, hPv, hidle, fun k u hk hu => ?_⟩
    cases k with
    | zero =>
      obtain rfl := Host.Outcome.next.inj hu
      exact hp
    | succ k => exact hbusy k u (by omega) ((run_succ_of_next k ht).symm.trans hu)

/-- An undisturbed RUN in SETUP runs to its end in the steps that R189 counts. -/
theorem State.Quiet.run_completes {s : State} (hs : s.Quiet) (hp : s.ph = .setup) :
    ∃ t, Host.Core.run Sys2Proof.core (stepsOf s.adjustedLen) s = .next t ∧ s.SameSetting t ∧ t.Progress s.reads ∧
      t.ph = .idle ∧ ∀ k u, k < stepsOf s.adjustedLen → Host.Core.run Sys2Proof.core k s = .next u → u.ph ≠ .idle := by
  have hstart : s.SameSetting s ∧ s.Progress s.reads := ⟨⟨rfl, rfl, rfl, rfl, rfl, rfl⟩, .setup hp rfl⟩
  obtain ⟨t, hrun, ⟨hset, hprog⟩, hidle, hbusy⟩ := run_to_idle (P := fun u => s.SameSetting u ∧ u.Progress s.reads)
    (fun _ => State.stepsLeft_eq_zero)
    (fun u ⟨hset, hprog⟩ hp => by
      obtain ⟨v, hv, hset', hprog', hsteps⟩ := (hset.quiet hs).step_progress hprog hp
      exact ⟨v, hv, ⟨hset.trans hset', hprog'⟩, hsteps⟩)
    hstart (State.stepsLeft_of_setup hp)
  exact ⟨t, hrun, hset, hprog, hidle, hbusy⟩

/-- What a RUN that has ended has read, and where it leaves `PTR` (R68, R188). -/
theorem State.Progress.ended_of_idle {s : State} {before : List Request} (h : s.Progress before) (hp : s.ph = .idle) :
    s.done = true ∧ s.ptr.toNat = s.addr.toNat - s.misalign + 8 * wordsOf s.adjustedLen ∧
      s.reads = before ++ s.runReads := by
  cases h with
  | ended phase done ptr reads => exact ⟨done, ptr, reads⟩
  | setup phase => simp [phase] at hp
  | head phase => simp [phase] at hp
  | chunk c phase => simp [phase] at hp
  | resid phase => simp [phase] at hp
  | final phase => simp [phase] at hp

/-- The words and reads of a RUN depend on `ADDR` and `LEN` alone. -/
theorem State.SameSetting.words {s t : State} (h : s.SameSetting t) :
    t.misalign = s.misalign ∧ t.adjustedLen = s.adjustedLen ∧ t.runReads = s.runReads := by
  simp only [State.runReads, State.adjustedLen, State.misalign, h.addr, h.len, and_self]

/-- Settles O57: RUN starts, and from SETUP the undisturbed RUN makes progress to its end. -/
theorem completedRunReads : Obligations.CompletedRunReads := by
  intro s wsel hl hm hu hb
  set t0 : State := { s with done := false, rsps := s.rsps ++ [0#64], wsel := wsel, ph := .setup }
  have hquiet : t0.Quiet := ⟨hl.released, hm, hu, hl.inRange, hb⟩
  obtain ⟨t, hrun, hset, hprog, hidle, hbusy⟩ := hquiet.run_completes rfl
  obtain ⟨hdone, hptr, hreads⟩ := hprog.ended_of_idle hidle
  obtain ⟨hmisalign, hlength, hsame⟩ := hset.words
  rw [hsame] at hreads
  rw [hset.addr, hmisalign, hlength] at hptr
  exact ⟨t0, t, exec_run_of_launchable hl, hrun, hidle, hdone, hbusy, hreads, hptr, hset.addr, hset.len, hset.mem⟩

end Sys2Proof.Machine

/-! PROOFS. The decoder and the encoder (R91 to R96): words and their fields, the round trip, the match/mask table. -/

namespace Sys2Proof

/-! ### The fields of a word -/

theorem opcField_toNat (c : BitVec 32) : (opcField c).toNat = c.toNat % 256 := by
  simp [opcField]

theorem argField_toNat (c : BitVec 32) : (argField c).toNat = c.toNat / 256 % 256 := by
  simp [argField, Nat.shiftRight_eq_div_pow]

theorem rsvField_toNat (c : BitVec 32) : (rsvField c).toNat = c.toNat / 65536 := by
  have hfits : c.toNat / 65536 < 65536 := by omega
  simpa [rsvField, Nat.shiftRight_eq_div_pow] using hfits

theorem cmdWord_toNat (opc arg : BitVec 8) : (cmdWord opc arg).toNat = 256 * arg.toNat + opc.toNat := by
  have hopc : (opc.setWidth 32).toNat = opc.toNat := by
    rw [BitVec.toNat_setWidth]
    omega
  have harg : (arg.setWidth 32 <<< 8).toNat = arg.toNat <<< 8 := by
    rw [BitVec.toNat_shiftLeft, BitVec.toNat_setWidth]
    omega
  rw [cmdWord, BitVec.toNat_or, hopc, harg, Nat.or_comm, ← Nat.shiftLeft_add_eq_or_of_lt opc.isLt, Nat.shiftLeft_eq]
  omega

@[simp] theorem opcField_cmdWord (opc arg : BitVec 8) : opcField (cmdWord opc arg) = opc := by
  apply BitVec.eq_of_toNat_eq
  rw [opcField_toNat, cmdWord_toNat]
  omega

@[simp] theorem argField_cmdWord (opc arg : BitVec 8) : argField (cmdWord opc arg) = arg := by
  apply BitVec.eq_of_toNat_eq
  rw [argField_toNat, cmdWord_toNat]
  omega

@[simp] theorem rsvField_cmdWord (opc arg : BitVec 8) : rsvField (cmdWord opc arg) = 0#16 := by
  apply BitVec.eq_of_toNat_eq
  rw [rsvField_toNat, cmdWord_toNat, BitVec.toNat_ofNat]
  omega

/-- A word with `rsv` zero is made of the other two fields. -/
theorem eq_cmdWord_of_rsvField {c : BitVec 32} (h : rsvField c = 0#16) : c = cmdWord (opcField c) (argField c) := by
  have hrsv : c.toNat / 65536 = 0 := by simpa [rsvField_toNat] using congrArg BitVec.toNat h
  apply BitVec.eq_of_toNat_eq
  rw [cmdWord_toNat, opcField_toNat, argField_toNat]
  omega

/-! ### The fields of `arg` (R92): `k` low bits of content under `n` bits that must be zero -/

section
variable {k n : Nat} {arg : BitVec 8}

theorem extractLsb'_high_eq_zero_iff (hk : k + n = 8) : arg.extractLsb' k n = 0#n ↔ arg.toNat < 2 ^ k := by
  have hquot : arg.toNat / 2 ^ k < 2 ^ n := by
    rw [Nat.div_lt_iff_lt_mul (Nat.two_pow_pos k), ← Nat.pow_add, Nat.add_comm n k, hk]
    exact arg.isLt
  rw [← BitVec.toNat_inj, BitVec.extractLsb'_toNat, Nat.shiftRight_eq_div_pow, Nat.mod_eq_of_lt hquot]
  simp [Nat.div_eq_zero_iff]

theorem setWidth_extractLsb'_low (h : arg.toNat < 2 ^ k) : (arg.extractLsb' 0 k).setWidth 8 = arg := by
  apply BitVec.eq_of_toNat_eq
  rw [BitVec.toNat_setWidth, BitVec.extractLsb'_toNat, Nat.shiftRight_zero, Nat.mod_eq_of_lt h,
    Nat.mod_eq_of_lt arg.isLt]

theorem extractLsb'_low_setWidth (hk : k ≤ 8) (x : BitVec k) : (x.setWidth 8).extractLsb' 0 k = x := by
  apply BitVec.eq_of_toNat_eq
  rw [BitVec.extractLsb'_toNat, BitVec.toNat_setWidth_of_le hk, Nat.shiftRight_zero, Nat.mod_eq_of_lt x.isLt]

theorem setWidth_toNat_lt (hk : k ≤ 8) (x : BitVec k) : (x.setWidth 8).toNat < 2 ^ k := by
  rw [BitVec.toNat_setWidth_of_le hk]
  exact x.isLt

end

/-! ### The decoders of `arg`: what each accepts, and what it rejects -/

/-- The shape that the decoders of RUN, ACCWR, ACCRD and RDSR share (R92): `g` decodes the `k` low bits of `arg`, and the
`n` bits above them must be zero. -/
def decodeLow (k n : Nat) (g : BitVec k → Except Reject Instr) (arg : BitVec 8) : Except Reject Instr :=
  if arg.extractLsb' k n = 0#n then g (arg.extractLsb' 0 k) else .error .argument

/-- RDSR's selector, decoded (R94). -/
def decodeSelector (sel : BitVec 4) : Except Reject Instr :=
  if selectorOk sel then .ok (.rdsr sel) else .error .selector

section
variable {arg : BitVec 8} {i j : Instr} {f : Fin 64 → Instr} {k n : Nat} {g : BitVec k → Except Reject Instr}

theorem decodeRun_eq : decodeRun arg = decodeLow 2 6 (fun w => .ok (.run w)) arg := rfl

theorem decodeIndexed_eq : decodeIndexed arg f = decodeLow 6 2 (fun b => .ok (f (accIndex b))) arg := rfl

theorem decodeRdsr_eq : decodeRdsr arg = decodeLow 4 4 decodeSelector arg := rfl

theorem decodeLow_setWidth (hk : k + n = 8) (x : BitVec k) : decodeLow k n g (x.setWidth 8) = g x := by
  have hk8 : k ≤ 8 := by omega
  rw [decodeLow, if_pos ((extractLsb'_high_eq_zero_iff hk).2 (setWidth_toNat_lt hk8 x)), extractLsb'_low_setWidth hk8]

theorem decodeLow_eq_ok_iff (hk : k + n = 8) :
    decodeLow k n g arg = .ok i ↔ ∃ x : BitVec k, arg = x.setWidth 8 ∧ g x = .ok i := by
  constructor
  · intro h
    unfold decodeLow at h
    split at h
    · exact ⟨_, (setWidth_extractLsb'_low ((extractLsb'_high_eq_zero_iff hk).1 ‹_›)).symm, h⟩
    · cases h
  · rintro ⟨x, rfl, hx⟩
    rw [decodeLow_setWidth hk, hx]

theorem decodeLow_rejects_iff (hk : k + n = 8) : (∃ e, decodeLow k n g arg = .error e) ↔
    2 ^ k ≤ arg.toNat ∨ ∃ e, g (arg.extractLsb' 0 k) = .error e := by
  by_cases h : arg.toNat < 2 ^ k
  · simp [decodeLow, (extractLsb'_high_eq_zero_iff hk).2 h, h]
  · simp [decodeLow, mt (extractLsb'_high_eq_zero_iff hk).1 h, Nat.le_of_not_lt h]

theorem decodePlain_eq_ok_iff : decodePlain arg j = .ok i ↔ arg = 0#8 ∧ j = i := by
  unfold decodePlain
  split <;> simp [*]

theorem decodePlain_rejects_iff : (∃ e, decodePlain arg j = .error e) ↔ arg.toNat ≠ 0 := by
  have hzero : arg.toNat = 0 ↔ arg = 0#8 := BitVec.toNat_inj (y := 0#8)
  unfold decodePlain
  split <;> simp [*]

theorem decodeRun_setWidth (w : BitVec 2) : decodeRun (w.setWidth 8) = .ok (.run w) := by
  rw [decodeRun_eq, decodeLow_setWidth rfl]

theorem decodeRun_eq_ok_iff : decodeRun arg = .ok i ↔ ∃ w : BitVec 2, arg = w.setWidth 8 ∧ .run w = i := by
  simp [decodeRun_eq, decodeLow_eq_ok_iff]

theorem decodeRun_rejects_iff : (∃ e, decodeRun arg = .error e) ↔ 4 ≤ arg.toNat := by
  simp [decodeRun_eq, decodeLow_rejects_iff]

/-- An index in `arg`: the encoder places its number, the decoder takes out its six bits (R92). -/
theorem ofNat_accIndex (b : BitVec 6) : BitVec.ofNat 8 (accIndex b).val = b.setWidth 8 := BitVec.ofNat_toNat 8 b

theorem decodeIndexed_setWidth (b : BitVec 6) : decodeIndexed (b.setWidth 8) f = .ok (f (accIndex b)) := by
  rw [decodeIndexed_eq, decodeLow_setWidth rfl]

theorem decodeIndexed_ofNat (idx : Fin 64) : decodeIndexed (BitVec.ofNat 8 idx.val) f = .ok (f idx) := by
  have hidx : accIndex (BitVec.ofFin idx) = idx := rfl
  rw [← hidx, ofNat_accIndex, decodeIndexed_setWidth]

theorem decodeIndexed_eq_ok_iff :
    decodeIndexed arg f = .ok i ↔ ∃ idx : Fin 64, arg = BitVec.ofNat 8 idx.val ∧ f idx = i := by
  constructor
  · intro h
    rw [decodeIndexed_eq, decodeLow_eq_ok_iff rfl] at h
    obtain ⟨b, rfl, hb⟩ := h
    exact ⟨accIndex b, (ofNat_accIndex b).symm, Except.ok.inj hb⟩
  · rintro ⟨idx, rfl, rfl⟩
    exact decodeIndexed_ofNat idx

theorem decodeIndexed_rejects_iff : (∃ e, decodeIndexed arg f = .error e) ↔ 64 ≤ arg.toNat := by
  simp [decodeIndexed_eq, decodeLow_rejects_iff]

theorem selectorOk_iff {sel : BitVec 4} : selectorOk sel = true ↔ sel.toNat < 7 := by
  simp [selectorOk, Nat.lt_succ_iff]

theorem decodeSelector_of_ok {sel : BitVec 4} (h : sel.toNat < 7) : decodeSelector sel = .ok (.rdsr sel) :=
  if_pos (selectorOk_iff.2 h)

theorem decodeSelector_of_reserved {sel : BitVec 4} (h : 7 ≤ sel.toNat) : decodeSelector sel = .error .selector :=
  if_neg (selectorOk_iff.not.2 (Nat.not_lt.2 h))

theorem decodeRdsr_setWidth (sel : BitVec 4) : decodeRdsr (sel.setWidth 8) = decodeSelector sel := by
  rw [decodeRdsr_eq, decodeLow_setWidth rfl]

theorem decodeRdsr_eq_ok_iff :
    decodeRdsr arg = .ok i ↔ ∃ sel : BitVec 4, arg = sel.setWidth 8 ∧ selectorOk sel = true ∧ .rdsr sel = i := by
  rw [decodeRdsr_eq, decodeLow_eq_ok_iff rfl]
  refine exists_congr fun sel => and_congr_right fun _ => ?_
  unfold decodeSelector
  split <;> simp [*]

theorem decodeRdsr_rejects_iff : (∃ e, decodeRdsr arg = .error e) ↔ 16 ≤ arg.toNat ∨ 7 ≤ arg.toNat % 16 := by
  have hsel : (∃ e, decodeSelector (arg.extractLsb' 0 4) = .error e) ↔ 7 ≤ arg.toNat % 16 := by
    rcases Nat.lt_or_ge (arg.toNat % 16) 7 with h | h
    · rw [decodeSelector_of_ok (by simpa using h)]
      simpa using h
    · rw [decodeSelector_of_reserved (by simpa using h)]
      simpa using h
  rw [decodeRdsr_eq, decodeLow_rejects_iff rfl, hsel]
  rfl

end

/-! ### The command decoder, row by row -/

section
variable (arg : BitVec 8) (opnd : Word)

@[simp] theorem decodeCmd_nop : decodeCmd (cmdWord 0x00#8 arg) opnd = decodePlain arg .nop := by simp [decodeCmd]
@[simp] theorem decodeCmd_setaddr : decodeCmd (cmdWord 0x01#8 arg) opnd = decodePlain arg (.setaddr opnd) := by
  simp [decodeCmd]
@[simp] theorem decodeCmd_setlen : decodeCmd (cmdWord 0x02#8 arg) opnd = decodePlain arg (.setlen opnd) := by
  simp [decodeCmd]
@[simp] theorem decodeCmd_run : decodeCmd (cmdWord 0x03#8 arg) opnd = decodeRun arg := by simp [decodeCmd]
@[simp] theorem decodeCmd_accwr :
    decodeCmd (cmdWord 0x04#8 arg) opnd = decodeIndexed arg fun idx => .accwr idx opnd := by simp [decodeCmd]
@[simp] theorem decodeCmd_accrd : decodeCmd (cmdWord 0x05#8 arg) opnd = decodeIndexed arg .accrd := by simp [decodeCmd]
@[simp] theorem decodeCmd_rdsr : decodeCmd (cmdWord 0x06#8 arg) opnd = decodeRdsr arg := by simp [decodeCmd]
@[simp] theorem decodeCmd_errclr : decodeCmd (cmdWord 0x07#8 arg) opnd = decodePlain arg .errclr := by simp [decodeCmd]

end

theorem decodeCmd_of_rsvField {c : BitVec 32} (h : rsvField c ≠ 0#16) (opnd : Word) :
    decodeCmd c opnd = .error .reserved := if_pos h

theorem decodeCmd_of_opc {opc : BitVec 8} (h : 8 ≤ opc.toNat) (arg : BitVec 8) (opnd : Word) :
    decodeCmd (cmdWord opc arg) opnd = .error .opcode := by
  simp only [decodeCmd, rsvField_cmdWord, opcField_cmdWord, ne_eq, not_true_eq_false, if_false]
  split <;> simp_all

/-- Every word has `rsv` set, an unused `opc`, or one of the eight opcodes (R93, R94). -/
theorem word_cases (c : BitVec 32) :
    rsvField c ≠ 0#16 ∨ ∃ opc arg, c = cmdWord opc arg ∧
      (8 ≤ opc.toNat ∨ opc = 0x00#8 ∨ opc = 0x01#8 ∨ opc = 0x02#8 ∨ opc = 0x03#8 ∨ opc = 0x04#8 ∨ opc = 0x05#8 ∨
        opc = 0x06#8 ∨ opc = 0x07#8) := by
  by_cases hrsv : rsvField c = 0#16
  · refine .inr ⟨_, _, eq_cmdWord_of_rsvField hrsv, ?_⟩
    bv_omega
  · exact .inl hrsv

/-! ### The round trip -/

/-- Settles O2, instruction by instruction: what the encoder places in `arg` is what the decoder of `arg` takes out. -/
theorem decodeOfEncode : Obligations.DecodeOfEncode := by
  intro i hwf
  cases i with
  | nop | setaddr | setlen | errclr => rfl
  | run w => simp [encode, decode, decodeRun_setWidth]
  | accwr idx opnd => simp [encode, decode, decodeIndexed_ofNat]
  | accrd idx => simp [encode, decode, decodeIndexed_ofNat]
  | rdsr sel =>
    have hsel : sel.toNat < 7 := selectorOk_iff.1 hwf
    simp [encode, decode, decodeRdsr_setWidth, decodeSelector_of_ok hsel]
  | uSetup | uHead | uExit | uMflush | uChunk | uResid | uFinal => rfl

/-- Settles O3, opcode by opcode: what the decoder of `arg` accepts is what the encoder places there. -/
theorem encodeOfDecode : Obligations.EncodeOfDecode := by
  intro c opnd i h
  rcases word_cases c with hrsv | ⟨opc, arg, rfl, hopc | rfl | rfl | rfl | rfl | rfl | rfl | rfl | rfl⟩
  · simp [decodeCmd_of_rsvField hrsv] at h
  · simp [decodeCmd_of_opc hopc] at h
  · rw [decodeCmd_nop, decodePlain_eq_ok_iff] at h
    obtain ⟨rfl, rfl⟩ := h
    exact ⟨rfl, rfl, rfl⟩
  · rw [decodeCmd_setaddr, decodePlain_eq_ok_iff] at h
    obtain ⟨rfl, rfl⟩ := h
    exact ⟨rfl, rfl, rfl⟩
  · rw [decodeCmd_setlen, decodePlain_eq_ok_iff] at h
    obtain ⟨rfl, rfl⟩ := h
    exact ⟨rfl, rfl, rfl⟩
  · rw [decodeCmd_run, decodeRun_eq_ok_iff] at h
    obtain ⟨w, rfl, rfl⟩ := h
    exact ⟨rfl, rfl, rfl⟩
  · rw [decodeCmd_accwr, decodeIndexed_eq_ok_iff] at h
    obtain ⟨idx, rfl, rfl⟩ := h
    exact ⟨rfl, rfl, rfl⟩
  · rw [decodeCmd_accrd, decodeIndexed_eq_ok_iff] at h
    obtain ⟨idx, rfl, rfl⟩ := h
    exact ⟨rfl, rfl, rfl⟩
  · rw [decodeCmd_rdsr, decodeRdsr_eq_ok_iff] at h
    obtain ⟨sel, rfl, hsel, rfl⟩ := h
    exact ⟨hsel, rfl, rfl⟩
  · rw [decodeCmd_errclr, decodePlain_eq_ok_iff] at h
    obtain ⟨rfl, rfl⟩ := h
    exact ⟨rfl, rfl, rfl⟩

/-! ### The match/mask table -/

theorem eq_of_full_mask {c pattern : BitVec 32} (h : c &&& 0xFFFFFFFF#32 = pattern) : c = pattern :=
  (BitVec.and_allOnes (x := c)).symm.trans h

/-- Where the mask is all ones the word has the bits of the match. -/
theorem extractLsb'_of_and_eq {c mask pattern : BitVec 32} (h : c &&& mask = pattern) {start len : Nat}
    (hm : mask.extractLsb' start len = BitVec.allOnes len) :
    c.extractLsb' start len = pattern.extractLsb' start len := by
  rw [← h, BitVec.extractLsb'_and, hm, BitVec.and_allOnes]

theorem extractLsb'_argField {k n : Nat} (hk : k + n ≤ 8) (c : BitVec 32) :
    (argField c).extractLsb' k n = c.extractLsb' (8 + k) n := by
  ext i hi
  have hin : k + i < 8 := by omega
  simp [argField, hin, Nat.add_assoc]

/-- A word that meets a row's match under its mask has the row's `opc`, and its `arg` is the row's field of `k` bits: the
mask covers `opc`, `rsv` and the `n` must-be-zero bits of `arg` (R93). -/
theorem eq_cmdWord_of_row {c mask : BitVec 32} {opc : BitVec 8} {k n : Nat} (h : c &&& mask = cmdWord opc 0#8)
    (hk : k + n = 8) (hmask : mask.extractLsb' 0 8 = BitVec.allOnes 8 ∧ mask.extractLsb' 16 16 = BitVec.allOnes 16 ∧
      mask.extractLsb' (8 + k) n = BitVec.allOnes n) :
    c = cmdWord opc ((c.extractLsb' 8 k).setWidth 8) := by
  obtain ⟨hopc, hrsv, hzero⟩ := hmask
  have hopc' : opcField c = opc := (extractLsb'_of_and_eq h hopc).trans (opcField_cmdWord opc 0#8)
  have hrsv' : rsvField c = 0#16 := (extractLsb'_of_and_eq h hrsv).trans (rsvField_cmdWord opc 0#8)
  have hzero' : (argField c).extractLsb' k n = 0#n := by
    rw [extractLsb'_argField (by omega), extractLsb'_of_and_eq h hzero, ← extractLsb'_argField (by omega),
      argField_cmdWord, BitVec.extractLsb'_zero]
  have harg := setWidth_extractLsb'_low ((extractLsb'_high_eq_zero_iff hk).1 hzero')
  rw [extractLsb'_argField (by omega)] at harg
  rw [harg, ← hopc']
  exact eq_cmdWord_of_rsvField hrsv'

/-- Every instruction's code meets the row that its mnemonic names. -/
theorem tableRow (i : Instr) : Laws.TableRow.Statement i := by
  cases i with
  | nop => exact Laws.TableRow.nop
  | setaddr opnd => exact Laws.TableRow.setaddr opnd
  | setlen opnd => exact Laws.TableRow.setlen opnd
  | run w => exact Laws.TableRow.run w
  | accwr idx opnd => exact Laws.TableRow.accwr idx opnd
  | accrd idx => exact Laws.TableRow.accrd idx
  | rdsr sel => exact Laws.TableRow.rdsr sel
  | errclr => exact Laws.TableRow.errclr
  | uSetup => exact Laws.TableRow.uSetup
  | uHead => exact Laws.TableRow.uHead
  | uExit => exact Laws.TableRow.uExit
  | uMflush => exact Laws.TableRow.uMflush
  | uChunk => exact Laws.TableRow.uChunk
  | uResid => exact Laws.TableRow.uResid
  | uFinal => exact Laws.TableRow.uFinal

/-- A word that decodes is the encoder's, so a row of the table selects it (R93). -/
theorem exists_row_of_decodeCmd {c : BitVec 32} {opnd : Word} {i : Instr} (h : decodeCmd c opnd = .ok i) :
    ∃ r ∈ cmdTable, r.selects c = true := by
  obtain ⟨-, -, henc⟩ := encodeOfDecode c opnd i h
  have hrow := tableRow i
  rw [Laws.TableRow.Statement, henc] at hrow
  obtain ⟨r, hr, -, hsel⟩ := hrow
  exact ⟨r, hr, hsel⟩

/-- Settles O4: a row gives the word's `opc` and field, and with them its decoding; a word that decodes has a row. -/
theorem matchMaskTable : Obligations.MatchMaskTable := by
  intro c opnd
  refine ⟨fun h => ?_, fun h => ?_, fun h => ?_, fun h => ?_, fun h => ?_, fun h => ?_, fun h hsel => ?_,
    fun h hsel => ?_, fun h => ?_, fun h => ?_⟩
  · obtain rfl := eq_of_full_mask h
    rfl
  · obtain rfl := eq_of_full_mask h
    rfl
  · obtain rfl := eq_of_full_mask h
    rfl
  · have hc := eq_cmdWord_of_row (opc := 0x03#8) (k := 2) (n := 6) h rfl (by decide)
    rw [congrArg decodeCmd hc, decodeCmd_run, decodeRun_setWidth]
  · have hc := eq_cmdWord_of_row (opc := 0x04#8) (k := 6) (n := 2) h rfl (by decide)
    rw [congrArg decodeCmd hc, decodeCmd_accwr, decodeIndexed_setWidth]
  · have hc := eq_cmdWord_of_row (opc := 0x05#8) (k := 6) (n := 2) h rfl (by decide)
    rw [congrArg decodeCmd hc, decodeCmd_accrd, decodeIndexed_setWidth]
  · have hc := eq_cmdWord_of_row (opc := 0x06#8) (k := 4) (n := 4) h rfl (by decide)
    rw [congrArg decodeCmd hc, decodeCmd_rdsr, decodeRdsr_setWidth, decodeSelector_of_ok (by omega)]
  · have hc := eq_cmdWord_of_row (opc := 0x06#8) (k := 4) (n := 4) h rfl (by decide)
    rw [congrArg decodeCmd hc, decodeCmd_rdsr, decodeRdsr_setWidth, decodeSelector_of_reserved hsel]
  · obtain rfl := eq_of_full_mask h
    rfl
  · cases hd : decodeCmd c opnd with
    | error e => exact ⟨e, rfl⟩
    | ok i =>
      obtain ⟨r, hr, hsel⟩ := exists_row_of_decodeCmd hd
      exact absurd (hsel.symm.trans (h r hr)) (by simp)

/-! ### Words of the tables -/

/-- Settles O1: each word is decoded. -/
theorem specWordsDecode : Obligations.SpecWordsDecode :=
  ⟨rfl, rfl, rfl, rfl, rfl, rfl, rfl, rfl, rfl, rfl, rfl, rfl, rfl, rfl, rfl, rfl, rfl, rfl, rfl, rfl⟩

end Sys2Proof

/-! PROOFS. The command port and the sequencer's selection: illegal words, placed words and ACCZ (R94, R96, R98). -/

namespace Sys2Proof.Machine

/-! ### Illegal words -/

/-- R94's grounds, for a word with `rsv` zero. -/
theorem illegalWord_cmdWord_iff (opc arg : BitVec 8) : IllegalWord (cmdWord opc arg) ↔
    8 ≤ opc.toNat ∨ ((opc.toNat ≤ 2 ∨ opc.toNat = 7) ∧ arg.toNat ≠ 0) ∨ (opc.toNat = 3 ∧ 4 ≤ arg.toNat) ∨
      ((opc.toNat = 4 ∨ opc.toNat = 5) ∧ 64 ≤ arg.toNat) ∨
      (opc.toNat = 6 ∧ (16 ≤ arg.toNat ∨ 7 ≤ arg.toNat % 16)) := by
  have hopc := opcField_toNat (cmdWord opc arg)
  have harg := argField_toNat (cmdWord opc arg)
  have hrsv := rsvField_toNat (cmdWord opc arg)
  simp only [opcField_cmdWord, argField_cmdWord, rsvField_cmdWord] at hopc harg hrsv
  simp [IllegalWord, ← hopc, ← harg, ← hrsv]

theorem illegalWord_of_rsvField {c : BitVec 32} (h : rsvField c ≠ 0#16) : IllegalWord c := by
  have hrsv : c.toNat / 65536 ≠ 0 := fun e => h (BitVec.eq_of_toNat_eq ((rsvField_toNat c).trans e))
  exact .inr (.inl hrsv)

/-- The decoder rejects the words R94 calls illegal, opcode by opcode. -/
theorem illegalWord_iff_rejected (c : BitVec 32) (opnd : Word) :
    IllegalWord c ↔ ∃ e, decodeCmd c opnd = .error e := by
  rcases word_cases c with hrsv | ⟨opc, arg, rfl, hopc | rfl | rfl | rfl | rfl | rfl | rfl | rfl | rfl⟩
  · simp [illegalWord_of_rsvField hrsv, decodeCmd_of_rsvField hrsv]
  · simp [illegalWord_cmdWord_iff, decodeCmd_of_opc hopc, hopc]
  · simp [illegalWord_cmdWord_iff, decodePlain_rejects_iff]
  · simp [illegalWord_cmdWord_iff, decodePlain_rejects_iff]
  · simp [illegalWord_cmdWord_iff, decodePlain_rejects_iff]
  · simp [illegalWord_cmdWord_iff, decodeRun_rejects_iff]
  · simp [illegalWord_cmdWord_iff, decodeIndexed_rejects_iff]
  · simp [illegalWord_cmdWord_iff, decodeIndexed_rejects_iff]
  · simp [illegalWord_cmdWord_iff, decodeRdsr_rejects_iff]
  · simp [illegalWord_cmdWord_iff, decodePlain_rejects_iff]

section
variable {s : State} {c : BitVec 32} {opnd : Word} {rest : List Input} (hp : s.ph = .idle) (hr : s.rst = false)
  (hin : s.inputs = .command c opnd :: rest)
include hp hr hin

/-- A command presented at the ready port out of reset is accepted (R220). -/
theorem turn_of_command : s.turn = State.portTurn { s with inputs := rest } c opnd := by
  have hready : s.cmdReady = true := State.cmdReady_iff.2 hp
  simp [State.turn, hin, hready, hr]

theorem step_of_command {i : Instr} (hd : decodeCmd c opnd = .ok i) : step s = exec i { s with inputs := rest } := by
  rw [step, turn_of_command hp hr hin, State.portTurn, hd]

theorem step_of_rejected {e : Reject} (hd : decodeCmd c opnd = .error e) :
    step s = .next (State.afterIllcmd { s with inputs := rest }) := by
  rw [step, turn_of_command hp hr hin, State.portTurn, hd]
  rfl

end

/-- Settles O5: R94's grounds are where the decoder rejects, and a rejected word has the one effect. -/
theorem illegalWordsRaiseIllcmd : Obligations.IllegalWordsRaiseIllcmd := by
  refine ⟨illegalWord_iff_rejected, fun c hc s opnd rest hp hr hin => ?_⟩
  obtain ⟨e, hd⟩ := (illegalWord_iff_rejected c opnd).1 hc
  exact step_of_rejected hp hr hin hd

/-! ### The sequencer's selection -/

theorem State.selectUop_of_phase {s : State} {p : Phase} (h : s.ph = p) :
    s.selectUop = decodeUop p.code (decide (s.rem.toNat < 128)) (s.ep == 15#4) := by
  rw [State.selectUop, h]

/-- In CHUNK the two tests select, the first that holds (R96). -/
theorem State.selectUop_of_chunk {s : State} (h : s.ph = .chunk) :
    s.selectUop = .ok (if s.rem.toNat < 128 then .uExit else if s.ep = 15#4 then .uMflush else .uChunk) := by
  rw [State.selectUop_of_phase h]
  simp [decodeUop, Phase.code]

/-- Settles O6, phase by phase. -/
theorem sequencerSelection : Obligations.SequencerSelection := by
  intro s
  refine ⟨State.selectUop_of_phase, State.selectUop_of_phase, fun hp hrem => ?_, fun hp hrem hep => ?_,
    fun hp hrem hep => ?_, State.selectUop_of_phase, State.selectUop_of_phase, State.selectUop_of_phase⟩
  · rw [State.selectUop_of_chunk hp, if_pos hrem]
  · rw [State.selectUop_of_chunk hp, if_neg (Nat.not_lt.2 hrem), if_pos hep]
  · rw [State.selectUop_of_chunk hp, if_neg (Nat.not_lt.2 hrem), if_neg hep]

/-! ### Placed words -/

/-- A `wait` leaves the step to the sequencer (R7). -/
theorem step_of_wait {s : State} {rest : List Input} {i : Instr} (hr : s.rst = false)
    (hin : s.inputs = .wait :: rest) (hi : s.selectUop = .ok i) : step s = exec i { s with inputs := rest } := by
  have hturn : s.turn = .execute i { s with inputs := rest } := by
    simp only [State.turn, hin]
    exact State.sequencerTurn_of_ok hr hi
  rw [step, hturn]

/-! What placing the phase code of CHUNK makes of its two tests: they answer what they are asked to (log 13). -/

theorem State.selecting_rem_lt (s : State) (remLow epFull : Bool) :
    (s.selecting 3#3 remLow epFull).rem.toNat < 128 ↔ remLow = true := by
  rcases Nat.lt_or_ge s.rem.toNat 128 with h | h <;> cases remLow <;>
    simp [State.selecting, h, Nat.not_lt.2, Nat.not_le.2]

theorem State.selecting_ep_eq (s : State) (epFull : Bool) :
    (s.selecting 3#3 false epFull).ep = 15#4 ↔ epFull = true := by
  by_cases h : s.ep = 15#4 <;> cases epFull <;> simp [State.selecting, h]

theorem State.selectUop_selecting_chunk (s : State) (remLow epFull : Bool) :
    (s.selecting 3#3 remLow epFull).selectUop = decodeUop 3#3 remLow epFull := by
  have hchunk : (s.selecting 3#3 remLow epFull).ph = .chunk := rfl
  rw [State.selectUop_of_chunk hchunk]
  cases remLow with
  | true =>
    rw [if_pos ((s.selecting_rem_lt _ _).2 rfl)]
    rfl
  | false =>
    rw [if_neg (by simp [s.selecting_rem_lt])]
    simp only [s.selecting_ep_eq]
    rfl

/-- A phase code and tests that select a micro-operation, placed, select it (R96). -/
theorem State.selectUop_selecting {s : State} {ph : BitVec 3} {remLow epFull : Bool} {i : Instr}
    (h : decodeUop ph remLow epFull = .ok i) : (s.selecting ph remLow epFull).selectUop = .ok i := by
  obtain ⟨n, rfl⟩ : ∃ n : Fin 8, ph = BitVec.ofFin n := ⟨ph.toFin, rfl⟩
  -- The codes 0 to 7 of `PH`: 0, 6 and 7 select nothing, and only 3 depends on the tests (R24, R96).
  fin_cases n
  · cases h
  · exact h
  · exact h
  · exact (s.selectUop_selecting_chunk remLow epFull).trans h
  · exact h
  · exact h
  · cases h
  · cases h

theorem decode_of_decodeTableWord {nbits w : Nat} {i : Instr} (h : decodeTableWord nbits w = some i) :
    decode (codeOfTableWord nbits w) = .ok i := by
  unfold decodeTableWord at h
  cases hd : decode (codeOfTableWord nbits w) with
  | ok j =>
    rw [hd] at h
    exact congrArg _ (Option.some.inj h)
  | error e =>
    rw [hd] at h
    cases h

/-- Settles O7: a command word is accepted at the port it is placed at, a micro-operation selected by its phase. -/
theorem placedWordRuns : Obligations.PlacedWordRuns := by
  intro s nbits w i h
  have hd : decode (codeOfTableWord nbits w) = .ok i := decode_of_decodeTableWord h
  unfold State.withFetchWord
  cases hc : codeOfTableWord nbits w with
  | cmd c opnd =>
    rw [hc] at hd
    exact step_of_command rfl rfl rfl hd
  | uop ph remLow epFull =>
    rw [hc] at hd
    exact step_of_wait rfl rfl (State.selectUop_selecting hd)

/-! ### ACCZ (R98) -/

/-- What `ACCWR b, 0` for each `b` of a list leaves in the accumulators. -/
def zeroAccs (l : List (Fin 64)) (acc : Vector Word 64) : Vector Word 64 :=
  l.foldl (fun acc b => acc.set b.val 0#64) acc

theorem zeroAccs_getElem (l : List (Fin 64)) (acc : Vector Word 64) (j : Fin 64) :
    (zeroAccs l acc)[j.val] = if j ∈ l then 0#64 else acc[j.val] := by
  induction l generalizing acc with
  | nil => simp [zeroAccs]
  | cons b l ih =>
    have hrest : zeroAccs (b :: l) acc = zeroAccs l (acc.set b.val 0#64) := rfl
    rw [hrest, ih, Vector.getElem_set]
    have hb : b.val = j.val ↔ j = b := by rw [Fin.ext_iff, eq_comm]
    by_cases hl : j ∈ l <;> simp [hl, hb]

/-- `ACCWR b, 0` at the command port. -/
def zeroCommand (b : Fin 64) : Input := .command (cmdWord 0x04#8 (BitVec.ofNat 8 b.val)) 0#64

theorem step_of_zeroCommand {s : State} {b : Fin 64} {rest : List Input} (hp : s.ph = .idle) (hr : s.rst = false)
    (hin : s.inputs = zeroCommand b :: rest) :
    step s = .next { s with acc := s.acc.set b.val 0#64, inputs := rest, rsps := s.rsps ++ [0#64] } := by
  have hd : decodeCmd (cmdWord 0x04#8 (BitVec.ofNat 8 b.val)) 0#64 = .ok (.accwr b 0#64) :=
    decodeOfEncode (.accwr b 0#64) rfl
  rw [step_of_command hp hr hin hd]
  rfl

/-- A list of such commands is one step each, with a response of 0 (R224). -/
theorem run_zeroCommands (l : List (Fin 64)) {s : State} {rest : List Input} (hp : s.ph = .idle) (hr : s.rst = false)
    (hin : s.inputs = l.map zeroCommand ++ rest) :
    Host.Core.run Sys2Proof.core l.length s =
      .next { s with acc := zeroAccs l s.acc, inputs := rest, rsps := s.rsps ++ List.replicate l.length 0#64 } := by
  induction l generalizing s with
  | nil =>
    obtain rfl : s.inputs = rest := hin
    exact congrArg (fun r => Host.Outcome.next { s with rsps := r }) (List.append_nil s.rsps).symm
  | cons b l ih =>
    refine (run_succ_of_next l.length (step_of_zeroCommand hp hr hin)).trans ((ih ?_ ?_ ?_).trans ?_)
    · exact hp
    · exact hr
    · rfl
    · simp [zeroAccs, List.replicate_succ]

/-- The accumulators that `ACCZ.w` zeroes. -/
def acczTargets (w : Nat) : List (Fin 64) := (List.finRange 64).filter (·.val < w)

theorem acczExpansion_eq (wsel : BitVec 2) :
    acczExpansion wsel = (acczTargets (Config.width wsel)).map fun b => .accwr b 0#64 := by
  simp [acczExpansion, acczTargets, ← List.filterMap_eq_filter, List.map_filterMap, Option.guard]

theorem acczTargets_length (wsel : BitVec 2) : (acczTargets (Config.width wsel)).length = Config.width wsel := by
  revert wsel
  decide

/-- Settles O24: the expansion is `w` zeroing commands, one for each accumulator below `w`. -/
theorem acczZeroesTheAccumulators : Obligations.AcczZeroesTheAccumulators := by
  intro s wsel rest hp hr hin
  rw [acczExpansion_eq, List.map_map] at hin
  have hrun := run_zeroCommands (acczTargets (Config.width wsel)) hp hr hin
  rw [acczTargets_length] at hrun
  refine ⟨_, hrun, fun j => ?_, rfl⟩
  simp [zeroAccs_getElem, acczTargets]

end Sys2Proof.Machine

/-! PROOFS. The carry-save-adder network: its two trees are the lane sums (R121, R122, R125). -/

namespace Sys2Proof.Machine

/-! ### The CSA and one level of a tree -/

/-- R121 by the eight cases of three bits, for every lane number. -/
theorem csa_lane (a b c : Word) (i : Nat) :
    lane a i + lane b i + lane c i = lane (csa a b c).1 i + 2 * lane (csa a b c).2 i := by
  simp only [lane, csa, BitVec.getLsbD_xor, BitVec.getLsbD_and, BitVec.getLsbD_or]
  cases a.getLsbD i <;> cases b.getLsbD i <;> cases c.getLsbD i <;> rfl

/-- Settles O37. -/
theorem csaLaneLaw : Obligations.CsaLaneLaw := fun a b c i _ => csa_lane a b c i

/-- The number of words of a list with bit `i` set. -/
def laneTotal (ws : List Word) (i : Nat) : Nat := (ws.map (lane · i)).sum

@[simp] theorem laneTotal_nil (i : Nat) : laneTotal [] i = 0 := rfl

@[simp] theorem laneTotal_cons (a : Word) (ws : List Word) (i : Nat) :
    laneTotal (a :: ws) i = lane a i + laneTotal ws i := List.sum_cons

theorem laneTotal_ofFn {n : Nat} (w : Fin n → Word) (i : Nat) :
    laneTotal (List.ofFn w) i = ∑ j : Fin n, lane (w j) i := by
  rw [laneTotal, List.map_ofFn, List.sum_ofFn]
  rfl

/-- One weight of a tree of R124 or R127: CSAs chained by their sums, the first starting from `a` and each taking two
more words. It leaves the plane of that weight and the carries, the words of twice the weight. An odd word left at the
end is added with 0; neither canonical tree has one. -/
def csaChain (a : Word) : List Word → Word × List Word
  | [] => (a, [])
  | [b] => ((csa a b 0#64).1, [(csa a b 0#64).2])
  | b :: c :: ws =>
    let rest := csaChain (csa a b c).1 ws
    (rest.1, (csa a b c).2 :: rest.2)

theorem csaChain_lane (a : Word) (ws : List Word) (i : Nat) :
    lane a i + laneTotal ws i = lane (csaChain a ws).1 i + 2 * laneTotal (csaChain a ws).2 i := by
  induction a, ws using csaChain.induct with
  | case1 a => rfl
  | case2 a b =>
    have hcsa := csa_lane a b 0#64 i
    have hzero : lane 0#64 i = 0 := by simp [lane]
    simp only [csaChain, laneTotal_cons, laneTotal_nil]
    omega
  | case3 a b c ws ih =>
    have hcsa := csa_lane a b c i
    simp only [csaChain, laneTotal_cons]
    omega

theorem csaChain_lane_of_eq {a p : Word} {ws carries : List Word} (h : csaChain a ws = (p, carries)) (i : Nat) :
    lane a i + laneTotal ws i = lane p i + 2 * laneTotal carries i := by
  simpa only [h] using csaChain_lane a ws i

/-! ### What the canonical trees spell -/

/-- The head tree, weight by weight (R124): the carries of one weight are the words of the next, and the one carry of
weight 4 is the plane of weight 8. -/
theorem head15_chains (w : Fin 15 → Word) : ∃ t0 twos f0 fours,
    csaChain (w 0) (List.ofFn fun j : Fin 14 => w j.succ) = ((head15 w).p1, t0 :: twos) ∧
    csaChain t0 twos = ((head15 w).p2, f0 :: fours) ∧
    csaChain f0 fours = ((head15 w).p4, [(head15 w).p8]) := by
  unfold head15
  exact ⟨_, _, _, _, rfl, rfl, rfl⟩

/-- The chunk tree, weight by weight (R127): each weight begins with its carried plane. -/
theorem chunk16_chains (p : Planes) (w : Fin 16 → Word) : ∃ twos fours eights,
    csaChain p.p1 (List.ofFn w) = ((chunk16 p w).1.p1, twos) ∧
    csaChain p.p2 twos = ((chunk16 p w).1.p2, fours) ∧
    csaChain p.p4 fours = ((chunk16 p w).1.p4, eights) ∧
    csaChain p.p8 eights = ((chunk16 p w).1.p8, [(chunk16 p w).2]) := by
  unfold chunk16
  exact ⟨_, _, _, rfl, rfl, rfl, rfl⟩

theorem head15_value (w : Fin 15 → Word) (i : Nat) : (head15 w).value i = ∑ j : Fin 15, lane (w j) i := by
  obtain ⟨t0, twos, f0, fours, hw1, hw2, hw4⟩ := head15_chains w
  have h1 := csaChain_lane_of_eq hw1 i
  have h2 := csaChain_lane_of_eq hw2 i
  have h4 := csaChain_lane_of_eq hw4 i
  rw [laneTotal_ofFn] at h1
  simp only [laneTotal_cons, laneTotal_nil] at h1 h2 h4
  rw [Fin.sum_univ_succ, Planes.value]
  omega

theorem chunk16_value (p : Planes) (w : Fin 16 → Word) (i : Nat) :
    (chunk16 p w).1.value i + 16 * lane (chunk16 p w).2 i = p.value i + ∑ j : Fin 16, lane (w j) i := by
  obtain ⟨twos, fours, eights, hw1, hw2, hw4, hw8⟩ := chunk16_chains p w
  have h1 := csaChain_lane_of_eq hw1 i
  have h2 := csaChain_lane_of_eq hw2 i
  have h4 := csaChain_lane_of_eq hw4 i
  have h8 := csaChain_lane_of_eq hw8 i
  rw [laneTotal_ofFn] at h1
  simp only [laneTotal_cons, laneTotal_nil] at h8
  unfold Planes.value
  omega

/-! ### The planes are the digits of the lanes' values -/

theorem word_eq_of_lane_eq {x y : Word} (h : ∀ i, i < 64 → lane x i = lane y i) : x = y :=
  BitVec.eq_of_getLsbD_eq fun i hi => Function.LeftInverse.injective Bool.ofNat_toNat (h i hi)

theorem Planes.eq_of_value_eq {p q : Planes} (h : ∀ i, i < 64 → p.value i = q.value i) : p = q := by
  have hdigits (i : Nat) (hi : i < 64) : lane p.p1 i = lane q.p1 i ∧ lane p.p2 i = lane q.p2 i ∧
      lane p.p4 i = lane q.p4 i ∧ lane p.p8 i = lane q.p8 i := by
    have hvalue := h i hi
    unfold Planes.value at hvalue
    have := lane_le_one p.p1 i
    have := lane_le_one p.p2 i
    have := lane_le_one p.p4 i
    have := lane_le_one q.p1 i
    have := lane_le_one q.p2 i
    have := lane_le_one q.p4 i
    omega
  simp only [imp_and, forall_and] at hdigits
  obtain ⟨h1, h2, h4, h8⟩ := hdigits
  cases p
  cases q
  rw [Planes.mk.injEq]
  exact ⟨word_eq_of_lane_eq h1, word_eq_of_lane_eq h2, word_eq_of_lane_eq h4, word_eq_of_lane_eq h8⟩

/-- Planes with a plane of weight 16 above them are determined by the numbers they spell, up to 31. -/
theorem planes_eq_of_value_add_eq {p q : Planes} {x y : Word}
    (h : ∀ i, i < 64 → p.value i + 16 * lane x i = q.value i + 16 * lane y i) : (p, x) = (q, y) := by
  have hdigits (i : Nat) (hi : i < 64) : p.value i = q.value i ∧ lane x i = lane y i := by
    have := h i hi
    have := p.value_le i
    have := q.value_le i
    omega
  simp only [imp_and, forall_and] at hdigits
  obtain ⟨hvalue, hsixteens⟩ := hdigits
  exact Prod.mk_inj.2 ⟨Planes.eq_of_value_eq hvalue, word_eq_of_lane_eq hsixteens⟩

/-- Settles O38: the head tree spells the lane sums, and planes that spell them too are the same. -/
theorem headTreeIsTheLaneSum : Obligations.HeadTreeIsTheLaneSum := by
  refine fun w p => ⟨fun h => Planes.eq_of_value_eq fun i hi => ?_, ?_⟩
  · rw [h i hi, head15_value]
  · rintro rfl i -
    exact head15_value w i

/-- Settles O39: the chunk tree spells the lane sums, and planes that spell them too are the same. -/
theorem chunkTreeIsTheLaneSum : Obligations.ChunkTreeIsTheLaneSum := by
  refine fun p w q q16 => ⟨fun h => planes_eq_of_value_add_eq fun i hi => ?_, fun h i _ => ?_⟩
  · rw [h i hi, chunk16_value]
  · obtain ⟨rfl, rfl⟩ : q = (chunk16 p w).1 ∧ q16 = (chunk16 p w).2 := Prod.mk_inj.1 h
    exact chunk16_value p w i

end Sys2Proof.Machine

/-! PROOFS. The counter bank: one counter, the nibble view, and the exactness of the counts (R151 to R163). -/

namespace Sys2Proof.Machine

/-! ### One counter -/

/-- Settles O40: the counter added to, the others, and `SAT`. -/
theorem saturatingCounterAdd : Obligations.SaturatingCounterAdd := by
  intro b i d
  refine ⟨?_, fun j hj => cbadd_cb_other hj d b, ?_⟩
  · simp [cbadd, sat8_toNat]
  · simp [cbadd, clips]

/-! ### The nibble view -/

/-- The number a nibble's four bits spell. -/
theorem toNat_eq_four_bits (x : BitVec 4) :
    x.toNat = (x.getLsbD 0).toNat + 2 * (x.getLsbD 1).toNat + 4 * (x.getLsbD 2).toNat + 8 * (x.getLsbD 3).toNat := by
  revert x
  decide

theorem nibble_eq_lanes (x : Word) (j : Nat) :
    nibble x j = lane x (4 * j) + 2 * lane x (4 * j + 1) + 4 * lane x (4 * j + 2) + 8 * lane x (4 * j + 3) := by
  rw [nibble, toNat_eq_four_bits]
  simp [lane]

/-- The plane of weight `2^r` (R37). -/
def Planes.weight (p : Planes) : Nat → Word
  | 0 => p.p1
  | 1 => p.p2
  | 2 => p.p4
  | _ => p.p8

/-- Bit `4j + r` of a view is lane `16k + j` of the plane of weight `2^r` (R154). -/
theorem nibbleView_lane (p : Planes) (k : Nat) {j r : Nat} (hj : j < 16) (hr : r < 4) :
    lane (nibbleView p k) (4 * j + r) = lane (p.weight r) (16 * k + j) := by
  have hbit : 4 * j + r < 64 := by omega
  have hlane : (4 * j + r) / 4 = j := by omega
  have hweight : (4 * j + r) % 4 = r := by omega
  rw [nibbleView, lane, BitVec.getLsbD_ofFnLE, dif_pos hbit]
  simp only [hlane, hweight]
  interval_cases r <;> rfl

/-- Settles O41: the nibble's four bits are the lane's bits in the four planes. -/
theorem nibbleViewHoldsTheLanes : Obligations.NibbleViewHoldsTheLanes := by
  intro p k j _ hj
  have h1 : lane (nibbleView p k) (4 * j) = lane p.p1 (16 * k + j) := nibbleView_lane p k hj (r := 0) (by omega)
  have h2 := nibbleView_lane p k hj (r := 1) (by omega)
  have h4 := nibbleView_lane p k hj (r := 2) (by omega)
  have h8 := nibbleView_lane p k hj (r := 3) (by omega)
  rw [nibble_eq_lanes, h1, h2, h4, h8]
  rfl

/-- `(k, j) ↦ 16k + j` reaches every lane, so its nibble is its residual value (R156). -/
theorem nibble_nibbleView (p : Planes) (i : Fin 64) :
    nibble (nibbleView p (i.val / 16)) (i.val % 16) = p.value i.val := by
  rw [nibbleViewHoldsTheLanes p _ _ (by omega) (by omega), Nat.div_add_mod]

theorem State.cbresid_eq_count (s : State) : s.cbresid = s.count fun i => s.pl.value i.val := by
  simp only [State.cbresid, nibble_nibbleView]

/-- Settles O42: lane by lane the nibble is the number the four planes spell. -/
theorem residualFoldLaneByLane : Obligations.ResidualFoldLaneByLane := State.cbresid_eq_count

/-! ### The lanes of the words read -/

/-- A lane of an answered read whose byte was asked for is the bit of memory (R63, R66). -/
theorem lane_of_memReadBE {m : List Host.Cell} {n a : Nat} {be : BitVec 8} {d : Word}
    (h : memReadBE m n a be = some d) {i : Nat} (hi : i < 64) (hbe : be.getLsbD (i / 8) = true) :
    lane d i = memBit m a i := by
  obtain ⟨v, hv, hbit⟩ := memReadBE_bit h (k := i / 8) (r := i % 8) (by omega) (by omega)
  rw [busByte_of_enabled hbe] at hv
  rw [Nat.div_add_mod] at hbit
  rw [lane, memBit, hv, hbit, Option.getD_some]

theorem allEnabled_getLsbD : ∀ {k : Nat}, k < 8 → (0xFF#8).getLsbD k = true := by decide

/-- The head mask clears the lanes below bit `8 m` and keeps the others (R67). -/
theorem lane_and_headMask (x : Word) (m : Nat) {i : Nat} (hi : i < 64) :
    lane (x &&& headMask m) i = if i < 8 * m then 0 else lane x i := by
  rw [lane, lane, BitVec.getLsbD_and, headMask_getLsbD]
  by_cases hlow : i < 8 * m
  · simp [hlow, Nat.not_le.2 hlow]
  · simp [hlow, hi, Nat.not_lt.1 hlow]

section
variable {s : State} {n : Nat} {ws : List Word} {i : Nat}

/-- The lanes of the chunk's words are the bits that R125 sums. -/
theorem State.lane_chunkWord (h : Machine.readBlock s.mem n s.chunkRequests = .words ws) (hi : i < 64) {j : Nat}
    (hj : j < 16) : lane (wordAt ws j) i = memBit s.mem (s.wordAddr j).toNat i := by
  have hread := (readBlock_words h).2 j (by simpa [State.chunkRequests] using hj)
  simp only [State.chunkRequests, List.getElem_map, List.getElem_range] at hread
  exact lane_of_memReadBE hread hi (allEnabled_getLsbD (by omega))

/-- The lanes of the head's masked words are the bits that R122 sums: below bit `8 m` of the first word both are 0. -/
theorem State.lane_headWordAt (h : Machine.readBlock s.mem n s.headRequests = .words ws) (hi : i < 64) {j : Nat}
    (hj : j < 15) : lane (headWordAt s.misalign ws j) i = s.headBit j i := by
  have hread := (readBlock_words h).2 j (by simpa [State.headRequests] using hj)
  simp only [State.headRequests, List.getElem_map, List.getElem_range] at hread
  unfold headWordAt State.headBit
  by_cases hfirst : j = 0
  · subst hfirst
    rw [if_pos rfl] at hread
    rw [if_pos rfl, lane_and_headMask _ _ hi]
    by_cases hlow : i < 8 * s.misalign
    · rw [if_pos hlow, if_pos ⟨rfl, hlow⟩]
    · have hbe : (headEnables s.misalign).getLsbD (i / 8) = true := by
        rw [headEnables_getLsbD, decide_eq_true_eq]
        omega
      rw [if_neg hlow, if_neg fun e => hlow e.2]
      exact lane_of_memReadBE hread hi hbe
  · rw [if_neg hfirst] at hread
    rw [if_neg hfirst, if_neg fun e => hfirst e.1]
    exact lane_of_memReadBE hread hi (allEnabled_getLsbD (by omega))

/-- The planes `u.HEAD` leaves spell the sums of the words read (R182). -/
theorem State.head15_value_eq_headSum (h : Machine.readBlock s.mem n s.headRequests = .words ws) (hi : i < 64) :
    (head15 fun j => headWordAt s.misalign ws j.val).value i = s.headSum i := by
  rw [head15_value, State.headSum, Finset.sum_range]
  exact Finset.sum_congr rfl fun j _ => State.lane_headWordAt h hi j.isLt

/-- The planes `u.CHUNK` leaves and the one it emits spell the carried value and the sums of the words read (R185). -/
theorem State.chunk16_value_eq_chunkSum (h : Machine.readBlock s.mem n s.chunkRequests = .words ws) (hi : i < 64) :
    (chunk16 s.pl fun j => wordAt ws j.val).1.value i + 16 * lane (chunk16 s.pl fun j => wordAt ws j.val).2 i =
      s.pl.value i + s.chunkSum i := by
  rw [chunk16_value, State.chunkSum, Finset.sum_range]
  exact congrArg _ (Finset.sum_congr rfl fun j _ => State.lane_chunkWord h hi j.isLt)

end

/-! ### Sums over the lanes of an accumulator -/

theorem foldedSum_add (w b : Nat) (f g : Fin 64 → Nat) :
    foldedSum w b (fun i => f i + g i) = foldedSum w b f + foldedSum w b g := Finset.sum_add_distrib

@[simp] theorem foldedSum_zero (w b : Nat) : foldedSum w b (fun _ => 0) = 0 := Finset.sum_const_zero

/-- The flush adds to each accumulator the counters of its lanes, modulo 2^64 (R158). -/
theorem foldBank_eq_foldedSum (w : Nat) (cb : Vector Byte 64) (acc : Vector Word 64) (b : Fin 64) :
    (foldBank w cb acc)[b.val] = acc[b.val] + BitVec.ofNat 64 (foldedSum w b.val fun i => cb[i.val].toNat) := by
  have hlane (i : Fin 64) : (cb[i.val].setWidth 64 : Word) = (cb[i.val].toNat : Word) :=
    (BitVec.ofNat_toNat 64 cb[i.val]).symm
  rw [foldBank_getElem, ← Fin.sum_univ_def, foldedSum, Finset.sum_filter]
  simp only [hlane, ← BitVec.natCast_eq_ofNat, Nat.cast_sum, Nat.cast_ite, Nat.cast_zero]

/-! ### The tally and what is pending in the lanes -/

@[simp] theorem Planes.zero_value (i : Nat) : Planes.zero.value i = 0 := by
  simp [Planes.value, Planes.zero, lane]

/-- What lane `i` holds that is not yet in an accumulator (R162). -/
def State.pending (s : State) (i : Fin 64) : Nat := s.cb[i.val].toNat + s.pl.value i.val

theorem State.tally_eq (s : State) (b : Fin 64) :
    s.tally b = s.acc[b.val] + BitVec.ofNat 64 (foldedSum (Config.width s.wsel) b.val s.pending) := rfl

section
variable {s t : State} (b : Fin 64)

theorem State.tally_of_pending_zero (h : ∀ i, s.pending i = 0) : s.tally b = s.acc[b.val] := by
  rw [State.tally_eq, funext h, foldedSum_zero]
  exact BitVec.add_zero _

/-- A step that adds `f` to the pending counts and writes no accumulator adds the sum of `f` to the tally. -/
theorem State.tally_of_pending_add {f : Fin 64 → Nat} (hacc : t.acc = s.acc) (hwsel : t.wsel = s.wsel)
    (h : ∀ i, t.pending i = s.pending i + f i) :
    t.tally b = s.tally b + BitVec.ofNat 64 (foldedSum (Config.width s.wsel) b.val f) := by
  rw [State.tally_eq, State.tally_eq, hacc, hwsel, funext h, foldedSum_add, BitVec.ofNat_add, BitVec.add_assoc]

/-- A step that keeps the pending counts and writes no accumulator keeps the tally. -/
theorem State.tally_of_pending_eq (hacc : t.acc = s.acc) (hwsel : t.wsel = s.wsel)
    (h : ∀ i, t.pending i = s.pending i) : t.tally b = s.tally b := by
  rw [State.tally_eq, State.tally_eq, hacc, hwsel, funext h]

variable (s) in
/-- The flush moves the counters of each lane from the bank to its accumulator (R158). -/
theorem State.tally_cbflush : s.cbflush.tally b = s.tally b := by
  have hpending (i : Fin 64) : s.cbflush.pending i = s.pl.value i.val := by simp [State.pending]
  rw [State.tally_eq, State.tally_eq, funext hpending, State.cbflush_wsel, State.cbflush_acc, foldBank_eq_foldedSum,
    BitVec.add_assoc, ← BitVec.ofNat_add, ← foldedSum_add]
  rfl

end

/-! ### The tally, micro-operation by micro-operation -/

section
variable {s t : State} (b : Fin 64)

theorem State.tally_after_uSetup (he : exec .uSetup s = .next t) : t.tally b = s.acc[b.val] := by
  rcases exec_uSetup_cases he with ⟨-, rfl⟩ | ⟨-, rfl⟩ <;>
    exact State.tally_of_pending_zero b fun i => by simp [State.pending]

/-- The head finds the planes zero and puts its sums into them. -/
theorem State.Inv.tally_after_uHead (h : s.Inv) (hp : s.ph = .head) (hm : s.memStalled = false)
    (hr : ∀ r ∈ s.headRequests, Readable s.mem r) (he : exec .uHead s = .next t) :
    t.tally b = s.tally b + BitVec.ofNat 64 (foldedSum (Config.width s.wsel) b.val fun i => s.headSum i.val) := by
  obtain ⟨hzero, -⟩ := h.fresh hp
  obtain ⟨ws, hws, hblock⟩ := State.withBlock_of_readable headEffect hm hr
  obtain rfl := (Host.Outcome.next.inj he).symm.trans hblock
  refine State.tally_of_pending_add b rfl rfl fun i => ?_
  have hpl : (headEffect ws (s.issue s.headRequests)).pl.value i.val = s.headSum i.val :=
    State.head15_value_eq_headSum hws i.isLt
  have hcb : (headEffect ws (s.issue s.headRequests)).cb = s.cb := rfl
  rw [State.pending, State.pending, hpl, hcb, hzero, Planes.zero_value, Nat.add_zero]

/-- The chunk's sums go into the planes, and of what the planes cannot hold 16 goes into the counter, which is at most
224 before the bank is full (R160). -/
theorem State.Inv.tally_after_uChunk (h : s.Inv) (hp : s.ph = .chunk) (hep : s.ep ≠ 15#4) (hm : s.memStalled = false)
    (hr : ∀ r ∈ s.chunkRequests, Readable s.mem r) (he : exec .uChunk s = .next t) :
    t.tally b = s.tally b + BitVec.ofNat 64 (foldedSum (Config.width s.wsel) b.val fun i => s.chunkSum i.val) := by
  obtain ⟨ws, hws, hblock⟩ := State.withBlock_of_readable chunkEffect hm hr
  obtain rfl := (Host.Outcome.next.inj he).symm.trans hblock
  refine State.tally_of_pending_add b (by simp [chunkEffect, State.cbemit]) (by simp [chunkEffect, State.cbemit])
    fun i => ?_
  have hvalue := State.chunk16_value_eq_chunkSum hws i.isLt
  set q := chunk16 s.pl fun j => wordAt ws j.val
  have hfit : s.cb[i.val].toNat + 16 * lane q.2 i.val ≤ 255 := by
    have := (h.headroom hp i).2
    have := lane_le_one q.2 i.val
    have : s.ep.toNat ≠ 15 := fun e => hep (BitVec.eq_of_toNat_eq e)
    have := s.ep.isLt
    omega
  have hcb : (chunkEffect ws (s.issue s.chunkRequests)).cb[i.val].toNat = s.cb[i.val].toNat + 16 * lane q.2 i.val :=
    State.count_cb_toNat hfit
  have hpl : (chunkEffect ws (s.issue s.chunkRequests)).pl = q.1 := rfl
  rw [State.pending, State.pending, hcb, hpl]
  omega

/-- A step whose reads are not all answered is not taken or ends in the BUS fault, and neither counts (R283; log 6). -/
theorem State.tally_of_unanswered {reqs : List Request} {k : List Word → State → State}
    (he : (.next (s.withBlock reqs k) : Host.Outcome State Fault Refusal) = .next t)
    (h : s.memStalled = true ∨ ∃ r ∈ reqs, ¬Readable s.mem r) : t.tally b = s.tally b := by
  obtain rfl := Host.Outcome.next.inj he
  rcases s.withBlock_cases reqs k with ⟨-, e⟩ | ⟨ws, hm, hws, -, -⟩ | ⟨pre, r, -, -, -, -, e⟩
  · rw [e]
  · rcases h with hs | ⟨r, hr, hno⟩
    · simp [hm] at hs
    · obtain ⟨j, hj, rfl⟩ := List.getElem_of_mem hr
      have hread := (readBlock_words hws).2 j hj
      exact absurd (memReadBE_isSome_iff_readable.1 (by rw [hread, Option.isSome_some])) hno
  · rw [e]
    rfl

theorem State.tally_after_uExit (he : exec .uExit s = .next t) : t.tally b = s.tally b := by
  obtain rfl := Host.Outcome.next.inj he
  rfl

theorem State.tally_after_uMflush (he : exec .uMflush s = .next t) : t.tally b = s.tally b := by
  obtain rfl := Host.Outcome.next.inj he
  exact s.tally_cbflush b

/-- The residual fold moves each lane's residual value from the planes to its counter (R186, R156). -/
theorem State.Inv.tally_after_uResid (h : s.Inv) (hp : s.ph = .resid) (he : exec .uResid s = .next t) :
    t.tally b = s.tally b := by
  obtain rfl := Host.Outcome.next.inj he
  refine State.tally_of_pending_eq b (by simp [State.cbresid]) (by simp [State.cbresid]) fun i => ?_
  have hfit : s.cb[i.val].toNat + s.pl.value i.val ≤ 255 := by
    have := h.residual hp i
    have := s.pl.value_le i.val
    omega
  have hcb := State.count_cb_toNat (d := fun i => s.pl.value i.val) hfit
  simp only [State.pending, State.cbresid_eq_count, hcb, Planes.zero_value, Nat.add_zero]

theorem State.tally_after_uFinal (he : exec .uFinal s = .next t) : t.tally b = s.tally b := by
  obtain rfl := Host.Outcome.next.inj he
  exact s.tally_cbflush b

end

/-! ### Every step -/

/-- Outside IDLE the invariant says that `rst` is low (R320). -/
theorem State.Inv.released {s : State} (h : s.Inv) (hp : s.ph ≠ .idle) : s.rst = false := by
  rw [← Bool.not_eq_true]
  intro hr
  have hreset := h.held hr
  simp [State.AtReset, hp] at hreset

/-- With nothing presented, a command that waits, or a `wait`, the step is the selected micro-operation's, and it finds
at most the inputs changed (R180, R220). -/
theorem State.Inv.exec_selected {s t : State} {i : Instr} (h : s.Inv)
    (hturn : s.undisturbed ∨ ∃ rest, s.inputs = .wait :: rest) (hi : s.selectUop = .ok i) (hstep : step s = .next t) :
    ∃ ins, State.Inv { s with inputs := ins } ∧ exec i { s with inputs := ins } = .next t := by
  have hinv (ins : List Input) : State.Inv { s with inputs := ins } := h.outside s.memStalled ins h.memory id
  have hr := h.released (State.selectUop_ok hi).1
  rcases hturn with hu | ⟨rest, hin⟩
  · exact ⟨s.inputs, hinv _, (step_of_selected hr hu hi).symm.trans hstep⟩
  · exact ⟨rest, hinv _, (step_of_wait hr hin hi).symm.trans hstep⟩

theorem step_stall {s : State} {on : Bool} {rest : List Input} (h : s.inputs = .stall on :: rest) :
    step s = .next { s with memStalled := on, inputs := rest } := by
  simp only [step, State.turn, h]

/-- Settles O55, phase by phase: the selected micro-operation's effect on the tally, which depends on no input. The acts
of the outside change no register of the block. -/
theorem countsAreExact : Obligations.CountsAreExact := by
  intro s t h hstep b _
  obtain ⟨hsetup, hhead, hexit, hflush, hchunk, hresid, hfinal, -⟩ := sequencerSelection s
  refine ⟨fun hturn => ?_, ?_⟩
  · have selected {i : Instr} (hi : s.selectUop = .ok i) := h.exec_selected hturn hi hstep
    have kept (hp : s.ph = .chunk) (htest : s.rem.toNat < 128 ∨ s.ep = 15#4) : t.tally b = s.tally b := by
      by_cases hrem : s.rem.toNat < 128
      · obtain ⟨ins, -, he⟩ := selected (hexit hp hrem)
        exact (State.tally_after_uExit b he).trans rfl
      · obtain ⟨ins, -, he⟩ := selected (hflush hp (Nat.le_of_not_lt hrem) (htest.resolve_left hrem))
        exact (State.tally_after_uMflush b he).trans rfl
    refine ⟨fun hp => ?_, fun hp hm hr => ?_, fun hp hno => ?_, fun hp hrem hep hm hr => ?_, fun hp hno => ?_, kept, ?_⟩
    · obtain ⟨ins, -, he⟩ := selected (hsetup hp)
      exact (State.tally_after_uSetup b he).trans rfl
    · obtain ⟨ins, hinv, he⟩ := selected (hhead hp)
      exact hinv.tally_after_uHead b hp hm hr he
    · obtain ⟨ins, -, he⟩ := selected (hhead hp)
      exact (State.tally_of_unanswered b he hno).trans rfl
    · obtain ⟨ins, hinv, he⟩ := selected (hchunk hp hrem hep)
      exact hinv.tally_after_uChunk b hp hep hm hr he
    · by_cases htest : s.rem.toNat < 128 ∨ s.ep = 15#4
      · exact kept hp htest
      · obtain ⟨hrem, hep⟩ := not_or.1 htest
        obtain ⟨ins, -, he⟩ := selected (hchunk hp (Nat.le_of_not_lt hrem) hep)
        exact (State.tally_of_unanswered b he hno).trans rfl
    · rintro (hp | hp)
      · obtain ⟨ins, hinv, he⟩ := selected (hresid hp)
        exact hinv.tally_after_uResid b hp he
      · obtain ⟨ins, -, he⟩ := selected (hfinal hp)
        exact (State.tally_after_uFinal b he).trans rfl
  · rintro (⟨a, v, rest, hin⟩ | ⟨a, rest, hin⟩ | ⟨on, rest, hin⟩)
    · obtain rfl := Host.Outcome.next.inj ((step_store hin).symm.trans hstep)
      rfl
    · obtain rfl := Host.Outcome.next.inj ((step_withdraw hin).symm.trans hstep)
      rfl
    · obtain rfl := Host.Outcome.next.inj ((step_stall hin).symm.trans hstep)
      rfl

end Sys2Proof.Machine

/-! PROOFS. The micro-operations, one by one (R181 to R187), and the phases they lead to (R180). -/

namespace Sys2Proof.Machine

/-! ### `u.SETUP` -/

/-- Settles O25: the two branches of the test `L' < 120`, with `PTR` as the number it stands for. -/
theorem setupPreparesTheRun : Obligations.SetupPreparesTheRun := by
  intro s
  have hptr : s.addr - BitVec.ofNat 64 s.misalign = BitVec.ofNat 64 (s.addr.toNat - s.addr.toNat % 8) := by
    refine BitVec.eq_of_toNat_eq (s.toNat_addr_sub_misalign.trans ?_)
    rw [BitVec.toNat_ofNat, Nat.mod_eq_of_lt (Nat.lt_of_le_of_lt (Nat.sub_le _ _) s.addr.isLt)]
    rfl
  refine ⟨fun hshort => ?_, fun hlong => ?_⟩ <;> rw [← hptr]
  · exact if_pos hshort
  · exact if_neg (Nat.not_lt.2 hlong)

/-! ### The steps that read -/

/-- The BUS fault of the first refused read is the whole effect of the step (R283). -/
theorem State.withBlock_of_refused {s : State} {pre post : List Request} {r : Request}
    (k : List Word → State → State) (hm : s.memStalled = false) (hpre : ∀ q ∈ pre, Readable s.mem q)
    (hr : ¬Readable s.mem r) : s.withBlock (pre ++ r :: post) k = s.afterBus r.1 (pre ++ [r]) := by
  have hanswered : ∀ q ∈ pre, ∀ n, (memReadBE s.mem n q.1.toNat q.2).isSome = true := fun q hq _ =>
    memReadBE_isSome_iff_readable.2 (hpre q hq)
  have hrefused (n : Nat) : memReadBE s.mem n r.1.toNat r.2 = none :=
    (readPrimitiveIsLittleEndian s.mem n r.1 r.2).1.2 hr
  have hblock : s.readBlock (pre ++ r :: post) = .busError r.1 (pre.length + 1) := by
    simp [State.readBlock, hm, readBlock_of_refused hanswered hrefused]
  have htake : (pre ++ r :: post).take (pre.length + 1) = pre ++ [r] := by simp [List.take_append]
  rw [State.withBlock, hblock]
  exact htake ▸ rfl

/-- Settles O28: `u.HEAD` does nothing before its block of reads. -/
theorem headBusFault : Obligations.HeadBusFault := by
  intro s pre post r hm hreqs hpre hr
  rw [exec, execUHead, hreqs, State.withBlock_of_refused headEffect hm hpre hr]

/-- Settles O33: `u.CHUNK` does nothing before its block of reads. -/
theorem chunkBusFault : Obligations.ChunkBusFault := by
  intro s pre post r hm hreqs hpre hr
  rw [exec, execUChunk, hreqs, State.withBlock_of_refused chunkEffect hm hpre hr]

/-- Settles O27: the planes are the head tree's, which spells the sums of the words read. -/
theorem headReducesFifteenWords : Obligations.HeadReducesFifteenWords := by
  intro s hm hr
  obtain ⟨ws, hws, hblock⟩ := State.withBlock_of_readable headEffect hm hr
  exact ⟨_, congrArg Host.Outcome.next hblock, fun i hi => State.head15_value_eq_headSum hws hi, rfl⟩

/-! ### Additions to the bank -/

theorem State.count_cb_toNat_eq_min (s : State) (d : Fin 64 → Nat) (i : Fin 64) :
    (s.count d).cb[i.val].toNat = min (s.cb[i.val].toNat + d i) 255 := by
  simp [cbaddAll_cb, sat8_toNat]

theorem State.count_sat_iff (s : State) (d : Fin 64 → Nat) :
    (s.count d).sat = true ↔ s.sat = true ∨ ∃ i : Fin 64, 255 < s.cb[i.val].toNat + d i := by
  rw [State.count_sat, cbaddAll_sat]

/-- Settles O35: the fold through the nibble view adds each lane's value. -/
theorem residFoldsThePlanes : Obligations.ResidFoldsThePlanes := by
  intro s
  have he : exec .uResid s = .next { s.count (fun i => s.pl.value i.val) with pl := Planes.zero, ph := .final } := by
    rw [exec, execUResid, State.cbresid_eq_count]
  exact ⟨_, he, s.count_cb_toNat_eq_min _, s.count_sat_iff _, rfl⟩

/-- Settles O32: a lane's total is the four bits that stay in the planes and 16 times the bit that leaves them. -/
theorem chunkConsumesSixteenWords : Obligations.ChunkConsumesSixteenWords := by
  intro s hm hr total
  obtain ⟨ws, hws, hblock⟩ := State.withBlock_of_readable chunkEffect hm hr
  have hvalue (i : Nat) (hi : i < 64) := State.chunk16_value_eq_chunkSum hws hi
  generalize hq : (chunk16 s.pl fun j => wordAt ws j.val) = q at hvalue
  have hdigits (i : Nat) (hi : i < 64) : q.1.value i = total i % 16 ∧ lane q.2 i = total i / 16 := by
    have : q.1.value i + 16 * lane q.2 i = total i := hvalue i hi
    have := q.1.value_le i
    omega
  have hemit : s.cbemit q.2 = s.count fun i => 16 * (total i.val / 16) :=
    congrArg s.count (funext fun i => by rw [(hdigits i.val i.isLt).2])
  have hafter : chunkEffect ws (s.issue s.chunkRequests) =
      { s.count (fun i => 16 * (total i.val / 16)) with
        pl := q.1, ep := s.ep + 1#4, ptr := s.ptr + 128#64, rem := s.rem - 128#64
        reads := s.reads ++ s.chunkRequests } := by
    rw [← hemit, ← hq]
    rfl
  exact ⟨_, congrArg Host.Outcome.next (hblock.trans hafter), fun i hi => (hdigits i hi).1, s.count_cb_toNat_eq_min _,
    s.count_sat_iff _, rfl⟩

/-! ### The flush -/

/-- In `q` blocks of `w` numbers, those congruent to `b` are one of each block. -/
theorem sum_range_mul_of_mod_eq (g : Nat → Nat) {w b : Nat} (hb : b < w) (q : Nat) :
    (∑ n ∈ Finset.range (q * w), if n % w = b then g n else 0) = ∑ k ∈ Finset.range q, g (b + k * w) := by
  induction q with
  | zero => simp
  | succ q ih =>
    have hblock : (∑ x ∈ Finset.range w, if (q * w + x) % w = b then g (q * w + x) else 0) = g (b + q * w) := by
      rw [Finset.sum_eq_single_of_mem b (Finset.mem_range.2 hb)]
      · simp [Nat.mod_eq_of_lt hb, Nat.add_comm]
      · intro x hx hne
        simp [Nat.mod_eq_of_lt (Finset.mem_range.1 hx), hne]
    rw [Nat.succ_mul, Finset.sum_range_add, ih, hblock, Finset.sum_range_succ]

/-- The lanes folded into accumulator `b` are `b`, `b + W`, ... below 64 (R159). -/
theorem foldedSum_eq_sum_range (g : Nat → Nat) {w b : Nat} (hw : w ∣ 64) (hb : b < w) :
    foldedSum w b (fun i => g i.val) = ∑ k ∈ Finset.range (64 / w), g (b + k * w) := by
  rw [foldedSum, Finset.sum_filter, Fin.sum_univ_eq_sum_range fun n => if n % w = b then g n else 0,
    ← sum_range_mul_of_mod_eq g hb, Nat.div_mul_cancel hw]

/-- Nothing is folded into the accumulators from `W` on. -/
theorem foldedSum_eq_zero {w b : Nat} (hw : 0 < w) (hb : w ≤ b) (f : Fin 64 → Nat) : foldedSum w b f = 0 :=
  Finset.sum_eq_zero fun i hi => absurd ((Finset.mem_filter.1 hi).2 ▸ Nat.mod_lt i.val hw) (Nat.not_lt.2 hb)

/-- What the flush leaves in each accumulator (R158, R159). -/
theorem State.cbflush_acc_getElem (s : State) (b : Fin 64) :
    s.cbflush.acc[b.val] =
      if b.val < 8 * 2 ^ s.wsel.toNat then
        s.acc[b.val] + BitVec.ofNat 64
          (∑ k ∈ Finset.range (64 / (8 * 2 ^ s.wsel.toNat)), (s.cb[b.val + k * (8 * 2 ^ s.wsel.toNat)]?.getD 0#8).toNat)
      else s.acc[b.val] := by
  have hwidth : Config.width s.wsel = 8 * 2 ^ s.wsel.toNat := Nat.shiftLeft_eq 8 _
  have hcounter : (fun i : Fin 64 => s.cb[i.val].toNat) = fun i => (s.cb[i.val]?.getD 0#8).toNat :=
    funext fun i => by simp
  rw [← hwidth]
  simp only [State.cbflush_acc, foldBank_eq_foldedSum, hcounter]
  split <;> rename_i hb
  · rw [foldedSum_eq_sum_range (fun n => (s.cb[n]?.getD 0#8).toNat) (width_dvd_word s.wsel) hb]
  · rw [foldedSum_eq_zero (Nat.pos_of_dvd_of_pos (width_dvd_word _) (by omega)) (Nat.le_of_not_lt hb)]
    exact BitVec.add_zero _

/-- Settles O31: `u.MFLUSH` is the flush and nothing else. -/
theorem mflushFoldsTheBank : Obligations.MflushFoldsTheBank :=
  fun s => ⟨s.cbflush, rfl, s.cbflush_acc_getElem, rfl⟩

/-- Settles O36: the flush, and the end of the RUN, which touches no accumulator. -/
theorem finalFlushesAndEnds : Obligations.FinalFlushesAndEnds :=
  fun s => ⟨_, rfl, s.cbflush_acc_getElem, rfl⟩

/-! ### The phases of a RUN -/

/-- Settles O30: the meaning of `u.EXIT` is this one field. -/
theorem exitOnlyMovesThePhase : Obligations.ExitOnlyMovesThePhase := fun _ => rfl

/-- A block with an unreadable request has a first one. -/
theorem exists_first_unreadable {m : List Host.Cell} {reqs : List Request} (h : ∃ r ∈ reqs, ¬Readable m r) :
    ∃ pre r post, reqs = pre ++ r :: post ∧ (∀ q ∈ pre, Readable m q) ∧ ¬Readable m r := by
  obtain ⟨r, hr⟩ : ∃ r, reqs.find? (¬Readable m ·) = some r :=
    Option.isSome_iff_exists.1 (by simpa only [List.find?_isSome, decide_eq_true_eq] using h)
  obtain ⟨hno, pre, post, hreqs, hpre⟩ := List.find?_eq_some_iff_append.1 hr
  exact ⟨pre, r, post, hreqs, by simpa only [decide_not, Bool.not_not, decide_eq_true_eq] using hpre,
    of_decide_eq_true hno⟩

/-- Settles O54: each row of R180 is a row of the selection (R96) followed by the effect of the micro-operation it
selects. -/
theorem phaseTransitions : Obligations.PhaseTransitions := by
  intro s t hin hrst hm hstep
  obtain ⟨hsetup, hhead, hexit, hflush, hchunk, hresid, hfinal, -⟩ := sequencerSelection s
  have ends {i : Instr} {u : State} (hi : s.selectUop = .ok i) (he : exec i s = .next u) : t = u :=
    Host.Outcome.next.inj (hstep.symm.trans ((step_of_selected hrst (.inl hin) hi).trans he))
  refine ⟨fun hp hl => ?_, fun hp hl => ?_, fun hp hr => ?_, fun hp hno => ?_, fun hp hrem => ?_,
    fun hp hrem hep => ?_, fun hp hrem hep hr => ?_, fun hp hrem hep hno => ?_, fun hp => ?_, fun hp => ?_⟩
  · rw [ends (hsetup hp) ((setupPreparesTheRun s).1 hl)]
    exact ⟨rfl, rfl⟩
  · rw [ends (hsetup hp) ((setupPreparesTheRun s).2 hl)]
  · obtain ⟨u, he, -, hu⟩ := headReducesFifteenWords s hm hr
    rw [ends (hhead hp) he, hu]
  · obtain ⟨pre, r, post, hreqs, hpre, hr⟩ := exists_first_unreadable hno
    rw [ends (hhead hp) (headBusFault s pre post r hm hreqs hpre hr)]
    exact ⟨rfl, rfl, fun he => if_pos he⟩
  · rw [ends (hexit hp hrem) (exitOnlyMovesThePhase s)]
  · obtain ⟨u, he, -, hu⟩ := mflushFoldsTheBank s
    rw [ends (hflush hp hrem hep) he, hu]
    exact ⟨hp, rfl, rfl⟩
  · obtain ⟨u, he, -, -, -, hu⟩ := chunkConsumesSixteenWords s hm hr
    rw [ends (hchunk hp hrem hep) he, hu]
    exact ⟨hp, BitVec.toNat_sub_of_le hrem⟩
  · obtain ⟨pre, r, post, hreqs, hpre, hr⟩ := exists_first_unreadable hno
    rw [ends (hchunk hp hrem hep) (chunkBusFault s pre post r hm hreqs hpre hr)]
    exact ⟨rfl, rfl, fun he => if_pos he⟩
  · obtain ⟨u, he, -, -, hu⟩ := residFoldsThePlanes s
    rw [ends (hresid hp) he, hu]
  · obtain ⟨u, he, -, hu⟩ := finalFlushesAndEnds s
    rw [ends (hfinal hp) he, hu]
    exact ⟨rfl, rfl⟩

end Sys2Proof.Machine

/-! PROOFS. The host commands (R220 to R227): which step runs one, what each does, and its illegal words. -/

namespace Sys2Proof.Machine

/-! ### The step -/

/-- Settles O8: an accepted command, and the three ways the outside leaves the step to the sequencer. -/
theorem stepRunsTheDecodedInstruction : Obligations.StepRunsTheDecodedInstruction := by
  intro s hrst
  refine ⟨fun c opnd rest i hp hin hd => step_of_command hp hrst hin hd, fun i hi => ⟨fun hin => ?_,
    fun c opnd rest hin => ?_, fun rest hin => step_of_wait hrst hin hi⟩⟩
  · exact step_of_selected hrst (.inl hin) hi
  · exact step_of_selected hrst (.inr ⟨c, opnd, rest, hin⟩) hi

/-- A micro-operation gives no response (R220). -/
theorem exec_uop_rsps {i : Instr} {s t : State} (hi : i.isCommand = false) (h : exec i s = .next t) :
    t.rsps = s.rsps := by
  obtain ⟨-, -, -, -, -, -, -, -, -, -, -, -, -, -, -, -, -, -, -, -, -, huop⟩ := eachRegisterHasItsWriters i s t h
  exact (huop hi).1

/-- The one fault a micro-operation raises is BUS (R280). -/
theorem exec_uop_err {i : Instr} {s t : State} (hi : i.isCommand = false) (h : exec i s = .next t)
    (hne : t.err ≠ s.err) : t.err = .bus := by
  cases i with
  | nop | setaddr | setlen | run | accwr | accrd | rdsr | errclr => cases hi
  | uExit | uMflush | uResid | uFinal =>
    obtain rfl := Host.Outcome.next.inj h
    simp [State.cbresid] at hne
  | uSetup =>
    rcases exec_uSetup_cases h with ⟨-, rfl⟩ | ⟨-, rfl⟩ <;> simp at hne
  | uHead | uChunk =>
    rcases withBlock_next_cases h with rfl | ⟨ws, rfl⟩ | ⟨a, issued, rfl⟩
    · simp at hne
    · simp [headEffect, chunkEffect, State.cbemit] at hne
    · simp only [State.raise_bus_err, ite_eq_left_iff] at hne ⊢
      exact fun he => absurd (if_neg he) hne

/-- Settles O10: outside IDLE the sequencer has a step, and no micro-operation takes an input or answers. -/
theorem commandWaitsWhileBusy : Obligations.CommandWaitsWhileBusy := by
  intro s c opnd rest hbusy hrst hin
  obtain ⟨i, hi⟩ := State.exists_selected hbusy
  obtain ⟨t, he⟩ := exec_goes_on i s
  have huop : i.isCommand = false := (State.selectUop_ok hi).2
  exact ⟨i, t, hi, (step_of_selected hrst (.inr ⟨c, opnd, rest, hin⟩) hi).trans he, he,
    (exec_keeps_setting huop he).inputs, exec_uop_rsps huop he, exec_uop_err huop he⟩

/-! ### The illegal words of an opcode -/

/-- The least value of the bits above `opc`, `arg` and `rsv` taken as one number, that makes a word of the opcode `opc`
illegal (R92, R94). -/
def illegalFrom : Nat → Nat
  | 0 | 1 | 2 | 7 => 1
  | 3 => 4
  | 4 | 5 => 64
  | 6 => 7
  | _ + 8 => 0

theorem illegalWord_iff_illegalFrom_le (c : BitVec 32) :
    IllegalWord c ↔ illegalFrom (c.toNat % 256) ≤ c.toNat / 256 := by
  unfold IllegalWord illegalFrom
  split <;> omega

/-- A word whose bits above `opc` reach the opcode's bound raises ILLCMD (R94, R281). -/
theorem raisesIllcmd_of_illegalFrom_le {c : BitVec 32} {opc : Nat} (hopc : c.toNat % 256 = opc)
    (h : illegalFrom opc ≤ c.toNat / 256) : RaisesIllcmd c := by
  subst hopc
  exact illegalWordsRaiseIllcmd.2 c ((illegalWord_iff_illegalFrom_le c).2 h)

/-! ### The legal words -/

theorem cmdWord_setWidth {k : Nat} (hk : k ≤ 8) (opc : BitVec 8) (x : BitVec k) :
    cmdWord opc (x.setWidth 8) = opc.setWidth 32 ||| x.setWidth 32 <<< 8 := by
  rw [cmdWord, BitVec.setWidth_setWidth (by omega)]

/-- An index placed at bit 8 (R224, R225). -/
theorem cmdWord_ofNat (opc : BitVec 8) (idx : Fin 64) :
    cmdWord opc (BitVec.ofNat 8 idx.val) = opc.setWidth 32 ||| BitVec.ofNat 32 (256 * idx.val) := by
  have harg : (BitVec.ofNat 8 idx.val).setWidth 32 <<< 8 = BitVec.ofNat 32 (256 * idx.val) := by
    bv_omega
  rw [cmdWord, harg]

/-! ### NOP, SETADDR, SETLEN and ERRCLR -/

/-- Settles O14: `NOP` is the word 0, so any other word of its opcode has a bit above `opc` set. -/
theorem nopChangesNothing : Obligations.NopChangesNothing := by
  refine ⟨fun _ => rfl, fun _ => rfl, fun c hopc hc => ?_⟩
  have harg : 1 ≤ c.toNat / 256 := by bv_omega
  exact raisesIllcmd_of_illegalFrom_le hopc harg

/-- Settles O15, command by command. -/
theorem setaddrSetlenWriteTheirRegister : Obligations.SetaddrSetlenWriteTheirRegister := by
  refine ⟨fun _ _ => ⟨rfl, rfl⟩, fun _ => ⟨rfl, rfl⟩, fun c hopc harg => ?_⟩
  rcases hopc with hopc | hopc <;> exact raisesIllcmd_of_illegalFrom_le hopc (Nat.one_le_iff_ne_zero.2 harg)

/-- Settles O23: the end of the record and the response are the whole effect. -/
theorem errclrClearsTheRecord : Obligations.ErrclrClearsTheRecord :=
  ⟨fun _ => rfl, fun _ => rfl,
    fun _ hopc harg => raisesIllcmd_of_illegalFrom_le hopc (Nat.one_le_iff_ne_zero.2 harg)⟩

/-! ### RUN -/

theorem elemSize_eq_two_pow (w : BitVec 2) : Config.elemSize w = 2 ^ w.toNat := Nat.one_shiftLeft w.toNat

section
variable {s : State} {w : BitVec 2}

theorem launch_of_fault (he : s.err ≠ .noFault) : launch w s = s := if_pos he

theorem launch_of_misaligned (he : s.err = .noFault) (ha : ¬s.alignedFor w = true) :
    launch w s = { s with err := .align } := by
  simp [launch, he, ha, State.raise_align]

theorem launch_of_outOfRange (he : s.err = .noFault) (ha : s.alignedFor w = true) (hr : ¬s.inRange = true) :
    launch w s = { s with err := .range } := by
  simp [launch, he, ha, hr, State.raise_range]

theorem launch_of_checks (he : s.err = .noFault) (ha : s.alignedFor w = true) (hr : s.inRange = true) :
    launch w s = { s with wsel := w, ph := .setup } := by
  simp [launch, he, ha, hr]

end

/-- Settles O17: line 1 changes nothing the later lines test, and each way through them is one clause. -/
theorem runChecksInOrder : Obligations.RunChecksInOrder := by
  intro s w es s1 aligned fits
  have hexec : exec (.run w) s = .next (launch w s1) := rfl
  have haligned : s1.alignedFor w = true ↔ aligned := by
    rw [State.alignedFor_iff, elemSize_eq_two_pow]
  have hfits : s1.inRange = true ↔ fits := s1.inRange_iff
  rw [hexec]
  refine ⟨fun opnd => ?_, fun he => ?_, fun he ha => ?_, fun he ha hr => ?_, fun he ha hr => ?_,
    fun c hopc harg => raisesIllcmd_of_illegalFrom_le hopc harg⟩
  · have hword : cmdWord 0x03#8 (w.setWidth 8) = 0x00000003#32 ||| w.setWidth 32 <<< 8 :=
      cmdWord_setWidth (by omega) 0x03#8 w
    rw [← hword, decodeCmd_run, decodeRun_setWidth]
  · exact congrArg _ (launch_of_fault he)
  · exact congrArg _ (launch_of_misaligned he (haligned.not.2 ha))
  · exact congrArg _ (launch_of_outOfRange he (haligned.2 ha) (hfits.not.2 hr))
  · exact congrArg _ (launch_of_checks he (haligned.2 ha) (hfits.2 hr))

/-- Settles O16: the checks of a launchable state are those of RUN. -/
theorem runStarts : Obligations.RunStarts := fun _ _ h => exec_run_of_launchable h

/-! ### ACCWR and ACCRD -/

/-- Settles O18: the accumulators are a vector with one entry replaced. -/
theorem accwrWritesOneAccumulator : Obligations.AccwrWritesOneAccumulator := by
  refine ⟨fun s idx opnd => ⟨_, rfl, ?_, fun j hj => ?_, rfl⟩, fun idx opnd => ?_,
    fun c hopc harg => raisesIllcmd_of_illegalFrom_le hopc harg⟩
  · exact Vector.getElem_set_self idx.isLt
  · have hne : idx.val ≠ j.val := fun e => hj (Fin.ext e.symm)
    exact Vector.getElem_set_ne idx.isLt j.isLt hne
  · have hword : cmdWord 0x04#8 (BitVec.ofNat 8 idx.val) = 0x00000004#32 ||| BitVec.ofNat 32 (256 * idx.val) :=
      cmdWord_ofNat 0x04#8 idx
    rw [← hword, decodeCmd_accwr, decodeIndexed_ofNat]

/-- Settles O19: the accumulator is the response. -/
theorem accrdReadsOneAccumulator : Obligations.AccrdReadsOneAccumulator := by
  refine ⟨fun s idx => rfl, fun idx opnd => ?_, fun c hopc harg => raisesIllcmd_of_illegalFrom_le hopc harg⟩
  have hword : cmdWord 0x05#8 (BitVec.ofNat 8 idx.val) = 0x00000005#32 ||| BitVec.ofNat 32 (256 * idx.val) :=
    cmdWord_ofNat 0x05#8 idx
  rw [← hword, decodeCmd_accrd, decodeIndexed_ofNat]

/-! ### RDSR -/

theorem State.register_of_reserved {s : State} {sel : BitVec 4} (h : 7 ≤ sel.toNat) : s.register sel = none := by
  obtain ⟨n, hn⟩ : ∃ n, sel.toNat = n + 7 := ⟨_, (Nat.sub_add_cancel h).symm⟩
  simp [State.register, hn]

theorem exec_rdsr_of_reserved {s : State} {sel : BitVec 4} (h : 7 ≤ sel.toNat) :
    exec (.rdsr sel) s = .next s.afterIllcmd := by
  rw [exec, execRdsr, State.register_of_reserved h]
  rfl

/-- Settles O20: the registers by selector, REMN as the quotient by `ES`, and the reserved selectors. -/
theorem rdsrReadsTheSelectedRegister : Obligations.RdsrReadsTheSelectedRegister := by
  refine ⟨fun s => ⟨rfl, rfl, ?_, rfl, rfl, rfl, rfl, fun sel hsel => exec_rdsr_of_reserved hsel⟩,
    fun sel opnd hsel => ?_, fun c hopc harg => raisesIllcmd_of_illegalFrom_le hopc harg⟩
  · rw [← elemSize_eq_two_pow]
    rfl
  · have hword : cmdWord 0x06#8 (sel.setWidth 8) = 0x00000006#32 ||| sel.setWidth 32 <<< 8 :=
      cmdWord_setWidth (by omega) 0x06#8 sel
    rw [← hword, decodeCmd_rdsr, decodeRdsr_setWidth, decodeSelector_of_ok (Nat.lt_succ_of_le hsel)]

end Sys2Proof.Machine

/-! PROOFS. A zero-length RUN (R257), and the reference function (R250): its additivity, and its sum over the words of a
byte string. -/

namespace Sys2Proof.Machine

/-! ### A zero-length RUN -/

/-- Settles O58: with `L' = m` below 120 the RUN takes the no-work branch of `u.SETUP`, and at any other `ADDR` it does
not start. -/
theorem zeroLengthIsNoWork : Obligations.ZeroLengthIsNoWork := by
  intro s wsel hp hrst herr hlen hin
  by_cases haligned : s.addr.toNat % Config.elemSize wsel = 0
  · have hl : s.Launchable wsel := ⟨hp, hrst, herr, haligned, by simp [hlen], by simpa [hlen] using s.addr.isLt⟩
    refine ⟨_, exec_run_of_launchable hl, fun _ => ?_, fun hno => absurd haligned hno⟩
    set t0 : State := { s with done := false, rsps := s.rsps ++ [0#64], wsel := wsel, ph := .setup }
    have hshort : t0.adjustedLen < 120 := by
      have hadjusted : t0.adjustedLen = s.len.toNat + s.misalign := rfl
      have := s.misalign_lt
      rw [hadjusted, hlen, BitVec.toNat_ofNat]
      omega
    have hstep := step_of_selected (s := t0) hrst (.inl hin) ((sequencerSelection t0).1 rfl)
    exact ⟨_, hstep.trans ((setupPreparesTheRun t0).1 hshort), rfl, rfl, hlen, rfl, rfl⟩
  · have hmisaligned := launch_of_misaligned (s := { s with done := false }.respond 0#64) (w := wsel) herr
      fun h => haligned ((State.alignedFor_iff _ _).1 h).1
    exact ⟨_, congrArg Host.Outcome.next hmisaligned, fun h => absurd h haligned, fun _ => ⟨rfl, hp, rfl⟩⟩

/-! ### Bits of byte strings -/

theorem bitOf_append_left {B1 : List Byte} (B2 : List Byte) {k : Nat} (h : k < 8 * B1.length) :
    bitOf (B1 ++ B2) k = bitOf B1 k := by
  rw [bitOf, bitOf, List.getD_append _ _ _ _ (by omega)]

theorem bitOf_append_right (B1 B2 : List Byte) (k : Nat) : bitOf (B1 ++ B2) (8 * B1.length + k) = bitOf B2 k := by
  have hbyte : (8 * B1.length + k) / 8 = B1.length + k / 8 := by omega
  have hbit : (8 * B1.length + k) % 8 = k % 8 := by omega
  rw [bitOf, bitOf, hbyte, hbit, List.getD_append_right _ _ _ _ (by omega), Nat.add_sub_cancel_left]

theorem bitOf_take {B : List Byte} {n k : Nat} (hn : n ≤ B.length) (h : k < 8 * n) :
    bitOf (B.take n) k = bitOf B k := by
  conv_rhs => rw [← List.take_append_drop n B]
  exact (bitOf_append_left _ (by simpa [hn] using h)).symm

theorem bitOf_drop {B : List Byte} {n : Nat} (hn : n ≤ B.length) (k : Nat) :
    bitOf (B.drop n) k = bitOf B (8 * n + k) := by
  have h := bitOf_append_right (B.take n) (B.drop n) k
  rwa [List.take_append_drop, List.length_take_of_le hn, eq_comm] at h

theorem bitOf_replicate_zero (n k : Nat) : bitOf (List.replicate n 0#8) k = 0 := by
  simp [bitOf]

/-! ### The reference function -/

theorem width_pos (w : BitVec 2) : 0 < Config.width w := Nat.pos_of_dvd_of_pos (width_dvd_word w) (by omega)

/-- A string of `n` elements has `n` summands (R250). -/
theorem ppc_of_length {w n : Nat} {B : List Byte} (hw : 0 < w) (h : 8 * B.length = n * w) (b : Nat) :
    ppc w B b = ∑ e ∈ Finset.range n, bitOf B (e * w + b) := by
  rw [ppc, h, Nat.mul_div_cancel _ hw]

theorem exists_elements {w : BitVec 2} {B : List Byte} (h : B.length % Config.elemSize w = 0) :
    ∃ n, 8 * B.length = n * Config.width w := by
  obtain ⟨n, hn⟩ := Nat.dvd_of_mod_eq_zero h
  exact ⟨n, by rw [width_eq, hn]; ring⟩

/-- Settles O59: the elements of the first string come first, and bit `b` of an element lies in its own string. -/
theorem referenceIsAdditive : Obligations.ReferenceIsAdditive := by
  intro wsel B1 B2 b hb h1 h2
  have hw := width_pos wsel
  obtain ⟨n1, hn1⟩ := exists_elements h1
  obtain ⟨n2, hn2⟩ := exists_elements h2
  have hlength : 8 * (B1 ++ B2).length = (n1 + n2) * Config.width wsel := by
    rw [List.length_append, Nat.mul_add, hn1, hn2, Nat.add_mul]
  rw [ppc_of_length hw hlength, ppc_of_length hw hn1, ppc_of_length hw hn2, Finset.sum_range_add]
  congr 1
  · refine Finset.sum_congr rfl fun e he => bitOf_append_left B2 ?_
    have hlast : (e + 1) * Config.width wsel ≤ n1 * Config.width wsel :=
      Nat.mul_le_mul_right _ (Finset.mem_range.1 he)
    rw [Nat.succ_mul] at hlast
    omega
  · refine Finset.sum_congr rfl fun e _ => ?_
    rw [← bitOf_append_right B1 B2, hn1]
    congr 1
    ring

/-- Zero bytes count for nothing. -/
theorem ppc_replicate_zero (w n b : Nat) : ppc w (List.replicate n 0#8) b = 0 :=
  Finset.sum_eq_zero fun _ _ => bitOf_replicate_zero n _

/-- The bits `b` of the elements of `n` words are the bits of the words' lanes congruent to `b` (R64, R159). -/
theorem foldedSum_words (g : Nat → Nat) {w b : Nat} (hw : w ∣ 64) (hb : b < w) (n : Nat) :
    foldedSum w b (fun i => ∑ j ∈ Finset.range n, g (64 * j + i.val)) =
      ∑ e ∈ Finset.range (n * (64 / w)), g (e * w + b) := by
  induction n with
  | zero => simp
  | succ n ih =>
    have hlast : (foldedSum w b fun i => g (64 * n + i.val)) =
        ∑ e ∈ Finset.range (64 / w), g ((n * (64 / w) + e) * w + b) := by
      rw [foldedSum_eq_sum_range (fun i => g (64 * n + i)) hw hb]
      refine Finset.sum_congr rfl fun e _ => congrArg g ?_
      rw [Nat.add_mul, Nat.mul_assoc, Nat.div_mul_cancel hw]
      ring
    simp only [Finset.sum_range_succ, foldedSum_add, ih, hlast]
    rw [Nat.succ_mul, Finset.sum_range_add]

/-- The count of a string of `n` words, word by word and lane by lane. -/
theorem ppc_of_words {w n : Nat} {B : List Byte} (hw : w ∣ 64) (h : B.length = 8 * n) {b : Nat} (hb : b < w) :
    ppc w B b = foldedSum w b fun i => ∑ j ∈ Finset.range n, bitOf B (64 * j + i.val) := by
  rw [foldedSum_words (bitOf B) hw hb]
  refine ppc_of_length (Nat.zero_lt_of_lt hb) ?_ b
  rw [Nat.mul_assoc, Nat.div_mul_cancel hw]
  omega

end Sys2Proof.Machine

/-! PROOFS. What an undisturbed RUN has counted, step by step (R253). -/

namespace Sys2Proof.Machine

/-! ### The words of the buffer as a byte string -/

/-- The bytes from `A' = ADDR - m` to the end of the buffer, the first `m` of them masked to zero (R67, R68). -/
def State.padded (s : State) : List Byte := List.replicate s.misalign 0#8 ++ s.buffer

@[simp] theorem State.buffer_length (s : State) : s.buffer.length = s.len.toNat := by simp [State.buffer]

@[simp] theorem State.padded_length (s : State) : s.padded.length = s.adjustedLen := by
  simp [State.padded, State.adjustedLen, Nat.add_comm]

section
variable {s : State} {before : List Request} {j : Nat}

theorem State.bitOf_padded_low {k : Nat} (h : k < 8 * s.misalign) : bitOf s.padded k = 0 := by
  rw [State.padded, bitOf_append_left _ (by simpa using h), bitOf_replicate_zero]

/-- From bit `8 m` on, lane `i` of word `j` is bit `64 j + i` of the string (R64). -/
theorem State.memBit_eq_bitOf_padded {i : Nat} (hi : i < 64) (hlow : 8 * s.misalign ≤ 64 * j + i)
    (hj : 8 * j + 8 ≤ s.adjustedLen) :
    memBit s.mem (s.addr.toNat - s.misalign + 8 * j) i = bitOf s.padded (64 * j + i) := by
  have hlen : s.adjustedLen = s.len.toNat + s.misalign := rfl
  have hright := bitOf_append_right (List.replicate s.misalign 0#8) s.buffer (64 * j + i - 8 * s.misalign)
  rw [List.length_replicate, Nat.add_sub_of_le hlow] at hright
  rw [(lanesAreElementBits s 0#2 j i (Nat.mod_one _) hi hlow (by omega)).1]
  exact hright.symm

theorem State.AtWord.memBit_wordAddr (h : s.AtWord before j) (hs : s.Quiet) {x i : Nat} (hi : i < 64)
    (hlow : 8 * s.misalign ≤ 64 * (j + x) + i) (hx : 8 * x + 8 ≤ s.rem.toNat) :
    memBit s.mem (s.wordAddr x).toNat i = bitOf s.padded (64 * (j + x) + i) := by
  have hrem := h.rem
  have haddr : (s.wordAddr x).toNat = s.addr.toNat - s.misalign + 8 * (j + x) := by
    have := hs.inRange
    have := s.misalign_le
    have : s.adjustedLen = s.len.toNat + s.misalign := rfl
    rw [State.wordAddr, h.ptr_add, State.runRead, BitVec.toNat_ofNat]
    omega
  rw [haddr, State.memBit_eq_bitOf_padded hi hlow (by omega)]

/-- What `u.HEAD` sums in a lane are the first 15 words of the string (R122, R182). -/
theorem State.AtWord.headSum_eq (h : s.AtWord before 0) (hs : s.Quiet) (hrem : 120 ≤ s.rem.toNat) {i : Nat}
    (hi : i < 64) : s.headSum i = ∑ x ∈ Finset.range 15, bitOf s.padded (64 * (0 + x) + i) := by
  refine Finset.sum_congr rfl fun x hx => ?_
  have hm := s.misalign_lt
  rw [Finset.mem_range] at hx
  unfold State.headBit
  split <;> rename_i hmask
  · obtain ⟨rfl, hlow⟩ := hmask
    exact (State.bitOf_padded_low (by omega)).symm
  · exact h.memBit_wordAddr hs hi (by omega) (by omega)

/-- What `u.CHUNK` sums in a lane are the next 16 words of the string (R125, R185). -/
theorem State.AtWord.chunkSum_eq (h : s.AtWord before j) (hs : s.Quiet) (hj : 0 < j) (hrem : 128 ≤ s.rem.toNat)
    {i : Nat} (hi : i < 64) : s.chunkSum i = ∑ x ∈ Finset.range 16, bitOf s.padded (64 * (j + x) + i) := by
  refine Finset.sum_congr rfl fun x hx => ?_
  have hm := s.misalign_lt
  rw [Finset.mem_range] at hx
  exact h.memBit_wordAddr hs hi (by omega) (by omega)

end

/-! ### The count of the first bytes of the string -/

/-- What the first `n` bytes of the string add to accumulator `b` (R250): nothing from `W` on. -/
def State.countOf (s : State) (n : Nat) (b : Fin 64) : Nat :=
  if b.val < Config.width s.wsel then ppc (Config.width s.wsel) (s.padded.take n) b.val else 0

theorem eight_mul_mod_elemSize (w : BitVec 2) (n : Nat) : 8 * n % Config.elemSize w = 0 :=
  Nat.mod_eq_zero_of_dvd ((elemSize_dvd_eight w).mul_right n)

section
variable {s : State} (b : Fin 64)

/-- The masked bytes count for nothing. -/
theorem State.countOf_of_le_misalign {n : Nat} (h : n ≤ s.misalign) : s.countOf n b = 0 := by
  have htake : s.padded.take n = List.replicate n 0#8 := by
    rw [State.padded, List.take_append_of_le_length (by simpa using h), List.take_replicate, Nat.min_eq_left h]
  rw [State.countOf, htake, ppc_replicate_zero, ite_self]

/-- `n` more words add the sums of their lanes. -/
theorem State.countOf_add_words {j n : Nat} (h : 8 * j + 8 * n ≤ s.adjustedLen) :
    s.countOf (8 * j + 8 * n) b = s.countOf (8 * j) b + foldedSum (Config.width s.wsel) b.val
      fun i => ∑ x ∈ Finset.range n, bitOf s.padded (64 * (j + x) + i.val) := by
  unfold State.countOf
  split <;> rename_i hb
  · have hj : 8 * j ≤ s.padded.length := by
      rw [State.padded_length]
      omega
    have hn : 8 * n ≤ (s.padded.drop (8 * j)).length := by
      rw [List.length_drop, State.padded_length]
      omega
    have hfirst := List.length_take_of_le hj
    have hnext := List.length_take_of_le hn
    have hbits {i : Fin 64} {x : Nat} (hx : x < n) :
        bitOf ((s.padded.drop (8 * j)).take (8 * n)) (64 * x + i.val) = bitOf s.padded (64 * (j + x) + i.val) := by
      rw [bitOf_take hn (by omega), bitOf_drop hj]
      congr 1
      omega
    rw [List.take_add, referenceIsAdditive s.wsel _ _ b hb (by rw [hfirst, eight_mul_mod_elemSize])
      (by rw [hnext, eight_mul_mod_elemSize]), ppc_of_words (width_dvd_word _) hnext hb]
    congr 2
    funext i
    exact Finset.sum_congr rfl fun x hx => hbits (Finset.mem_range.1 hx)
  · rw [foldedSum_eq_zero (width_pos _) (Nat.le_of_not_lt hb)]

end

/-! ### The remainder -/

theorem State.remainderOf_le (s : State) : s.remainderOf ≤ s.len.toNat := by
  have := s.misalign_lt
  have hlen : s.adjustedLen = s.len.toNat + s.misalign := rfl
  unfold State.remainderOf wordsOf
  split <;> omega

/-- All but the last `REM` bytes of the buffer have been counted (R253). -/
theorem State.countOf_consumed {s : State} {b : Fin 64} (haddr : s.addr.toNat % Config.elemSize s.wsel = 0)
    (hlen : s.len.toNat % Config.elemSize s.wsel = 0) (hrem : s.remainderOf % Config.elemSize s.wsel = 0)
    (hb : b.val < Config.width s.wsel) :
    s.countOf (s.adjustedLen - s.remainderOf) b +
        ppc (Config.width s.wsel) (s.buffer.drop (s.len.toNat - s.remainderOf)) b.val =
      ppc (Config.width s.wsel) s.buffer b.val := by
  have hle := s.remainderOf_le
  have hm : s.misalign % Config.elemSize s.wsel = 0 :=
    Nat.mod_eq_zero_of_dvd ((Nat.dvd_mod_iff (elemSize_dvd_eight s.wsel)).2 (Nat.dvd_of_mod_eq_zero haddr))
  set c := s.len.toNat - s.remainderOf with hc
  have hcmod : c % Config.elemSize s.wsel = 0 :=
    Nat.mod_eq_zero_of_dvd (Nat.dvd_sub (Nat.dvd_of_mod_eq_zero hlen) (Nat.dvd_of_mod_eq_zero hrem))
  have htake : s.padded.take (s.adjustedLen - s.remainderOf) = List.replicate s.misalign 0#8 ++ s.buffer.take c := by
    have hbytes : s.adjustedLen - s.remainderOf = (List.replicate s.misalign 0#8).length + c := by
      have : s.adjustedLen = s.len.toNat + s.misalign := rfl
      rw [List.length_replicate]
      omega
    rw [State.padded, hbytes, List.take_length_add_append]
  have hfirst : (s.buffer.take c).length % Config.elemSize s.wsel = 0 := by
    rw [List.length_take_of_le (by simp [hc]), hcmod]
  have hlast : (s.buffer.drop c).length % Config.elemSize s.wsel = 0 := by
    rw [List.length_drop, State.buffer_length, hc, Nat.sub_sub_self hle, hrem]
  rw [State.countOf, if_pos hb, htake,
    referenceIsAdditive s.wsel _ _ b hb (by rw [List.length_replicate, hm]) hfirst, ppc_replicate_zero, Nat.zero_add,
    ← referenceIsAdditive s.wsel _ _ b hb hfirst hlast, List.take_append_drop]

end Sys2Proof.Machine

/-! PROOFS. An undisturbed RUN counts what it reads (R253). -/

namespace Sys2Proof.Machine

/-- The padded string and the remainder depend on the buffer alone. -/
theorem State.SameSetting.padded {s t : State} (h : s.SameSetting t) : t.padded = s.padded := by
  simp only [State.padded, State.buffer, State.misalign, h.addr, h.len, h.mem]

theorem State.SameSetting.remainderOf {s t : State} (h : s.SameSetting t) : t.remainderOf = s.remainderOf := by
  obtain ⟨-, hadjusted, -⟩ := h.words
  simp only [State.remainderOf, hadjusted, h.len]

/-- What a RUN that started in `s` has counted when it is in `v`: the bytes before the last `REM` of the string. -/
structure State.Tallied (s v : State) : Prop where
  noFault : v.err = .noFault
  start : v.ph = .setup → v.acc = s.acc
  counted : v.ph ≠ .setup → ∀ b : Fin 64,
    v.tally b = s.acc[b.val] + BitVec.ofNat 64 (s.countOf (s.adjustedLen - v.rem.toNat) b)
  ending : v.ph = .resid ∨ v.ph = .final ∨ v.ph = .idle → v.rem.toNat = s.remainderOf

/-- A state of an undisturbed RUN that started in `s`. -/
structure State.OnCourse (s v : State) : Prop where
  setting : s.SameSetting v
  wsel : v.wsel = s.wsel
  inv : v.Inv
  progress : v.Progress s.reads
  tallied : s.Tallied v

/-! ### Micro-operation by micro-operation -/

section
variable {s v t : State} (hs : s.Quiet) (h : s.OnCourse v)
include h

include hs in
theorem State.OnCourse.tallied_after_uSetup (hp : v.ph = .setup) (he : exec .uSetup v = .next t) : s.Tallied t := by
  obtain ⟨-, hadjusted, -⟩ := h.setting.words
  have htally (b : Fin 64) : t.tally b = s.acc[b.val] := by
    rw [State.tally_after_uSetup b he, h.tallied.start hp]
  rcases exec_uSetup_cases he with ⟨hl, rfl⟩ | ⟨hl, rfl⟩
  · have hrem : v.len.toNat = s.remainderOf := by
      rw [← h.setting.remainderOf, State.remainderOf, if_pos hl]
    refine ⟨h.tallied.noFault, by simp, fun _ b => ?_, fun _ => hrem⟩
    have hbytes : s.adjustedLen - v.len.toNat = s.misalign := by
      rw [h.setting.len, State.adjustedLen, Nat.add_sub_cancel_left]
    rw [htally, hbytes, State.countOf_of_le_misalign b (Nat.le_refl _)]
    exact (BitVec.add_zero _).symm
  · refine ⟨h.tallied.noFault, by simp, fun _ b => ?_, by simp⟩
    have hbytes : s.adjustedLen - (BitVec.ofNat 64 v.adjustedLen).toNat = 0 := by
      have := hs.inRange
      have := s.misalign_le
      have : s.adjustedLen = s.len.toNat + s.misalign := rfl
      rw [hadjusted, BitVec.toNat_ofNat]
      omega
    rw [htally, hbytes, State.countOf_of_le_misalign b (Nat.zero_le _)]
    exact (BitVec.add_zero _).symm

/-- A step that adds the lane sums of the next `n` words to the tally has counted their bytes. -/
theorem State.OnCourse.counted_after_words {j n : Nat} {f : Fin 64 → Nat} (hp : v.ph ≠ .setup)
    (hw : v.AtWord s.reads j) (hn : 8 * n ≤ v.rem.toNat) (hrem : t.rem.toNat = v.rem.toNat - 8 * n)
    (hf : ∀ i : Fin 64, f i = ∑ x ∈ Finset.range n, bitOf v.padded (64 * (j + x) + i.val)) {b : Fin 64}
    (ht : t.tally b = v.tally b + BitVec.ofNat 64 (foldedSum (Config.width v.wsel) b.val f)) :
    t.tally b = s.acc[b.val] + BitVec.ofNat 64 (s.countOf (s.adjustedLen - t.rem.toNat) b) := by
  obtain ⟨-, hadjusted, -⟩ := h.setting.words
  have hlen := hw.rem
  have hbefore : s.adjustedLen - v.rem.toNat = 8 * j := by omega
  have hafter : s.adjustedLen - t.rem.toNat = 8 * j + 8 * n := by omega
  rw [ht, h.tallied.counted hp, hbefore, hafter, s.countOf_add_words b (by omega), funext hf, h.wsel,
    h.setting.padded, BitVec.ofNat_add, BitVec.add_assoc]

/-- A step that keeps the tally and `REM` has counted nothing more. -/
theorem State.OnCourse.tallied_after_kept (hp : v.ph ≠ .setup) (hp' : t.ph ≠ .setup) (herr : t.err = v.err)
    (hrem : t.rem = v.rem) (htally : ∀ b, t.tally b = v.tally b)
    (hend : t.ph = .resid ∨ t.ph = .final ∨ t.ph = .idle → v.rem.toNat = s.remainderOf) : s.Tallied t where
  noFault := herr.trans h.tallied.noFault
  start := fun e => absurd e hp'
  counted := fun _ b => by rw [htally, hrem, h.tallied.counted hp]
  ending := by rwa [hrem]

include hs

theorem State.OnCourse.tallied_after_uHead (hp : v.ph = .head) (hw : v.AtWord s.reads 0) (hrem : 120 ≤ v.rem.toNat)
    (he : exec .uHead v = .next t) : s.Tallied t := by
  have hv := h.setting.quiet hs
  have hreadable := hw.readable hv (n := 15) hrem
  rw [← hw.headRequests_eq] at hreadable
  obtain ⟨u, hu, -, hframe⟩ := headReducesFifteenWords v hv.answers hreadable
  obtain rfl := Host.Outcome.next.inj (hu.symm.trans he)
  have hph : u.ph = .chunk := by rw [hframe]
  have herr : u.err = v.err := by rw [hframe]
  have hleft : u.rem.toNat = v.rem.toNat - 8 * 15 := by
    rw [hframe]
    exact BitVec.toNat_sub_of_le hrem
  exact ⟨herr.trans h.tallied.noFault, by simp [hph],
    fun _ b => h.counted_after_words (by simp [hp]) hw hrem hleft (fun i => hw.headSum_eq hv hrem i.isLt)
      (h.inv.tally_after_uHead b hp hv.answers hreadable he),
    by simp [hph]⟩

theorem State.OnCourse.tallied_after_uChunk {j : Nat} (hp : v.ph = .chunk) (hw : v.AtWord s.reads j) (hj : 0 < j)
    (hrem : 128 ≤ v.rem.toNat) (hep : v.ep ≠ 15#4) (he : exec .uChunk v = .next t) : s.Tallied t := by
  have hv := h.setting.quiet hs
  have hreadable := hw.readable hv (n := 16) hrem
  rw [← hw.chunkRequests_eq hj.ne'] at hreadable
  obtain ⟨u, hu, -, -, -, hframe⟩ := chunkConsumesSixteenWords v hv.answers hreadable
  obtain rfl := Host.Outcome.next.inj (hu.symm.trans he)
  have hph : u.ph = .chunk := by rw [hframe, hp]
  have herr : u.err = v.err := by rw [hframe]
  have hleft : u.rem.toNat = v.rem.toNat - 8 * 16 := by
    rw [hframe]
    exact BitVec.toNat_sub_of_le hrem
  exact ⟨herr.trans h.tallied.noFault, by simp [hph],
    fun _ b => h.counted_after_words (by simp [hp]) hw hrem hleft (fun i => hw.chunkSum_eq hv hj hrem i.isLt)
      (h.inv.tally_after_uChunk b hp hep hv.answers hreadable he),
    by simp [hph]⟩

omit hs

theorem State.OnCourse.tallied_after_uExit {c : Nat} (hp : v.ph = .chunk) (hw : v.AtWord s.reads (15 + 16 * c))
    (hrem : v.rem.toNat < 128) (he : exec .uExit v = .next t) : s.Tallied t := by
  have hleft : v.rem.toNat = s.remainderOf := by
    have hlen := hw.rem
    rw [← h.setting.remainderOf, State.remainderOf, if_neg (by omega), wordsOf_eq hlen hrem]
    omega
  obtain rfl := Host.Outcome.next.inj he
  exact h.tallied_after_kept (by simp [hp]) (by simp) rfl rfl (fun b => State.tally_after_uExit b he) fun _ => hleft

theorem State.OnCourse.tallied_after_uMflush (hp : v.ph = .chunk) (he : exec .uMflush v = .next t) : s.Tallied t := by
  obtain rfl := Host.Outcome.next.inj he
  exact h.tallied_after_kept (by simp [hp]) (by simp [hp]) v.cbflush_err v.cbflush_rem
    (fun b => State.tally_after_uMflush b he) (by simp [hp])

theorem State.OnCourse.tallied_after_uResid (hp : v.ph = .resid) (he : exec .uResid v = .next t) : s.Tallied t := by
  obtain ⟨u, hu, -, -, hframe⟩ := residFoldsThePlanes v
  obtain rfl := Host.Outcome.next.inj (hu.symm.trans he)
  have hph : u.ph = .final := by rw [hframe]
  exact h.tallied_after_kept (by simp [hp]) (by simp [hph]) (by rw [hframe]) (by rw [hframe])
    (fun b => h.inv.tally_after_uResid b hp he) fun _ => h.tallied.ending (.inl hp)

theorem State.OnCourse.tallied_after_uFinal (hp : v.ph = .final) (he : exec .uFinal v = .next t) : s.Tallied t := by
  obtain ⟨u, hu, -, hframe⟩ := finalFlushesAndEnds v
  obtain rfl := Host.Outcome.next.inj (hu.symm.trans he)
  have hph : u.ph = .idle := by rw [hframe]
  exact h.tallied_after_kept (by simp [hp]) (by simp [hph]) (by rw [hframe]) (by rw [hframe])
    (fun b => State.tally_after_uFinal b he) fun _ => h.tallied.ending (.inr (.inl hp))

include hs

theorem State.OnCourse.tallied_after_selected {i : Instr} (hi : v.selectUop = .ok i) (he : exec i v = .next t) :
    s.Tallied t := by
  have hsel := State.selectUop_cases hi
  obtain ⟨-, hadjusted, -⟩ := h.setting.words
  cases h.progress with
  | setup phase reads =>
    obtain rfl : i = .uSetup := by simpa [phase] using hsel
    exact h.tallied_after_uSetup hs phase he
  | head phase work empty atWord =>
    obtain rfl : i = .uHead := by simpa [phase] using hsel
    have hrem := atWord.rem
    exact h.tallied_after_uHead hs phase atWord (by omega) he
  | chunk c phase atWord =>
    have hsel : (v.rem.toNat < 128 ∧ i = .uExit) ∨ (128 ≤ v.rem.toNat ∧ v.ep = 15#4 ∧ i = .uMflush) ∨
        (128 ≤ v.rem.toNat ∧ v.ep ≠ 15#4 ∧ i = .uChunk) := by simpa [phase] using hsel
    rcases hsel with ⟨hrem, rfl⟩ | ⟨-, -, rfl⟩ | ⟨hrem, hep, rfl⟩
    · exact h.tallied_after_uExit phase atWord hrem he
    · exact h.tallied_after_uMflush phase he
    · exact h.tallied_after_uChunk hs phase atWord (by omega) hrem hep he
  | resid phase atWord =>
    obtain rfl : i = .uResid := by simpa [phase] using hsel
    exact h.tallied_after_uResid phase he
  | final phase atWord =>
    obtain rfl : i = .uFinal := by simpa [phase] using hsel
    exact h.tallied_after_uFinal phase he
  | ended phase => exact absurd phase (State.selectUop_ok hi).1

/-! ### Every step, and the end -/

/-- The micro-operation selected leaves the RUN on its course, one step nearer to its end. -/
theorem State.OnCourse.after_selected {i : Instr} (hi : v.selectUop = .ok i) (he : exec i v = .next t) :
    s.OnCourse t ∧ v.stepsLeft = t.stepsLeft + 1 := by
  have hv := h.setting.quiet hs
  obtain ⟨u, hu, hset, hprog, hsteps⟩ := hv.step_progress h.progress (State.selectUop_ok hi).1
  have hstep := (step_of_selected hv.released hv.undisturbed hi).trans he
  obtain rfl := Host.Outcome.next.inj (hu.symm.trans hstep)
  obtain ⟨-, -, -, -, -, -, -, -, hwsel, -⟩ := eachRegisterHasItsWriters i v u he
  have hkept : u.wsel = v.wsel := by_contra fun hne => by
    obtain ⟨w, rfl⟩ := hwsel hne
    cases (State.selectUop_ok hi).2
  exact ⟨⟨h.setting.trans hset, hkept.trans h.wsel, invariantKept v u h.inv hstep, hprog,
    h.tallied_after_selected hs hi he⟩, hsteps⟩

end

/-- At the end nothing is pending, so the accumulators hold what has been counted. -/
theorem State.OnCourse.acc_of_idle {s v : State} (h : s.OnCourse v) (hp : v.ph = .idle) (b : Fin 64) :
    v.acc[b.val] = s.acc[b.val] + BitVec.ofNat 64 (s.countOf (s.adjustedLen - s.remainderOf) b) := by
  obtain ⟨hpl, hcb, -⟩ := h.inv.rested hp (h.progress.ended_of_idle hp).1
  have hrest : v.tally b = v.acc[b.val] := State.tally_of_pending_zero b fun i => by simp [State.pending, hpl, hcb]
  rw [← hrest, h.tallied.counted (by simp [hp]) b, h.tallied.ending (.inr (.inr hp))]

end Sys2Proof.Machine

/-! PROOFS. The contract of a RUN (R253), while the outside acts on other bytes (R71, R330): such a RUN follows the
undisturbed one over a memory in canonical form that agrees with it on the buffer. -/

namespace Sys2Proof.Machine

/-! ### A memory in canonical form -/

/-- The entries a read finds, in canonical form: the first for each address of R60. -/
def Memory.canonical : List Host.Cell → List Host.Cell
  | [] => []
  | (a, v) :: m => if a < 2 ^ 64 then Memory.write (Memory.canonical m) a v else Memory.canonical m

theorem Memory.wf_canonical (m : List Host.Cell) : Memory.wf (Memory.canonical m) := by
  induction m with
  | nil => exact ⟨List.Pairwise.nil, by simp [Memory.canonical]⟩
  | cons c m ih =>
    obtain ⟨a, v⟩ := c
    rw [Memory.canonical]
    split <;> rename_i ha
    · have hword : (BitVec.ofNat 64 a).toNat = a := Nat.mod_eq_of_lt ha
      exact hword ▸ Memory.wf_write ih (BitVec.ofNat 64 a) v
    · exact ih

theorem Memory.read_canonical (m : List Host.Cell) {x : Nat} (hx : x < 2 ^ 64) :
    Memory.read (Memory.canonical m) x = Memory.read m x := by
  induction m with
  | nil => rfl
  | cons c m ih =>
    obtain ⟨a, v⟩ := c
    rw [Memory.canonical, Memory.read]
    by_cases hax : a = x
    · subst hax
      rw [if_pos hx, if_pos rfl, Memory.read_write_same]
    · rw [if_neg hax, ← ih]
      split
      · exact Memory.read_write_other _ v (Ne.symm hax)
      · rfl

/-! ### One block in two surroundings -/

/-- The block of `u` with the memory of `s` and what the outside does in `s`. -/
def State.amid (u s : State) : State := { u with mem := s.mem, memStalled := s.memStalled, inputs := s.inputs }

theorem State.SameSetting.amid {s v : State} (h : s.SameSetting v) : v.amid s = v := by
  rw [State.amid, ← h.mem, ← h.memStalled, ← h.inputs]

section
variable {s u w : State}

/-- Reads that are answered alike make a step that reads the same in both surroundings. -/
theorem State.withBlock_amid {reqs : List Request} {k : List Word → State → State}
    (hread : (u.amid s).readBlock reqs = u.readBlock reqs)
    (hk : ∀ ws, (k ws ((u.amid s).issue reqs)).amid u = k ws (u.issue reqs)) :
    ((u.amid s).withBlock reqs k).amid u = u.withBlock reqs k := by
  simp only [State.withBlock, hread]
  split
  · exact hk _
  · rfl
  · rfl

/-- A micro-operation sees its surroundings only through its reads. -/
theorem exec_amid {i : Instr} (hi : i.isCommand = false)
    (hhead : i = .uHead → (u.amid s).readBlock u.headRequests = u.readBlock u.headRequests)
    (hchunk : i = .uChunk → (u.amid s).readBlock u.chunkRequests = u.readBlock u.chunkRequests)
    (he : exec i (u.amid s) = .next w) : exec i u = .next (w.amid u) := by
  cases i with
  | nop | setaddr | setlen | run | accwr | accrd | rdsr | errclr => cases hi
  | uSetup =>
    rcases exec_uSetup_cases he with ⟨hl, rfl⟩ | ⟨hl, rfl⟩
    · exact if_pos hl
    · exact if_neg (Nat.not_lt.2 hl)
  | uHead =>
    obtain rfl := Host.Outcome.next.inj he
    exact congrArg Host.Outcome.next (State.withBlock_amid (hhead rfl) fun _ => rfl).symm
  | uChunk =>
    obtain rfl := Host.Outcome.next.inj he
    exact congrArg Host.Outcome.next (State.withBlock_amid (hchunk rfl) fun _ => rfl).symm
  | uExit | uMflush | uResid | uFinal =>
    obtain rfl := Host.Outcome.next.inj he
    rfl

/-- While the memory is silent, the steps that read are not taken (log 6). -/
theorem State.withBlock_of_stalled (h : u.memStalled = true) (reqs : List Request) (k : List Word → State → State) :
    u.withBlock reqs k = u := by
  simp [State.withBlock, State.readBlock, h]

/-! ### The bytes a RUN asks for -/

/-- An enabled byte of a word that ends within the buffer is a byte of the buffer (R68). -/
theorem State.Quiet.runRead_byte (hs : s.Quiet) {j k : Nat} (hj : 8 * j + 8 ≤ s.adjustedLen) (hk : k < 8)
    (hbe : (s.runRead j).2.getLsbD k = true) :
    ∃ x, x < s.len.toNat ∧ (s.runRead j).1.toNat + k = s.addr.toNat + x := by
  have hm := s.misalign_lt
  have hle := s.misalign_le
  have hrange := hs.inRange
  have hlen : s.adjustedLen = s.len.toNat + s.misalign := rfl
  have hfirst : s.misalign ≤ 8 * j + k := by
    by_cases h0 : j = 0
    · simp only [State.runRead, h0, if_true, headEnables_getLsbD, decide_eq_true_eq] at hbe
      omega
    · omega
  refine ⟨8 * j + k - s.misalign, by omega, ?_⟩
  rw [State.runRead, BitVec.toNat_ofNat]
  omega

/-- The next words of the buffer are answered alike by a memory that agrees on the buffer. -/
theorem State.AtWord.readBlock_congr {before : List Request} {j n : Nat} (hw : s.AtWord before j) (hs : s.Quiet)
    (hn : 8 * n ≤ s.rem.toNat) {m : List Host.Cell} (c : Nat)
    (hm : ∀ k, k < s.len.toNat → Memory.read m (s.addr.toNat + k) = Memory.read s.mem (s.addr.toNat + k)) :
    Machine.readBlock s.mem c ((List.range n).map fun i => s.runRead (j + i)) =
      Machine.readBlock m c ((List.range n).map fun i => s.runRead (j + i)) := by
  have hrem := hw.rem
  refine Machine.readBlock_congr (fun r hr k hk hbe => ?_) c
  obtain ⟨i, hi, rfl⟩ := List.mem_map.1 hr
  rw [List.mem_range] at hi
  obtain ⟨x, hx, hbyte⟩ := hs.runRead_byte (by omega) hk hbe
  rw [hbyte, hm x hx]

end

end Sys2Proof.Machine

/-! PROOFS. A RUN among other acts of the outside, and its contract (R253, R330). -/

namespace Sys2Proof.Machine

/-- A state of a RUN that started in `s` undisturbed and goes on among acts that spare the buffer; `rest` comes after
them. -/
structure State.Follows (s : State) (rest : List Input) (u : State) : Prop where
  course : s.OnCourse (u.amid s)
  buffer : ∀ k, k < s.len.toNat → Memory.read u.mem (s.addr.toNat + k) = Memory.read s.mem (s.addr.toNat + k)
  acts : ∃ acts, u.inputs = acts ++ rest ∧ (∀ x ∈ acts, x.spares s.addr.toNat s.len.toNat = true) ∧
    stalledAfter u.memStalled acts = false

/-- Driven low when it is low, `rst` changes nothing (log 4). -/
theorem step_rst_low {s : State} {rest : List Input} (hin : s.inputs = .rst false :: rest) (hr : s.rst = false) :
    step s = .next { s with inputs := rest } := by
  have hlow : State.driveRst { s with inputs := rest } false = { s with inputs := rest } := by
    rw [State.driveRst_low, ← hr]
  simp only [step, State.turn, hin, hlow]

section
variable {s : State} {before : List Request} (h : s.Progress before)
include h

theorem State.Progress.atWord_of_head (hp : s.ph = .head) : s.AtWord before 0 ∧ 120 ≤ s.rem.toNat := by
  cases h with
  | head phase work empty atWord =>
    have hrem := atWord.rem
    exact ⟨atWord, by omega⟩
  | setup phase | chunk c phase | resid phase | final phase | ended phase => simp [phase] at hp

theorem State.Progress.atWord_of_chunk (hp : s.ph = .chunk) : ∃ c, s.AtWord before (15 + 16 * c) := by
  cases h with
  | chunk c phase atWord => exact ⟨c, atWord⟩
  | setup phase | head phase | resid phase | final phase | ended phase => simp [phase] at hp

end

section
variable {s u : State} {rest : List Input} (hs : s.Quiet) (h : s.Follows rest u)
include hs h

/-! ### The sequencer's steps -/

/-- The next words of the buffer are answered as in the undisturbed RUN. -/
theorem State.Follows.readBlock_words {j n : Nat} (hw : (u.amid s).AtWord s.reads j) (hn : 8 * n ≤ u.rem.toNat)
    (hm : u.memStalled = false) :
    (u.amid s).readBlock ((List.range n).map fun i => (u.amid s).runRead (j + i)) =
      u.readBlock ((List.range n).map fun i => (u.amid s).runRead (j + i)) := by
  have hbuffer : ∀ k, k < (u.amid s).len.toNat →
      Memory.read u.mem ((u.amid s).addr.toNat + k) = Memory.read s.mem ((u.amid s).addr.toNat + k) := by
    rw [h.course.setting.len, h.course.setting.addr]
    exact h.buffer
  have hanswers : (u.amid s).memStalled = false := hs.answers
  have hwords := hw.readBlock_congr (h.course.setting.quiet hs) hn u.reads.length hbuffer
  simp only [State.readBlock, hm, hanswers]
  exact hwords

theorem State.Follows.readBlock_head (hp : u.ph = .head) (hm : u.memStalled = false) :
    (u.amid s).readBlock u.headRequests = u.readBlock u.headRequests := by
  obtain ⟨hw, hrem⟩ := h.course.progress.atWord_of_head hp
  have hwords := h.readBlock_words hs hw (n := 15) hrem hm
  rwa [← hw.headRequests_eq] at hwords

theorem State.Follows.readBlock_chunk (hp : u.ph = .chunk) (hrem : 128 ≤ u.rem.toNat) (hm : u.memStalled = false) :
    (u.amid s).readBlock u.chunkRequests = u.readBlock u.chunkRequests := by
  obtain ⟨c, hw⟩ := h.course.progress.atWord_of_chunk hp
  have hwords := h.readBlock_words hs hw (n := 16) hrem hm
  rwa [← hw.chunkRequests_eq (by omega)] at hwords

/-- The selected micro-operation goes on with the RUN, or finds the memory silent and is not taken. -/
theorem State.Follows.exec_selected {i : Instr} (hi : u.selectUop = .ok i) :
    ∃ t, exec i u = .next t ∧ s.Follows rest t ∧ t.inputs = u.inputs ∧
      (u.stepsLeft = t.stepsLeft + 1 ∨ u.memStalled = true ∧ t.stepsLeft = u.stepsLeft) := by
  by_cases hsilent : u.memStalled = true ∧ (i = .uHead ∨ i = .uChunk)
  · have huntaken : exec i u = .next u := by
      rcases hsilent.2 with rfl | rfl <;> exact congrArg Host.Outcome.next (State.withBlock_of_stalled hsilent.1 _ _)
    exact ⟨u, huntaken, h, rfl, .inr ⟨hsilent.1, rfl⟩⟩
  · have hanswers (hread : i = .uHead ∨ i = .uChunk) : u.memStalled = false :=
      Bool.eq_false_iff.2 fun hm => hsilent ⟨hm, hread⟩
    obtain ⟨w, he⟩ := exec_goes_on i (u.amid s)
    obtain ⟨hcourse, hsteps⟩ := h.course.after_selected hs hi he
    have hsel := State.selectUop_cases hi
    have hexec := exec_amid (State.selectUop_ok hi).2
      (fun e => h.readBlock_head hs (by simpa [e] using hsel) (hanswers (.inl e)))
      (fun e => by
        have hchunk : u.ph = .chunk ∧ 128 ≤ u.rem.toNat ∧ u.ep ≠ 15#4 := by simpa [e] using hsel
        exact h.readBlock_chunk hs hchunk.1 hchunk.2.1 (hanswers (.inr e))) he
    have hamid : (w.amid u).amid s = w := hcourse.setting.amid
    exact ⟨w.amid u, hexec, ⟨hamid.symm ▸ hcourse, h.buffer, h.acts⟩, rfl, .inl hsteps⟩

/-! ### The acts of the outside -/

omit hs in
/-- An act of the outside that spares the buffer leaves the block where it is, and is then done with. -/
theorem State.Follows.step_act {x : Input} {acts : List Input} (hp : u.ph ≠ .idle)
    (hin : u.inputs = x :: acts ++ rest)
    (hspare : ∀ y ∈ x :: acts, y.spares s.addr.toNat s.len.toNat = true)
    (hanswers : stalledAfter u.memStalled (x :: acts) = false) (hx : x ≠ .wait) :
    ∃ t, step u = .next t ∧ s.Follows rest t ∧ t.inputs = acts ++ rest ∧ t.stepsLeft = u.stepsLeft := by
  have hx' := hspare x List.mem_cons_self
  have hacts : ∀ y ∈ acts, y.spares s.addr.toNat s.len.toNat = true := fun y hy =>
    hspare y (List.mem_cons_of_mem x hy)
  have houtside {a : Word} (ha : decide (a.toNat < s.addr.toNat ∨ s.addr.toNat + s.len.toNat ≤ a.toNat) = true)
      (k : Nat) (hk : k < s.len.toNat) : s.addr.toNat + k ≠ a.toNat := by
    rw [decide_eq_true_eq] at ha
    omega
  cases x with
  | wait => exact absurd rfl hx
  | command c opnd => cases hx'
  | store a v =>
    have hbuffer (k : Nat) (hk : k < s.len.toNat) :=
      (Memory.read_write_other u.mem v (houtside hx' k hk)).trans (h.buffer k hk)
    exact ⟨_, step_store hin, ⟨h.course, hbuffer, acts, rfl, hacts, hanswers⟩, rfl, rfl⟩
  | withdraw a =>
    have hbuffer (k : Nat) (hk : k < s.len.toNat) :=
      (Memory.read_withdraw_other u.mem (houtside hx' k hk)).trans (h.buffer k hk)
    exact ⟨_, step_withdraw hin, ⟨h.course, hbuffer, acts, rfl, hacts, hanswers⟩, rfl, rfl⟩
  | stall on => exact ⟨_, step_stall hin, ⟨h.course, h.buffer, acts, rfl, hacts, hanswers⟩, rfl, rfl⟩
  | rst on =>
    obtain rfl : on = false := by simpa [Input.spares] using hx'
    have hrst : u.rst = false := h.course.inv.released hp
    exact ⟨_, step_rst_low hin hrst, ⟨h.course, h.buffer, acts, rfl, hacts, hanswers⟩, rfl, rfl⟩

/-! ### Every step -/

/-- While acts are left, a step brings the end nearer by a step of the sequencer, or leaves one act less. -/
theorem State.Follows.step_progress (hrest : rest = [] ∨ ∃ c opnd tail, rest = .command c opnd :: tail)
    (hp : u.ph ≠ .idle) :
    ∃ t, step u = .next t ∧ s.Follows rest t ∧
      t.stepsLeft + (t.inputs.length - rest.length) < u.stepsLeft + (u.inputs.length - rest.length) := by
  have hrst : u.rst = false := h.course.inv.released hp
  obtain ⟨i, hi⟩ := State.exists_selected hp
  obtain ⟨acts, hin, hspare, hanswers⟩ := h.acts
  cases acts with
  | nil =>
    obtain ⟨t, he, hfollows, hinputs, hsteps⟩ := h.exec_selected hs hi
    have hundisturbed : u.undisturbed := by
      rw [State.undisturbed, hin]
      exact hrest
    have hanswers : u.memStalled = false := hanswers
    refine ⟨t, (step_of_selected hrst hundisturbed hi).trans he, hfollows, ?_⟩
    rw [hinputs]
    rcases hsteps with hsteps | ⟨hm, -⟩
    · omega
    · simp [hanswers] at hm
  | cons x acts =>
    have hlength : u.inputs.length = (acts ++ rest).length + 1 := by rw [hin]; rfl
    have hrestLength : rest.length ≤ (acts ++ rest).length := by simp
    by_cases hx : x = .wait
    · subst hx
      have hleft : s.Follows rest { u with inputs := acts ++ rest } :=
        ⟨h.course, h.buffer, acts, rfl, fun y hy => hspare y (List.mem_cons_of_mem _ hy), hanswers⟩
      obtain ⟨t, he, hfollows, hinputs, hsteps⟩ := hleft.exec_selected hs hi
      have hinputs : t.inputs = acts ++ rest := hinputs
      have hsteps : u.stepsLeft = t.stepsLeft + 1 ∨ u.memStalled = true ∧ t.stepsLeft = u.stepsLeft := hsteps
      refine ⟨t, (step_of_wait hrst hin hi).trans he, hfollows, ?_⟩
      rw [hinputs, hlength]
      omega
    · obtain ⟨t, hstep, hfollows, hinputs, hsteps⟩ := h.step_act hp hin hspare hanswers hx
      refine ⟨t, hstep, hfollows, ?_⟩
      rw [hinputs, hsteps, hlength]
      omega

end

/-! ### The whole RUN -/

/-- Outside IDLE every step keeps `P` and makes `μ` less: so within `μ` steps there is a first state in IDLE. -/
theorem run_to_idle_within {P : State → Prop} {μ : State → Nat}
    (hstep : ∀ s, P s → s.ph ≠ .idle → ∃ t, step s = .next t ∧ P t ∧ μ t < μ s) :
    ∀ {N : Nat} {s : State}, P s → μ s ≤ N →
      ∃ n t, n ≤ N ∧ Host.Core.run Sys2Proof.core n s = .next t ∧ P t ∧ t.ph = .idle ∧
        ∀ k u, k < n → Host.Core.run Sys2Proof.core k s = .next u → u.ph ≠ .idle := by
  intro N
  induction N with
  | zero =>
    intro s hs hN
    have hp : s.ph = .idle := by_contra fun hp => by
      obtain ⟨t, -, -, hless⟩ := hstep s hs hp
      omega
    exact ⟨0, s, Nat.le_refl 0, rfl, hs, hp, by simp⟩
  | succ N ih =>
    intro s hs hN
    by_cases hp : s.ph = .idle
    · exact ⟨0, s, Nat.zero_le _, rfl, hs, hp, by simp⟩
    · obtain ⟨t, ht, hPt, hless⟩ := hstep s hs hp
      obtain ⟨n, v, hn, hrun, hPv, hidle, hbusy⟩ := ih hPt (by omega)
      refine ⟨n + 1, v, Nat.succ_le_succ hn, (run_succ_of_next n ht).trans hrun, hPv, hidle, fun k u hk hu => ?_⟩
      cases k with
      | zero =>
        obtain rfl := Host.Outcome.next.inj hu
        exact hp
      | succ k => exact hbusy k u (by omega) ((run_succ_of_next k ht).symm.trans hu)

/-- `s` after an accepted RUN (R223). -/
def State.started (s : State) (w : BitVec 2) : State :=
  { s with done := false, rsps := s.rsps ++ [0#64], wsel := w, ph := .setup }

/-- `s` with nothing to disturb it, over a memory in canonical form. -/
def State.calmed (s : State) : State := { s with mem := Memory.canonical s.mem, memStalled := false, inputs := [] }

/-- The canonical form agrees on every buffer that lies below 2^64. -/
theorem State.read_calmed {s : State} (hrange : s.addr.toNat + s.len.toNat < 2 ^ 64) {k : Nat} (hk : k < s.len.toNat) :
    Memory.read s.calmed.mem (s.addr.toNat + k) = Memory.read s.mem (s.addr.toNat + k) :=
  Memory.read_canonical _ (by omega)

theorem State.buffer_calmed {s : State} (hrange : s.addr.toNat + s.len.toNat < 2 ^ 64) :
    s.calmed.buffer = s.buffer :=
  List.map_congr_left fun _ hk => congrArg (Option.getD · 0#8) (State.read_calmed hrange (List.mem_range.1 hk))

section
variable {s : State} {w : BitVec 2} (hl : s.Launchable w)
include hl

theorem State.Launchable.quiet (hb : s.bufferReadable) : (s.started w).calmed.Quiet where
  released := hl.released
  answers := rfl
  undisturbed := .inl rfl
  inRange := hl.inRange
  readable := fun k hk => by
    have hread := State.read_calmed (s := s.started w) hl.inRange hk
    exact hread ▸ hb k hk

/-- The RUN as it starts. -/
theorem State.Launchable.onCourse (hsat : s.sat = false) : (s.started w).calmed.OnCourse (s.started w).calmed where
  setting := ⟨rfl, rfl, rfl, rfl, rfl, rfl⟩
  wsel := rfl
  inv := State.Running.inv_of_setup
    ⟨Memory.wf_canonical _, hl.released, hsat, hl.noFault, rfl,
      (State.alignedFor_iff _ _).2 ⟨hl.addrAligned, hl.lenAligned⟩, (State.inRange_iff _).2 hl.inRange⟩ rfl
  progress := .setup rfl rfl
  tallied := ⟨hl.noFault, fun _ => rfl, fun h => absurd rfl h, by simp [State.calmed, State.started]⟩

/-- The accumulators of a RUN that has ended (R253). -/
theorem State.Launchable.acc_of_idle {v : State} (h : (s.started w).calmed.OnCourse v) (hp : v.ph = .idle)
    (b : Fin 64) : v.acc[b.val] =
      if b.val < Config.width w then
        s.acc[b.val] + BitVec.ofNat 64 (ppc (Config.width w) s.buffer b.val)
          - BitVec.ofNat 64 (ppc (Config.width w) (s.buffer.drop (s.len.toNat - s.remainderOf)) b.val)
      else s.acc[b.val] := by
  have hdone := (h.progress.ended_of_idle hp).1
  have hrem : s.remainderOf % Config.elemSize w = 0 := by
    have := h.inv.remainder hdone
    rwa [h.tallied.ending (.inr (.inr hp)), h.wsel] at this
  have hbuffer : (s.started w).calmed.buffer = s.buffer := State.buffer_calmed (s := s.started w) hl.inRange
  have hacc : v.acc[b.val] = s.acc[b.val] +
      BitVec.ofNat 64 ((s.started w).calmed.countOf (s.adjustedLen - s.remainderOf) b) := h.acc_of_idle hp b
  rw [hacc]
  split <;> rename_i hb
  · have hcount : (s.started w).calmed.countOf (s.adjustedLen - s.remainderOf) b +
        ppc (Config.width w) (s.buffer.drop (s.len.toNat - s.remainderOf)) b.val =
          ppc (Config.width w) s.buffer b.val :=
      hbuffer ▸ State.countOf_consumed (s := (s.started w).calmed) hl.addrAligned hl.lenAligned hrem hb
    rw [← hcount, BitVec.ofNat_add, ← BitVec.add_assoc, BitVec.add_sub_cancel]
  · have hnone : (s.started w).calmed.countOf (s.adjustedLen - s.remainderOf) b = 0 := if_neg hb
    rw [hnone]
    exact BitVec.add_zero _

end

/-- Settles O60: the RUN follows the undisturbed one to its end, where the block is the same. -/
theorem completedRunAmongOtherActs : Obligations.CompletedRunAmongOtherActs := by
  intro s w acts rest hl hsat hb hin hspare hanswers hrest
  set start := (s.started w).calmed
  have hquiet : start.Quiet := hl.quiet hb
  have hfollows : start.Follows rest (s.started w) :=
    ⟨hl.onCourse hsat, fun k hk => (State.read_calmed (s := s.started w) hl.inRange hk).symm, acts, hin, hspare,
      hanswers⟩
  have hbound : (s.started w).stepsLeft + ((s.started w).inputs.length - rest.length) ≤
      stepsOf s.adjustedLen + acts.length := by
    have hsteps : (s.started w).stepsLeft = stepsOf s.adjustedLen := State.stepsLeft_of_setup rfl
    have hinputs : (s.started w).inputs = acts ++ rest := hin
    rw [hsteps, hinputs, List.length_append, Nat.add_sub_cancel]
  obtain ⟨n, t, hn, hrun, hend, hidle, hbusy⟩ := run_to_idle_within (P := start.Follows rest)
    (μ := fun u => u.stepsLeft + (u.inputs.length - rest.length))
    (fun u hu hp => hu.step_progress hquiet hrest hp) hfollows hbound
  have hcourse := hend.course
  have hdone : t.done = true := (hcourse.progress.ended_of_idle hidle).1
  have hwsel : t.wsel = w := hcourse.wsel
  exact ⟨s.started w, t, n, exec_run_of_launchable hl, hn, hrun, hbusy, hidle, hdone, hcourse.tallied.noFault,
    hcourse.inv.noSat, hcourse.tallied.ending (.inr (.inr hidle)), hwsel ▸ hcourse.inv.remainder hdone,
    hl.acc_of_idle (v := t.amid start) hcourse hidle⟩

/-- Settles O56: the contract of a RUN among no acts, whose end comes no earlier than R189 says. -/
theorem completedRunCounts : Obligations.CompletedRunCounts := by
  intro s w hl hsat hm hu hb
  obtain ⟨t0, t, n, hstart, hn, hrun, -, hidle, hcontract⟩ :=
    completedRunAmongOtherActs s w [] s.inputs hl hsat hb rfl (by simp) hm hu
  obtain ⟨t0', -, hstart', -, -, -, hbusy, -⟩ := completedRunReads s w hl hm hu hb
  obtain rfl := Host.Outcome.next.inj (hstart.symm.trans hstart')
  obtain rfl : n = stepsOf s.adjustedLen :=
    Nat.le_antisymm hn (Nat.le_of_not_lt fun hless => hbusy n t hless hrun hidle)
  exact ⟨t0, t, hstart, hrun, hidle, hcontract⟩

end Sys2Proof.Machine

/-! PROOFS. Every state has a next state (R287, log 7), and IDLE with nothing presented is its own (R295). -/

namespace Sys2Proof.Machine

/-! ### The step of a turn -/

theorem step_of_execute {s u : State} {i : Instr} (h : s.turn = .execute i u) : step s = exec i u := by
  rw [step, h]

theorem step_of_settled {s u : State} (h : s.turn = .settled u) : step s = .next u := by
  rw [step, h]

/-- In IDLE the sequencer takes no step, be `rst` high or low (R180, R320). -/
theorem State.sequencerTurn_of_idle {s : State} (h : s.ph = .idle) : s.sequencerTurn = .settled s := by
  rcases s.sequencerTurn_cases with ⟨i, -, hi, -⟩ | ⟨-, hturn⟩
  · exact absurd h (State.selectUop_ok hi).1
  · exact hturn

/-! ### Going on and holding -/

/-- Settles O9: a turn is an instruction, and each has a next state, or a state already reached. -/
theorem everyStepGoesOn : Obligations.EveryStepGoesOn := by
  intro s
  cases hturn : s.turn with
  | execute i u =>
    obtain ⟨t, ht⟩ := exec_goes_on i u
    exact ⟨t, (step_of_execute hturn).trans ht⟩
  | settled u => exact ⟨u, step_of_settled hturn⟩

/-- Settles O11: with no input the turn is the sequencer's, which has none in IDLE. -/
theorem idleHoldsItsState : Obligations.IdleHoldsItsState := by
  intro s hidle hin
  have hturn : s.turn = s.sequencerTurn := by simp only [State.turn, hin]
  exact step_of_settled (hturn.trans (State.sequencerTurn_of_idle hidle))

end Sys2Proof.Machine

/-! PROOFS. Reset and hazards: the level `rst` (R320), what earlier RUNs left (R321), and the silent memory (R335). -/

namespace Sys2Proof.Machine

/-! ### Steps that reset, and steps held by `rst` -/

/-- The outside driving `rst` is a step of its own (R320). -/
theorem step_rst {s : State} {on : Bool} {rest : List Input} (h : s.inputs = .rst on :: rest) :
    step s = .next (State.driveRst { s with inputs := rest } on) :=
  step_of_settled (by simp only [State.turn, h])

/-- Driven while it is high, `rst` takes the level it is given, and nothing else changes (R320). -/
theorem step_rst_of_held {s : State} {on : Bool} {rest : List Input} (hr : s.rst = true)
    (h : s.inputs = .rst on :: rest) : step s = .next { s with rst := on, inputs := rest } :=
  (step_rst h).trans (congrArg _ (State.driveRst_stays { s with inputs := rest } hr on))

/-- A command presented while `rst` is high waits (log 4), and the sequencer has no step for it to wait for. -/
theorem step_command_of_held {s : State} {c : BitVec 32} {opnd : Word} {rest : List Input} (hr : s.rst = true)
    (h : s.inputs = .command c opnd :: rest) : step s = .next s := by
  have hturn : s.turn = s.sequencerTurn := by simp [State.turn, h, hr]
  exact step_of_settled (hturn.trans (State.sequencerTurn_of_rst hr))

/-- Everything a step can do while `rst` is high: the outside changes memory or its turn, and `rst` goes low exactly when
it is driven low. -/
theorem step_of_held {s : State} (hr : s.rst = true) :
    ∃ (r : Bool) (m : List Host.Cell) (stalled : Bool) (ins : List Input),
      step s = .next { s with rst := r, mem := m, memStalled := stalled, inputs := ins } ∧
      (r = false ↔ ∃ rest, s.inputs = .rst false :: rest) := by
  cases hin : s.inputs with
  | nil =>
    have hturn : s.turn = s.sequencerTurn := by simp only [State.turn, hin]
    exact ⟨s.rst, _, _, _, step_of_settled (hturn.trans (State.sequencerTurn_of_rst hr)), by simp [hr]⟩
  | cons x rest =>
    cases x with
    | command c opnd => exact ⟨s.rst, _, _, _, step_command_of_held hr hin, by simp [hr]⟩
    | wait =>
      have hturn : s.turn = State.sequencerTurn { s with inputs := rest } := by simp only [State.turn, hin]
      exact ⟨s.rst, _, _, _, step_of_settled (hturn.trans (State.sequencerTurn_of_rst hr)), by simp [hr]⟩
    | store a v => exact ⟨s.rst, _, _, _, step_store hin, by simp [hr]⟩
    | withdraw a => exact ⟨s.rst, _, _, _, step_withdraw hin, by simp [hr]⟩
    | stall on => exact ⟨s.rst, _, _, _, step_stall hin, by simp [hr]⟩
    | rst on => exact ⟨on, _, _, _, step_rst_of_held hr hin, by simp⟩

/-! ### Reset -/

/-- The power-on state meets R320's table: the registers of the table are those an assertion of `rst` gives. -/
theorem State.reset_atReset : State.reset.AtReset := State.reset.assertReset_atReset

/-- Settles O12: an assertion is the step `assertReset`, and a step while `rst` is high changes no register. -/
theorem resetValues : Obligations.ResetValues := by
  refine ⟨State.reset_atReset, rfl, fun s rest hr hin => ?_, fun s hr => ?_⟩
  · have hstep : step s = .next (State.assertReset { s with inputs := rest }) :=
      (step_rst hin).trans (congrArg _ (State.driveRst_rises { s with inputs := rest } hr))
    exact ⟨_, hstep, State.assertReset_atReset _, rfl, rfl, rfl, rfl⟩
  · obtain ⟨r, m, stalled, ins, hstep, hlow⟩ := step_of_held hr
    refine ⟨_, hstep, rfl, id, hlow, fun rest hin => ?_, fun c opnd rest hin => ?_⟩
    · exact Host.Outcome.next.inj (hstep.symm.trans (step_rst_of_held hr hin))
    · exact Host.Outcome.next.inj (hstep.symm.trans (step_command_of_held hr hin))

/-! ### Hazards -/

/-- Settles O26: in both branches, what `u.SETUP` leaves names none of the five registers of the state before it. -/
theorem setupForgetsEarlierRuns : Obligations.SetupForgetsEarlierRuns := by
  intro s pl cb ep ptr rem
  obtain ⟨hshort, hlong⟩ := setupPreparesTheRun s
  obtain ⟨hshort', hlong'⟩ := setupPreparesTheRun { s with pl := pl, cb := cb, ep := ep, ptr := ptr, rem := rem }
  by_cases hlen : s.len.toNat + s.addr.toNat % 8 < 120
  · exact (hshort' hlen).trans (hshort hlen).symm
  · exact (hlong' (Nat.le_of_not_lt hlen)).trans (hlong (Nat.le_of_not_lt hlen)).symm

/-- Settles O34: both steps are one block of reads, which a silent memory leaves untaken. -/
theorem silentMemoryHoldsTheStep : Obligations.SilentMemoryHoldsTheStep := fun _ h =>
  ⟨congrArg Host.Outcome.next (State.withBlock_of_stalled h _ _),
    congrArg Host.Outcome.next (State.withBlock_of_stalled h _ _)⟩

end Sys2Proof.Machine
